-- ==== Sys2Proof/Word.lean ====
section
/-! DEFINITION. The byte, and the 8-byte ROM code (00_scope.md R8, R12). -/

namespace Sys2Proof

/-- A queue byte, the accumulator, the mask cursor: `UInt8` of R9. -/
abbrev Byte := BitVec 8

/-- A ROM code (device address): byte 0 is the family byte, byte 7 the CRC byte (R12). -/
abbrev Rom := Vector Byte 8

/-- Eight zero bytes: the reset value of `q.res_addr` and `s.rom` (R55). -/
def Rom.zero : Rom := Vector.replicate 8 0

end Sys2Proof
end

