-- ==== Sys2Proof/Config.lean ====
section
/-! DEFINITION. The construction parameters of 00_scope.md R7, and the free values. -/

namespace Sys2Proof

/-- The parameters of one block, fixed at its construction (R7). The default of each is R7's own;
`cap` and `pin` have none there (R7: examples use 64; PIN is opaque): DESIGN CHOICE, log 7. -/
structure Params where
  /-- `PIN`: not interpreted by any rule. -/
  pin : Nat := 0
  /-- `CAP`: queue capacity in bytes. -/
  cap : Nat := 64
  /-- `WAIT_BYTES` -/
  waitBytes : Nat := 4
  /-- `HANDLER_BYTES` -/
  handlerBytes : Nat := 2
  /-- `CONTEXT_BYTES` -/
  contextBytes : Nat := 2
  /-- `CLOCK_BITS` -/
  clockBits : Nat := 32
  /-- `SEARCH_ALARM` -/
  searchAlarm : Bool := false
  /-- `CMD_SEARCH` -/
  cmdSearch : Byte := 0xF0
  /-- `CMD_ALARM_SEARCH` -/
  cmdAlarmSearch : Byte := 0xEC
  /-- `T_RST_LOW` -/
  tRstLow : Nat := 480
  /-- `T_RST_SAMPLE` -/
  tRstSample : Nat := 65
  /-- `T_RST_REC` -/
  tRstRec : Nat := 480
  /-- `T_W1_LOW` -/
  tW1Low : Nat := 10
  /-- `T_W1_HIGH` -/
  tW1High : Nat := 55
  /-- `T_W0_LOW` -/
  tW0Low : Nat := 60
  /-- `T_W0_HIGH` -/
  tW0High : Nat := 5
  /-- `T_R_LOW` -/
  tRLow : Nat := 3
  /-- `T_R_SAMPLE` -/
  tRSample : Nat := 10
  /-- `T_R_REST` -/
  tRRest : Nat := 52
  deriving DecidableEq, Repr

/-- R7's defaults, used by the spec's examples and vectors. -/
def Params.default : Params := {}

namespace Config

/-- FREE VALUE (I13, log 3): whether the devices leave the line alone at a sample for which the
bus environment lists no answer. `true` is "no device pulls low". -/
opaque freeSample : Nat → Bool

/-- FREE VALUE (I5, log 9): what a queue byte holds that no append has written since `begin()`. -/
opaque freeQueueByte : Nat → Byte

/-- FREE VALUE (R283, log 2): the microseconds that pass before a poll the host script does not time. -/
opaque freeAdvance : Nat → Nat

/-- FREE VALUE (I16, log 5): whether a callback handler whose operations are not listed drains the
accumulator; no other effect on the block is open to it (R134). -/
opaque freeHandlerDrains : Nat → Bool

end Config

end Sys2Proof
end

