-- ==== Sys2Proof/Syntax.lean ====
section
/-! DEFINITION. The twelve instruction kinds (00_scope.md R3, 30_encoding.md R81), one constructor for each row of
opcode_table.json, named by its mnemonic (R88). -/

namespace Sys2Proof

/-- An instruction. Operand widths are parameters (R7), so operands are naturals; `Instr.wellFormed`
bounds them. `Nop` is no instruction of the table: it is the slot form of a truncated one (R31, R155). -/
inductive Instr where
  /-- Reset, tag 0x00 (R173). -/
  | reset
  /-- Write0, tag 0x01 (R175). -/
  | w0
  /-- Write1, tag 0x02 (R176). -/
  | w1
  /-- PowerWrite0, tag 0x03 (R177). -/
  | pw0
  /-- PowerWrite1, tag 0x04 (R178). -/
  | pw1
  /-- Read, tag 0x05 (R180). -/
  | read
  /-- SearchFirst, tag 0x06 (R221). -/
  | srchf
  /-- SearchNext, tag 0x07 (R222). -/
  | srchn
  /-- Power, tag 0x08 (R181). -/
  | power
  /-- Unpower, tag 0x09 (R182). -/
  | unpower
  /-- Wait(dur), tag 0x0A, `dur` in microseconds (R183). -/
  | wait (dur : Nat)
  /-- Callback(h, c), tag 0x0B, handler id and context (R184). -/
  | callback (h c : Nat)
  deriving DecidableEq, Repr

end Sys2Proof
end

