-- ==== Sys2Proof/WellFormed.lean ====
section
/-! DEFINITION. When an instruction's operands fit its payload fields (30_encoding.md R82; 40_builder.md R124, R125). -/

namespace Sys2Proof

/-- Each operand fits its field: `dur < 2^(8*WAIT_BYTES)`, `h < 2^(8*HANDLER_BYTES)`,
`c < 2^(8*CONTEXT_BYTES)`. -/
def Instr.wellFormed (p : Params) : Instr → Bool
  | .wait dur => decide (dur < 2 ^ (8 * p.waitBytes))
  | .callback h c => decide (h < 2 ^ (8 * p.handlerBytes)) && decide (c < 2 ^ (8 * p.contextBytes))
  | .reset => true
  | .w0 => true
  | .w1 => true
  | .pw0 => true
  | .pw1 => true
  | .read => true
  | .srchf => true
  | .srchn => true
  | .power => true
  | .unpower => true

end Sys2Proof
end

