-- ==== Sys2Proof/Decode.lean ====
section
/-! DEFINITION. Decoding of queue bytes, total, and the encoder (30_encoding.md R80 to R87). -/

namespace Sys2Proof

/-- `le(v, n)`: the `n` low bytes of `v`, least significant first (R64, R124). -/
def leBytes : Nat → Nat → List Byte
  | 0, _ => []
  | n + 1, v => BitVec.ofNat 8 v :: leBytes n (v / 256)

/-- The value of payload bytes, little-endian and zero-extended (R82). -/
def leValue : List Byte → Nat
  | [] => 0
  | b :: bs => b.toNat + 256 * leValue bs

/-- The length of the instruction a tag begins; `none` for a reserved tag (R84, R87). -/
def tagLength (p : Params) (tag : Byte) : Option Nat :=
  if tag.toNat ≤ 0x09 then some 1
  else if tag.toNat = 0x0A then some (1 + p.waitBytes)
  else if tag.toNat = 0x0B then some (1 + p.handlerBytes + p.contextBytes)
  else none

/-- The longest encoded instruction (R80). -/
def maxLength (p : Params) : Nat :=
  max (1 + p.waitBytes) (1 + p.handlerBytes + p.contextBytes)

/-- What the bytes at the read cursor are. -/
inductive Decoded where
  /-- A whole instruction, and the bytes after it. -/
  | instr (i : Instr) (rest : List Byte)
  /-- A Wait or Callback whose payload is cut off (R86). -/
  | truncated
  /-- A tag 0x0C..0xFF (R87). -/
  | reservedTag
  /-- There is no byte to decode. -/
  | noBytes
  deriving DecidableEq, Repr

/-- The payload of a Wait (R82). -/
def decodeWait (p : Params) (payload : List Byte) : Decoded :=
  if payload.length < p.waitBytes then .truncated
  else .instr (.wait (leValue (payload.take p.waitBytes))) (payload.drop p.waitBytes)

/-- The payload of a Callback: the handler id, then the context (R82). -/
def decodeCallback (p : Params) (payload : List Byte) : Decoded :=
  if payload.length < p.handlerBytes + p.contextBytes then .truncated
  else .instr
    (.callback (leValue (payload.take p.handlerBytes))
      (leValue ((payload.drop p.handlerBytes).take p.contextBytes)))
    (payload.drop (p.handlerBytes + p.contextBytes))

/-- The instruction at the head of a byte string, by the tag table of R81. -/
def decode (p : Params) : List Byte → Decoded
  | [] => .noBytes
  | tag :: rest =>
    match tag.toNat with
    | 0x00 => .instr .reset rest
    | 0x01 => .instr .w0 rest
    | 0x02 => .instr .w1 rest
    | 0x03 => .instr .pw0 rest
    | 0x04 => .instr .pw1 rest
    | 0x05 => .instr .read rest
    | 0x06 => .instr .srchf rest
    | 0x07 => .instr .srchn rest
    | 0x08 => .instr .power rest
    | 0x09 => .instr .unpower rest
    | 0x0A => decodeWait p rest
    | 0x0B => decodeCallback p rest
    | _ => .reservedTag

/-- The bytes of an instruction, tag first (R80, R81, R124, R125). -/
def encode (p : Params) : Instr → List Byte
  | .reset => [0x00]
  | .w0 => [0x01]
  | .w1 => [0x02]
  | .pw0 => [0x03]
  | .pw1 => [0x04]
  | .read => [0x05]
  | .srchf => [0x06]
  | .srchn => [0x07]
  | .power => [0x08]
  | .unpower => [0x09]
  | .wait dur => 0x0A :: leBytes p.waitBytes dur
  | .callback h c => 0x0B :: (leBytes p.handlerBytes h ++ leBytes p.contextBytes c)

/-- The encoded length of an instruction (R80). -/
def encodedLength (p : Params) : Instr → Nat
  | .wait _ => 1 + p.waitBytes
  | .callback _ _ => 1 + p.handlerBytes + p.contextBytes
  | .reset => 1
  | .w0 => 1
  | .w1 => 1
  | .pw0 => 1
  | .pw1 => 1
  | .read => 1
  | .srchf => 1
  | .srchn => 1
  | .power => 1
  | .unpower => 1

/-- The queue bytes of an opcode-table word of `nbits` bits: bit 0 is the least significant bit of the
first byte, the bits above `nbits` are 0, up to the longest instruction. -/
def tableBytes (p : Params) (nbits w : Nat) : List Byte :=
  leBytes (maxLength p) (w % 2 ^ nbits)

/-- The instruction the decoder reads from an opcode-table word, with R7's default parameters. -/
def decodeTableWord (nbits w : Nat) : Option Instr :=
  match decode Params.default (tableBytes Params.default nbits w) with
  | .instr i _ => some i
  | .truncated => none
  | .reservedTag => none
  | .noBytes => none

end Sys2Proof
end

