-- ==== Sys2Proof/Machine/State.lean ====
section
/-! DEFINITION. The state of one block (10_state.md R20 to R51), its inputs and outputs, the reasons a step stops, and
reset (R55). -/

namespace Sys2Proof.Machine

/-! ### The block's own types -/

/-- The bytes written to a byte-addressed memory: (address, byte) pairs, addresses strictly rising. An
unlisted address is one not written yet: no value is known of it (log 9, log 10), so a write never removes an entry. -/
abbrev Memory := List Host.Cell

/-- The canonical form of a memory. -/
abbrev Memory.wf (m : Memory) : Prop := m.Pairwise (fun a b => a.1 < b.1)

/-- `q.st` (R25). -/
inductive TxState where
  | idle
  | building
  | executing
  deriving DecidableEq, Repr

/-- `q.res_status` (R28). `error` is the NoDevices outcome. -/
inductive ResultStatus where
  | notFound
  | found
  | error
  deriving DecidableEq, Repr

/-- `pin.drive` (R37). -/
inductive Drive where
  | released
  | low
  | high
  deriving DecidableEq, Repr

/-- `p.rst_phase` (R32). -/
inductive RstPhase where
  | phase0
  | phase1
  | phase2
  deriving DecidableEq, Repr

/-- `s.phase` (R38). -/
inductive SearchPhase where
  | sIdle
  | sReset
  | sCmd
  | sReadId
  | sReadCmp
  | sWriteDir
  deriving DecidableEq, Repr

/-- The reasons of the sticky fault mark `m.fault` (R50). -/
inductive FaultReason where
  | illegalTag
  deriving DecidableEq, Repr

/-- `d.instr` (R31): a decoded instruction, or `Nop`, the form of a truncated one (R155). -/
inductive InFlight where
  | instr (i : Instr)
  | nop
  deriving DecidableEq, Repr

/-- The instruction kind a `Finished` event carries (R163). -/
inductive Kind where
  | reset
  | write0
  | write1
  | powerWrite0
  | powerWrite1
  | read
  | searchFirst
  | searchNext
  | power
  | unpower
  | wait
  | callback
  | nop
  deriving DecidableEq, Repr

/-! ### Host operations, their results, and what the block emits -/

/-- The error codes of R270. `noDevices` is reported through `q.res_status`, never returned (R272). -/
inductive ErrorCode where
  | ok
  | wrongState
  | bufferFull
  | noDevices
  deriving DecidableEq, Repr

/-- A call the host may make (R110). -/
inductive HostOp where
  | begin
  | beginTransaction
  | reset
  | writeBit (v : Nat)
  | writeBitWithPower (v : Nat)
  | readBit
  | writeBytes (data : List Byte) (powerLastBit : Bool)
  | readBytes (count dest : Nat)
  | searchFirst
  | searchNext
  | power
  | unpower
  | wait (dur : Nat)
  | registerCallback (h c : Nat)
  | commit
  | inProgress
  /-- `handle()` called when the clock shows `time`, in true microseconds (R150, R283). -/
  | handle (time : Nat)
  | getData
  /-- `out` is the host's buffer before the call (R63, R132). -/
  | getLastSearchResult (out : Rom)
  | crc8 (bytes : List Byte) (length : Nat)
  deriving DecidableEq, Repr

/-- What a host operation returns (R11). -/
inductive HostResult where
  /-- `Ok` or an error code (R270). -/
  | code (e : ErrorCode)
  /-- `HIdle` (R150). -/
  | hIdle
  /-- `HBusy` (R150). -/
  | hBusy
  /-- The answer of `inProgress()` (R130). -/
  | bool (b : Bool)
  /-- The answer of `getData()` and `crc8` (R131, R286). -/
  | byte (v : Byte)
  /-- The answer of `getLastSearchResult`: the status, and the host's buffer after the call (R132). -/
  | search (status : ResultStatus) (out : Rom)
  deriving DecidableEq, Repr

/-- The bus actions of R9 and R282. -/
inductive BusAction where
  | driveLow
  | driveHigh
  | release
  /-- An in-call busy wait, in microseconds. -/
  | delay (t : Nat)
  /-- A sample and the level it read: `true` is 1, high. -/
  | sample (level : Bool)
  deriving DecidableEq, Repr

/-- One output of the block, in the order it happens (R10). -/
inductive Output where
  | bus (a : BusAction)
  /-- `HostCallback(h, c)` (R184). -/
  | hostCallback (h c : Nat)
  /-- `Finished(k)` (R163). -/
  | finished (k : Kind)
  /-- A host operation returned. -/
  | returned (r : HostResult)
  deriving DecidableEq, Repr

/-! ### The bus environment -/

/-- A device of the bus model of 43_search.md R234: its ROM code, and whether it is in alarm. -/
structure Device where
  rom : Rom
  alarm : Bool
  deriving DecidableEq, Repr

/-- What the devices expect next within one bit position of a search (R234). -/
inductive BitSlot where
  | idBit
  | cmpBit
  | dirBit
  deriving DecidableEq, Repr

/-- Where the devices of R234 stand in the protocol. -/
inductive BusPhase where
  /-- Outside a reset and a search: reads get the listed replies. -/
  | quiet
  /-- A reset pulse has ended: every device answers the presence sample. -/
  | presence
  /-- After a reset: the command bits received so far, first bit first. -/
  | command (bits : List Bool)
  /-- In a search, at bit position `pos` (1 to 64). -/
  | search (pos : Nat) (slot : BitSlot)
  deriving DecidableEq, Repr

/-- The device side of the bus (R234). `replies` are the bits the devices answer to reads outside a
search, first bit first; after them the line is high. -/
structure DeviceBus where
  devices : List Device
  /-- The devices that still take part in the search under way. -/
  active : List Device
  phase : BusPhase
  replies : List Bool
  deriving DecidableEq, Repr

/-- What answers `Sample()` (R282): a list of answers to come, and free values after its end
(I13, log 3); or the devices of R234 (log 4). In a script `true` is "no device pulls the line low". -/
inductive BusEnv where
  | script (answers : List Bool)
  | devices (b : DeviceBus)
  deriving DecidableEq, Repr

/-! ### State -/

/-- The queue group `q` (R21 to R29). -/
structure Queue where
  /-- `q.buf`, the address space QBUF (R21, R61). -/
  buf : Memory
  wr : Nat
  rd : Nat
  /-- `q.end` (R24). -/
  qend : Nat
  st : TxState
  presence : Bool
  acc : Byte
  resStatus : ResultStatus
  resAddr : Rom
  deriving DecidableEq, Repr

/-- The in-flight slot `d` (R30, R31). -/
structure Flight where
  busy : Bool
  instr : InFlight
  deriving DecidableEq, Repr

/-- The timing primitives' registers `p` (R32 to R36). -/
structure Prims where
  rstPhase : RstPhase
  rstT0 : Nat
  rstT1 : Nat
  waitStarted : Bool
  waitT0 : Nat
  deriving DecidableEq, Repr

/-- The search state `s` (R38 to R49). -/
structure Search where
  phase : SearchPhase
  rom : Rom
  ld : Nat
  lfd : Nat
  lastDevice : Bool
  bitPos : Nat
  byteIdx : Nat
  mask : Byte
  lastZero : Nat
  cmdI : Nat
  idBit : Bool
  dir : Bool
  deriving DecidableEq, Repr

/-- The bookkeeping group `m` (R50, R51). -/
structure Book where
  fault : Option FaultReason
  begun : Bool
  deriving DecidableEq, Repr

/-- The host memory DEST (R62), and the addresses of it the host has not provided (R288). -/
structure Dest where
  mem : Memory
  unprovided : List Nat
  deriving DecidableEq, Repr

/-- The inputs: no part of the block (R20). -/
structure Env where
  /-- The clock at the last read, in true microseconds (R283, log 2). -/
  time : Nat
  /-- What answers `Sample()` (log 3, log 4). -/
  bus : BusEnv
  /-- The host's calls to come; with none left the host polls (log 1). -/
  calls : List HostOp
  /-- What each coming run of a callback handler does (log 5). -/
  handlers : List (List HostOp)
  /-- What each coming run of the instruction-finished hook does (log 6). -/
  hooks : List (List HostOp)
  /-- The model's own counter: how many free values have been drawn (log 3). -/
  free : Nat
  deriving DecidableEq, Repr

/-- The state: the block's groups `(q, d, p, pin, s, m)` (R20), its parameters, the host memory it
writes, its inputs, and what it has emitted. -/
structure State where
  cfg : Params
  q : Queue
  d : Flight
  p : Prims
  /-- `pin.drive` (R37). -/
  pin : Drive
  srch : Search
  m : Book
  dest : Dest
  env : Env
  /-- Everything emitted so far, oldest first (R9, R10, log 11). -/
  out : List Output
  deriving DecidableEq, Repr

/-- Reasons the machine stops with a fault. The block's own fault, IllegalTag, is none of them: it is
state, `m.fault` (R156). -/
inductive Fault where
  /-- `copy`: a context outside the DEST address space (R62), which no decoded instruction has. Safe. -/
  | destAddressOutsideSpace
  deriving DecidableEq, Repr

/-- Reasons the machine gives no transition. All but the first are host-duty violations of R288. -/
inductive Refusal where
  /-- `exec`: the instruction has no meaning yet. Safe. -/
  | notModelled (mnemonic : String)
  /-- `hostCall`, `handleCall`: an operation other than begin and crc8 before `begin()` (R112, I8). Safe. -/
  | notBegun
  /-- `opBegin`: a second `begin()` (R111, I8). Safe. -/
  | secondBegin
  /-- `hostCall`: `handle()` called from a handler or the hook (R134, R296, I1). Safe. -/
  | reentrantHandle
  /-- `opWait`, `opRegisterCallback`, `opReadBytes`: an operand that does not fit its field
  (R124, R125, R127, I15). Safe. -/
  | operandTooWide
  /-- `handleCall`: a clock that goes backwards (R283, I9). Safe. -/
  | clockWentBackwards
  /-- `copy`: a DEST byte the host has not provided (R62, I14). Safe. -/
  | destNotProvided
  /-- `opCrc8`: more bytes asked for than the host's array has (R286, log 23). Safe. -/
  | hostBytesMissing
  deriving DecidableEq, Repr

/-! ### Reset -/

/-- The queue group at reset (R55). What `q.buf` holds is unspecified: nothing is listed, so each byte is
a free value (`queueByte`, log 9). -/
def Queue.reset (cfg : Params) : Queue :=
  { buf := [], wr := 0, rd := 0, qend := cfg.cap, st := .idle, presence := false, acc := 0,
    resStatus := .notFound, resAddr := Rom.zero }

/-- The in-flight slot at reset (R55). `d.instr` is unspecified: DESIGN CHOICE, log 8. -/
def Flight.reset : Flight := { busy := false, instr := .nop }

/-- The timing registers at reset (R55). The timestamps are unspecified: DESIGN CHOICE, log 8. -/
def Prims.reset : Prims :=
  { rstPhase := .phase0, rstT0 := 0, rstT1 := 0, waitStarted := false, waitT0 := 0 }

/-- Every search field at its reset value (R55). -/
def Search.reset : Search :=
  { phase := .sIdle, rom := Rom.zero, ld := 0, lfd := 0, lastDevice := false, bitPos := 1,
    byteIdx := 0, mask := 0x01, lastZero := 0, cmdI := 0, idBit := false, dir := false }

/-- What `begin()` does to the block's own fields: each at its value of R55 (R111). The parameters,
the host's memory, the inputs and the outputs are not the block's. -/
def State.blockReset (s : State) : State :=
  { s with
    q := Queue.reset s.cfg
    d := Flight.reset
    p := Prims.reset
    pin := .released
    srch := Search.reset
    m := { fault := none, begun := true } }

/-- The inputs before anything is said about them (log 1 to log 6). -/
def Env.silent : Env :=
  { time := 0, bus := .script [], calls := [], handlers := [], hooks := [], free := 0 }

/-- A block at construction with parameters `cfg`, before `begin()`. Of its fields the spec gives only
`m.begun = false` (R51, N17). DESIGN CHOICE, log 24: every other field, the pin included, already has its value of
R55; no operation but begin and crc8 runs before `begin()` sets them all (R111, R112). -/
def State.constructed (cfg : Params) : State :=
  { cfg := cfg
    q := Queue.reset cfg
    d := Flight.reset
    p := Prims.reset
    pin := .released
    srch := Search.reset
    m := { fault := none, begun := false }
    dest := { mem := [], unprovided := [] }
    env := Env.silent
    out := [] }

/-- The state right after `begin()` on a block of R7's default parameters (R55, R290): `begin()`
released the pin and returned (R111). -/
def State.reset : State :=
  { State.blockReset (State.constructed Params.default) with
    out := [.bus .release, .returned (.code .ok)] }

end Sys2Proof.Machine
end

