-- ==== Sys2Proof/Machine/Ops.lean ====
section
/-! DEFINITION. The named operations over memory, pin, clock and outputs that every meaning is built from. -/

namespace Sys2Proof.Machine

/-- What a step answers. -/
abbrev Result := Host.Outcome State Fault Refusal

/-- Go on from a next state; a fault or a refusal ends the step. -/
def andThen (r : Result) (f : State → Result) : Result :=
  match r with
  | .next s => f s
  | .fault e => .fault e
  | .refused e => .refused e

/-! ### Memory (20_memory.md R61, R62, R67) -/

/-- One byte, if the address has a value. -/
def memRead : Memory → Nat → Option Byte
  | [], _ => none
  | (k, b) :: m, a => if k = a then some b else memRead m a

/-- Store one byte, keeping the addresses rising. -/
def memWrite : Memory → Nat → Byte → Memory
  | [], a, v => [(a, v)]
  | (k, b) :: m, a, v =>
    if a < k then (a, v) :: (k, b) :: m
    else if a = k then (a, v) :: m
    else (k, b) :: memWrite m a v

/-- Store bytes at rising addresses from `a` on: `bytes[0]` at `a` (R114). -/
def memWriteBytes (m : Memory) (a : Nat) : List Byte → Memory
  | [] => m
  | b :: bs => memWriteBytes (memWrite m a b) (a + 1) bs

/-- `q.buf[a]`: the byte written there, else a free value, as every address holds a byte (R61, I5, log 9). -/
def queueByte (m : Memory) (a : Nat) : Byte := (memRead m a).getD (Config.freeQueueByte a)

/-- `MemRead(QBUF, a, n)`: the `n` queue bytes from `a` on (R61). -/
def queueRun (m : Memory) (a : Nat) : Nat → List Byte
  | 0 => []
  | n + 1 => queueByte m a :: queueRun m (a + 1) n

/-! ### Outputs (R9, R10) -/

/-- Emit one output. -/
def emit (o : Output) (s : State) : State := { s with out := s.out ++ [o] }

/-- A host operation returns `r` (R11). -/
def answer (r : HostResult) (s : State) : Result := .next (emit (.returned r) s)

/-! ### Pin (R37, R282) -/

/-- `DriveLow` -/
def driveLow (s : State) : State := emit (.bus .driveLow) { s with pin := .low }

/-- `DriveHigh` -/
def driveHigh (s : State) : State := emit (.bus .driveHigh) { s with pin := .high }

/-- `Release` -/
def release (s : State) : State := emit (.bus .release) { s with pin := .released }

/-- `Delay(t)`: an output; it does not move the clock the next call reads (D37, log 2). -/
def delay (t : Nat) (s : State) : State := emit (.bus (.delay t)) s

/-! ### Clock (R171, R280, R283) -/

/-- `now`: the clock value of this call, `CLOCK_BITS` wide. -/
def now (s : State) : Nat := s.env.time % 2 ^ s.cfg.clockBits

/-- `Elapsed(now, t) = (now - t) mod 2^CLOCK_BITS` (R171). -/
def elapsed (p : Params) (now t : Nat) : Nat :=
  (now + (2 ^ p.clockBits - t % 2 ^ p.clockBits)) % 2 ^ p.clockBits

/-! ### Completion, and the one fault -/

/-- The in-flight instruction is complete: `Finished(k)`, and the slot is cleared (R158, R163). -/
def complete (k : Kind) (s : State) : State :=
  emit (.finished k) { s with d.busy := false }

/-- A primitive's step has run: retire the instruction if it is done, else leave it in flight (R150, R170). -/
def retireIf (k : Kind) (r : State × Bool) : Result :=
  .next (if r.2 then complete k r.1 else r.1)

/-- Taking the block's one fault (R156): the sticky mark is set and nothing else changes. There is no
saved state, no handler and no return (R273, R274); DEDUCED, log 20. -/
def raiseIllegalTag (s : State) : State := { s with m.fault := some .illegalTag }

end Sys2Proof.Machine
end

