-- ==== Sys2Proof/Machine/Flags.lean ====
section
/-! DEFINITION. The status values: presence, exhausted, result status, accumulator, and the encodings of R25, R28 and
R270. The block has no condition codes (10_state.md R53). -/

namespace Sys2Proof.Machine

/-- The presence flag after a sample: the line was low (R172, R190). -/
def presenceOf (level : Bool) : Bool := !level

/-- The level of the open-drain line: low if the block drives low or a device pulls low (R13, R37).
Against a block that drives high a device still wins: DESIGN CHOICE, log 19; no rule samples then. -/
def lineLevel (drive : Drive) (devicesLeaveHigh : Bool) : Bool :=
  match drive with
  | .low => false
  | .released => devicesLeaveHigh
  | .high => devicesLeaveHigh

/-- The accumulator after a Read: shifted right, the bit at the top (R180). -/
def foldBit (acc : Byte) (b : Bool) : Byte := (acc >>> 1) ||| (if b then 0x80 else 0x00)

/-- The exhausted flag after a complete pass: set when no discrepancy remains, else as it was (R231). -/
def exhaustedAfter (lastDevice : Bool) (lastZero : Nat) : Bool := lastDevice || lastZero == 0

/-- The encoding of `q.st` (R25). -/
def txStateCode : TxState → Nat
  | .idle => 0
  | .building => 1
  | .executing => 2

/-- The encoding of `q.res_status` (R28). -/
def resultStatusCode : ResultStatus → Nat
  | .notFound => 0
  | .found => 1
  | .error => 2

/-- The encoding of the error codes (R270). -/
def errorCodeValue : ErrorCode → Nat
  | .ok => 0
  | .wrongState => 1
  | .bufferFull => 2
  | .noDevices => 3

end Sys2Proof.Machine
end

