-- ==== Sys2Proof/Machine/Operands.lean ====
section
/-! DEFINITION. Operand forms: instruction kinds, appender arguments, and the bit cursors over a ROM code. -/

namespace Sys2Proof.Machine

/-- The kind of an instruction, as `Finished` reports it (R163). -/
def kindOf : Instr → Kind
  | .reset => .reset
  | .w0 => .write0
  | .w1 => .write1
  | .pw0 => .powerWrite0
  | .pw1 => .powerWrite1
  | .read => .read
  | .srchf => .searchFirst
  | .srchn => .searchNext
  | .power => .power
  | .unpower => .unpower
  | .wait _ => .wait
  | .callback _ _ => .callback

/-- The instruction `writeBit(v)` appends: any non-zero value counts as 1 (R91, R117). -/
def writeBitInstr (v : Nat) : Instr := if v = 0 then .w0 else .w1

/-- The instruction `writeBitWithPower(v)` appends (R91, R118). -/
def powerBitInstr (v : Nat) : Instr := if v = 0 then .pw0 else .pw1

/-- The bits of a byte, least significant first (R65). -/
def byteBits (b : Byte) : List Bool := (List.range 8).map b.getLsbD

/-- The bit writes of a byte (R89). -/
def byteInstrs (b : Byte) : List Instr := (byteBits b).map (fun x => writeBitInstr x.toNat)

/-- The bit writes of a byte whose last bit is the power variant (R89). -/
def powerByteInstrs (b : Byte) : List Instr :=
  ((byteBits b).take 7).map (fun x => writeBitInstr x.toNat) ++ [powerBitInstr (b.getLsbD 7).toNat]

/-- The expansion of `writeBytes(data, powerLastBit)`, WRITEBYTES and WRITEBYTESP (R89, R126). -/
def writeBytesInstrs (powerLastBit : Bool) : List Byte → List Instr
  | [] => []
  | [b] => if powerLastBit then powerByteInstrs b else byteInstrs b
  | b :: c :: bs => byteInstrs b ++ writeBytesInstrs powerLastBit (c :: bs)

/-- The expansion of `readBytes(count, dest)`, READBYTES: eight Reads, then COPY to `dest + j`
(R90, R127). -/
def readBytesInstrs : Nat → Nat → List Instr
  | 0, _ => []
  | n + 1, dest => List.replicate 8 .read ++ .callback 0 dest :: readBytesInstrs n (dest + 1)

/-- Byte `i` of a ROM code. Outside 0..7 (no reachable state: R54) the value is 0: DESIGN CHOICE, log 14. -/
def romByte (r : Rom) (i : Nat) : Byte := r.toList.getD i 0

/-- `s.rom[i] <- b`. Outside 0..7 nothing is written: DESIGN CHOICE, log 14. -/
def romSetByte (r : Rom) (i : Nat) (b : Byte) : Rom := r.setIfInBounds i b

/-- Bit position `n` (1 to 64) of a ROM code: bit `(n-1) mod 8` of byte `(n-1) div 8` (R66). -/
def romBit (r : Rom) (n : Nat) : Bool := (romByte r ((n - 1) / 8)).getLsbD ((n - 1) % 8)

/-- Whether the bit under the cursors is set: `(s.rom[s.byte_idx] & s.mask) != 0` (R228). -/
def cursorBit (r : Rom) (byteIdx : Nat) (mask : Byte) : Bool := romByte r byteIdx &&& mask != 0

/-- Set or clear the bit under the cursors (R230). -/
def setCursorBit (r : Rom) (byteIdx : Nat) (mask : Byte) (b : Bool) : Rom :=
  romSetByte r byteIdx (if b then romByte r byteIdx ||| mask else romByte r byteIdx &&& ~~~mask)

/-- One step of CRC-8/MAXIM: `c` shifted out one bit against the low bit of `v` (R286). -/
def crcBit (c v : Byte) : Byte :=
  if (c ^^^ v) &&& 1 = 1 then (c >>> 1) ^^^ 0x8C else c >>> 1

/-- `n` bits of `v`, least significant first, into the CRC (R286). -/
def crcBits : Nat → Byte → Byte → Byte
  | 0, c, _ => c
  | n + 1, c, v => crcBits n (crcBit c v) (v >>> 1)

/-- `crc8` of a byte string, from 0 (R286). -/
def crc8 (bytes : List Byte) : Byte := bytes.foldl (crcBits 8) 0

end Sys2Proof.Machine
end

