-- ==== Sys2Proof/Machine/Builder.lean ====
section
/-! DEFINITION. The host operations other than `handle()` (40_builder.md R110 to R135, 60_exceptions.md R286). -/

namespace Sys2Proof.Machine

/-! ### begin, the transaction bracket -/

/-- `begin()` (R111): once; every field at its reset value, the pin released. -/
def opBegin (s : State) : Result :=
  if s.m.begun then .refused .secondBegin else answer (.code .ok) (release s.blockReset)

/-- `beginTransaction()` (R113, R50). It leaves `q.buf`, `q.acc`, the result slot and the search alone. -/
def opBeginTransaction (s : State) : Result :=
  if s.m.fault.isSome || s.q.st != .idle then answer (.code .wrongState) s
  else answer (.code .ok)
    { s with q.wr := 0, q.rd := 0, q.presence := false, q.st := .building, d.busy := false }

/-- `commit()` (R129, R50). -/
def opCommit (s : State) : Result :=
  if s.m.fault.isSome || s.q.st != .building then answer (.code .wrongState) s
  else answer (.code .ok) { s with q.st := .executing }

/-! ### Appenders -/

/-- Whether an append is in the wrong state: not Building (R114), or a faulted block (R50). The
state is checked before the room (R115). -/
def cannotAppend (s : State) : Bool := s.m.fault.isSome || s.q.st != .building

/-- `Append(bytes)` (R114). -/
def appendBytes (bytes : List Byte) (s : State) : State × ErrorCode :=
  if cannotAppend s then (s, .wrongState)
  else if s.q.qend < s.q.wr + bytes.length then (s, .bufferFull)
  else ({ s with q.buf := memWriteBytes s.q.buf s.q.wr bytes, q.wr := s.q.wr + bytes.length }, .ok)

/-- Append one instruction (R116 to R125). -/
def appendInstr (i : Instr) (s : State) : State × ErrorCode := appendBytes (encode s.cfg i) s

/-- Append instructions in order, stopping at the first failure; what was appended stays (R126, R127,
D21). With nothing to append the state is still checked (D31). -/
def appendSeq : List Instr → State → State × ErrorCode
  | [], s => (s, if cannotAppend s then .wrongState else .ok)
  | i :: is, s =>
    match appendInstr i s with
    | (t, .ok) => appendSeq is t
    | (t, e) => (t, e)

/-- Return an appender's state and code to the host. -/
def answerCode (r : State × ErrorCode) : Result := answer (.code r.2) r.1

/-- `reset()` (R116). -/
def opReset (s : State) : Result := answerCode (appendInstr .reset s)

/-- `writeBit(v)` (R117). -/
def opWriteBit (v : Nat) (s : State) : Result := answerCode (appendInstr (writeBitInstr v) s)

/-- `writeBitWithPower(v)` (R118). -/
def opWriteBitWithPower (v : Nat) (s : State) : Result :=
  answerCode (appendInstr (powerBitInstr v) s)

/-- `readBit()` (R119). -/
def opReadBit (s : State) : Result := answerCode (appendInstr .read s)

/-- `searchFirst()` (R120). -/
def opSearchFirst (s : State) : Result := answerCode (appendInstr .srchf s)

/-- `searchNext()` (R121). -/
def opSearchNext (s : State) : Result := answerCode (appendInstr .srchn s)

/-- `power()` (R122). -/
def opPower (s : State) : Result := answerCode (appendInstr .power s)

/-- `unpower()` (R123). -/
def opUnpower (s : State) : Result := answerCode (appendInstr .unpower s)

/-- `wait(dur)` (R124); a duration that does not fit is refused, never truncated (I15). -/
def opWait (dur : Nat) (s : State) : Result :=
  if Instr.wellFormed s.cfg (.wait dur) then answerCode (appendInstr (.wait dur) s)
  else .refused .operandTooWide

/-- `registerCallback(h, c)` (R125); operands that do not fit are refused (I15). -/
def opRegisterCallback (h c : Nat) (s : State) : Result :=
  if Instr.wellFormed s.cfg (.callback h c) then answerCode (appendInstr (.callback h c) s)
  else .refused .operandTooWide

/-- `writeBytes(data, powerLastBit)` (R126). -/
def opWriteBytes (data : List Byte) (powerLastBit : Bool) (s : State) : Result :=
  answerCode (appendSeq (writeBytesInstrs powerLastBit data) s)

/-- Whether the destination bytes of `readBytes` fit DEST: `dest + count - 1 < 2^(8*CONTEXT_BYTES)`;
nothing is asked of an empty read (R127). -/
def readBytesFits (p : Params) (count dest : Nat) : Bool :=
  count == 0 || decide (dest + count ≤ 2 ^ (8 * p.contextBytes))

/-- `readBytes(count, dest)` (R127). -/
def opReadBytes (count dest : Nat) (s : State) : Result :=
  if readBytesFits s.cfg count dest then answerCode (appendSeq (readBytesInstrs count dest) s)
  else .refused .operandTooWide

/-! ### Queries -/

/-- `inProgress()` (R130). -/
def opInProgress (s : State) : Result := answer (.bool (s.q.st != .idle)) s

/-- `getData()`: the accumulator, which it clears (R131). -/
def opGetData (s : State) : Result := answer (.byte s.q.acc) { s with q.acc := 0 }

/-- The host's buffer after `getLastSearchResult(out)`: written only when the status is Found (R132). -/
def searchResultOut (q : Queue) (out : Rom) : Rom :=
  match q.resStatus with
  | .found => q.resAddr
  | .notFound => out
  | .error => out

/-- `getLastSearchResult(out)` (R132). -/
def opGetLastSearchResult (out : Rom) (s : State) : Result :=
  answer (.search s.q.resStatus (searchResultOut s.q out)) s

/-- `crc8(bytes, length)`: of the first `length` bytes of the host's array (R286, log 23). -/
def opCrc8 (bytes : List Byte) (length : Nat) (s : State) : Result :=
  if bytes.length < length then .refused .hostBytesMissing
  else answer (.byte (crc8 (bytes.take length))) s

/-! ### One call, and a run of calls from inside `handle()` -/

/-- Operations that are defined before `begin()` (R112). -/
def needsBegun : HostOp → Bool
  | .begin => false
  | .crc8 _ _ => false
  | .beginTransaction => true
  | .reset => true
  | .writeBit _ => true
  | .writeBitWithPower _ => true
  | .readBit => true
  | .writeBytes _ _ => true
  | .readBytes _ _ => true
  | .searchFirst => true
  | .searchNext => true
  | .power => true
  | .unpower => true
  | .wait _ => true
  | .registerCallback _ _ => true
  | .commit => true
  | .inProgress => true
  | .handle _ => true
  | .getData => true
  | .getLastSearchResult _ => true

/-- The effect of a host operation on a block that has begun, or that may run before. `handle()` is
not among them: reached from here it is a re-entrant call (R134, R296). -/
def hostOpEffect (op : HostOp) (s : State) : Result :=
  match op with
  | .begin => opBegin s
  | .beginTransaction => opBeginTransaction s
  | .reset => opReset s
  | .writeBit v => opWriteBit v s
  | .writeBitWithPower v => opWriteBitWithPower v s
  | .readBit => opReadBit s
  | .writeBytes data powerLastBit => opWriteBytes data powerLastBit s
  | .readBytes count dest => opReadBytes count dest s
  | .searchFirst => opSearchFirst s
  | .searchNext => opSearchNext s
  | .power => opPower s
  | .unpower => opUnpower s
  | .wait dur => opWait dur s
  | .registerCallback h c => opRegisterCallback h c s
  | .commit => opCommit s
  | .inProgress => opInProgress s
  | .handle _ => .refused .reentrantHandle
  | .getData => opGetData s
  | .getLastSearchResult out => opGetLastSearchResult out s
  | .crc8 bytes length => opCrc8 bytes length s

/-- A host operation other than a top-level `handle()` (R110, R112). -/
def hostCall (op : HostOp) (s : State) : Result :=
  if needsBegun op && !s.m.begun then .refused .notBegun else hostOpEffect op s

/-- The operations a handler or the hook performs, in order, inside a `handle()` call (R134). -/
def runNested : List HostOp → State → Result
  | [], s => .next s
  | op :: ops, s => andThen (hostCall op s) (runNested ops)

end Sys2Proof.Machine
end

