-- ==== Sys2Proof/Machine/Delays.lean ====
section
/-! DEFINITION. Wait, Callback, COPY and Nop (42_bus_primitives.md R183 to R186). -/

namespace Sys2Proof.Machine

/-- One step of Wait: the first records the start, the later ones test it; the Boolean is `true` when
the wait is over (R183, D5). -/
def waitStep (dur : Nat) (s : State) : State × Bool :=
  if s.p.waitStarted then
    if dur ≤ elapsed s.cfg (now s) s.p.waitT0 then ({ s with p.waitStarted := false }, true)
    else (s, false)
  else ({ s with p.waitT0 := now s, p.waitStarted := true }, false)

/-- Wait(dur) (R183). -/
def execWait (dur : Nat) (s : State) : Result := retireIf .wait (waitStep dur s)

/-- `Copy(c)`, the COPY handler: `DEST[c] <- q.acc`, `q.acc` unchanged (R185). A byte the host has not
provided is refused (I14). -/
def copy (c : Nat) (s : State) : Result :=
  if 2 ^ (8 * s.cfg.contextBytes) ≤ c then .fault .destAddressOutsideSpace
  else if s.dest.unprovided.contains c then .refused .destNotProvided
  else .next { s with dest.mem := memWrite s.dest.mem c s.q.acc }

/-- A handler whose operations are not listed: whether it drains the accumulator is a free value; no
other effect on the block is open to it (I16, R134, log 5). -/
def freeHandler (s : State) : Result :=
  let t := { s with env.free := s.env.free + 1 }
  if Config.freeHandlerDrains s.env.free then opGetData t else .next t

/-- The host runs its table entry, synchronously (R184). -/
def runHandler (s : State) : Result :=
  match s.env.handlers with
  | ops :: rest => runNested ops { s with env.handlers := rest }
  | [] => freeHandler s

/-- The step of Callback(h, c): COPY for handler 0, else the event and the host's handler (R184). -/
def callbackStep (h c : Nat) (s : State) : Result :=
  if h = 0 then copy c s else runHandler (emit (.hostCallback h c) s)

/-- Callback(h, c) (R184): complete in one step. -/
def execCallback (h c : Nat) (s : State) : Result :=
  andThen (callbackStep h c s) (fun t => .next (complete .callback t))

/-- Nop, the decoded form of a truncated instruction (R186). -/
def execNop (s : State) : Result := retireIf .nop (s, true)

end Sys2Proof.Machine
end

