-- ==== Sys2Proof/Machine/Bus.lean ====
section
/-! DEFINITION. The bus environment (R282, 43_search.md R234) and the bus primitives every instruction shares:
`Sample`, `WriteSlot`, `ReadSlot`, `ResetStep` (42_bus_primitives.md R172, R174, R179). -/

namespace Sys2Proof.Machine

/-! ### The devices of R234 (log 4) -/

/-- A reset pulse ended: every device is back at its start. -/
def devicesReset (b : DeviceBus) : DeviceBus := { b with active := [], phase := .presence }

/-- A read outside a search: the next listed reply, high when there is none. -/
def devicesReply (b : DeviceBus) : Bool × DeviceBus :=
  match b.replies with
  | [] => (true, b)
  | r :: rs => (r, { b with replies := rs })

/-- What the devices leave on the line at a sample (`true`: no device pulls low), and where they
stand after it: presence is a low; at a search bit each active device leaves its bit, then the
complement of its bit, and the line is the AND of them (R13, R234). -/
def devicesSample (b : DeviceBus) : Bool × DeviceBus :=
  match b.phase with
  | .presence => (b.devices.isEmpty, { b with phase := .command [] })
  | .search n .idBit =>
    (b.active.all (fun d => romBit d.rom n), { b with phase := .search n .cmpBit })
  | .search n .cmpBit =>
    (b.active.all (fun d => !romBit d.rom n), { b with phase := .search n .dirBit })
  | .search _ .dirBit => devicesReply b
  | .command _ => devicesReply b
  | .quiet => devicesReply b

/-- The eighth command bit is in: a search begins for every device, an alarm search for the devices
in alarm (R234), any other command ends the devices' part. -/
def devicesCommand (p : Params) (bits : List Bool) (b : DeviceBus) : DeviceBus :=
  if bits = byteBits p.cmdSearch then
    { b with active := b.devices, phase := .search 1 .idBit }
  else if bits = byteBits p.cmdAlarmSearch then
    { b with active := b.devices.filter (·.alarm), phase := .search 1 .idBit }
  else { b with active := [], phase := .quiet }

/-- The devices see a write slot of bit `x`: a command bit, or a direction bit, at which every active
device that differs drops out (R234). -/
def devicesWritten (p : Params) (x : Bool) (b : DeviceBus) : DeviceBus :=
  match b.phase with
  | .command bits =>
    if bits.length < 7 then { b with phase := .command (bits ++ [x]) }
    else devicesCommand p (bits ++ [x]) b
  | .search n .dirBit =>
    { b with
      active := b.active.filter (fun d => romBit d.rom n == x)
      phase := if n < 64 then .search (n + 1) .idBit else .quiet }
  | .search _ .idBit => b
  | .search _ .cmpBit => b
  | .presence => b
  | .quiet => b

/-! ### The environment at the pin -/

/-- The next answer of the bus environment, `true` when no device pulls low. After a script's end it
is a free value (I13, log 3). -/
def drawLevel (e : Env) : Bool × Env :=
  match e.bus with
  | .script (x :: xs) => (x, { e with bus := .script xs })
  | .script [] => (Config.freeSample e.free, { e with free := e.free + 1 })
  | .devices b => ((devicesSample b).1, { e with bus := .devices (devicesSample b).2 })

/-- The environment after the release that ends a reset pulse. -/
def busReset (e : Env) : Env :=
  match e.bus with
  | .script _ => e
  | .devices b => { e with bus := .devices (devicesReset b) }

/-- The environment after a write slot. -/
def busWritten (p : Params) (x : Bool) (e : Env) : Env :=
  match e.bus with
  | .script _ => e
  | .devices b => { e with bus := .devices (devicesWritten p x b) }

/-- `b <- Sample()`: the line level, the wired AND of the block and the devices (R13, R282). -/
def sample (s : State) : State × Bool :=
  let level := lineLevel s.pin (drawLevel s.env).1
  (emit (.bus (.sample level)) { s with env := (drawLevel s.env).2 }, level)

/-! ### Slots -/

/-- `WriteSlot(b, power)` (R174). -/
def writeSlot (b power : Bool) (s : State) : State :=
  let letGo := fun s => if power then driveHigh s else release s
  let done :=
    if b then delay s.cfg.tW1High (letGo (delay s.cfg.tW1Low (driveLow s)))
    else delay s.cfg.tW0High (letGo (delay s.cfg.tW0Low (driveLow s)))
  { done with env := busWritten s.cfg b done.env }

/-- `ReadSlot()` and the bit it returns (R179). -/
def readSlot (s : State) : State × Bool :=
  let r := sample (delay s.cfg.tRSample (release (delay s.cfg.tRLow (driveLow s))))
  (delay s.cfg.tRRest r.1, r.2)

/-! ### Reset -/

/-- Phase 0 of `ResetStep`: drive low and record the start (R172). -/
def resetStart (s : State) : State :=
  let t := driveLow s
  { t with p.rstT0 := now s, p.rstPhase := .phase1 }

/-- Phase 1 of `ResetStep`, its 480 µs over: release, record the second timestamp, settle, sample
the presence pulse (R172). -/
def resetRelease (s : State) : State :=
  let t := release s
  let t := { t with p.rstT1 := now s, env := busReset t.env }
  let r := sample (delay s.cfg.tRstSample t)
  { r.1 with q.presence := presenceOf r.2, p.rstPhase := .phase2 }

/-- `ResetStep(now)`: the three-phase reset primitive; the Boolean is `true` when it is complete (R172). -/
def resetStep (s : State) : State × Bool :=
  match s.p.rstPhase with
  | .phase0 => (resetStart s, false)
  | .phase1 =>
    if s.cfg.tRstLow ≤ elapsed s.cfg (now s) s.p.rstT0 then (resetRelease s, false) else (s, false)
  | .phase2 =>
    if s.cfg.tRstRec ≤ elapsed s.cfg (now s) s.p.rstT1 then
      ({ s with p.rstPhase := .phase0 }, true)
    else (s, false)

end Sys2Proof.Machine
end

