-- ==== Sys2Proof/Machine/Search.lean ====
section
/-! DEFINITION. The ROM-search engine, SearchFirst and SearchNext (43_search.md R220 to R233). -/

namespace Sys2Proof.Machine

/-- Step (0): a start scan clears the working address and the discrepancy state (R223). -/
def searchClear (s : State) : State :=
  { s with srch.rom := Rom.zero, srch.ld := 0, srch.lfd := 0, srch.lastDevice := false }

/-- What every pass begins with (R223, D34). R220 counts `s.id_bit` and `s.dir` among the cursors a pass
reinitialises, with no value; R223 and D34 do not list them. DESIGN CHOICE, log 25: they keep their old values, which no pass
reads before it writes them (R48, R49). -/
def searchInit (s : State) : State :=
  { s with
    srch.bitPos := 1, srch.byteIdx := 0, srch.mask := 0x01, srch.lastZero := 0, srch.cmdI := 0,
    srch.phase := .sReset }

/-- A search instruction ends with `status`, and no pass is in progress (R233). -/
def searchEnd (status : ResultStatus) (s : State) : State :=
  { s with q.resStatus := status, srch.phase := .sIdle }

/-- Phase `SReset`: the bus reset, and the abort with NoDevices when no device answers (R224). -/
def searchReset (s : State) : State × Bool :=
  let r := resetStep s
  if r.2 then
    if r.1.q.presence then ({ r.1 with srch.phase := .sCmd }, false)
    else (searchEnd .error r.1, true)
  else (r.1, false)

/-- Phase `SIdle`: the beginning of a pass, which goes on into `SReset` in the same call; or the end at
once of an exhausted scan (R223, D14). -/
def searchBegin (start : Bool) (s : State) : State × Bool :=
  if start then searchReset (searchInit (searchClear s))
  else if s.srch.lastDevice then ({ s with q.resStatus := .notFound }, true)
  else searchReset (searchInit s)

/-- The search command (R225, D16). -/
def searchCommand (p : Params) : Byte := if p.searchAlarm then p.cmdAlarmSearch else p.cmdSearch

/-- Phase `SCmd`: one command bit, least significant first (R225). -/
def searchCmd (s : State) : State × Bool :=
  let t := writeSlot ((searchCommand s.cfg).getLsbD s.srch.cmdI) false s
  ({ t with
     srch.cmdI := s.srch.cmdI + 1
     srch.phase := if s.srch.cmdI + 1 = 8 then .sReadId else s.srch.phase }, false)

/-- Phase `SReadId`: the bit (R226). -/
def searchReadId (s : State) : State × Bool :=
  let r := readSlot s
  ({ r.1 with srch.idBit := r.2, srch.phase := .sReadCmp }, false)

/-- The direction at a discrepancy: replay before the resume point, 1 at it, 0 beyond it (R228, C1). -/
def chooseDir (x : Search) : Bool :=
  if x.bitPos < x.ld then cursorBit x.rom x.byteIdx x.mask else x.bitPos == x.ld

/-- `RecordZero()` (R229). -/
def recordZero (x : Search) : Search :=
  { x with lastZero := x.bitPos, lfd := if x.bitPos ≤ 8 then x.bitPos else x.lfd }

/-- `s.dir <- Choose()`, recording a 0 (R228). -/
def choose (x : Search) : Search :=
  if chooseDir x then { x with dir := true } else { recordZero x with dir := false }

/-- Phase `SReadCmp`: the complement, and what the pair says: (1,1) nobody, unequal bits an agreed bit,
(0,0) a discrepancy (R227, C2). -/
def searchReadCmp (s : State) : State × Bool :=
  let r := readSlot s
  let t := r.1
  if s.srch.idBit && r.2 then (searchEnd .notFound t, true)
  else if s.srch.idBit != r.2 then
    ({ t with srch.dir := s.srch.idBit, srch.phase := .sWriteDir }, false)
  else ({ t with srch := { choose t.srch with phase := .sWriteDir } }, false)

/-- `Complete()`: promote the last zero, mark exhaustion, publish a non-zero family (R231). -/
def searchComplete (s : State) : State :=
  let t := { s with
    srch.ld := s.srch.lastZero
    srch.lastDevice := exhaustedAfter s.srch.lastDevice s.srch.lastZero }
  if romByte s.srch.rom 0 = 0 then searchEnd .notFound t
  else searchEnd .found { t with q.resAddr := s.srch.rom }

/-- The mask and byte cursors after a direction write: the mask shifts, and its wrap moves to the next
byte (R230). -/
def nextCursor (x : Search) : Search :=
  if x.mask <<< 1 = 0 then { x with bitPos := x.bitPos + 1, byteIdx := x.byteIdx + 1, mask := 0x01 }
  else { x with bitPos := x.bitPos + 1, mask := x.mask <<< 1 }

/-- Phase `SWriteDir`: store the direction, write it on the bus, move the cursors, and complete after
bit 64 (R230). -/
def searchWriteDir (s : State) : State × Bool :=
  let t := writeSlot s.srch.dir false
    { s with srch.rom := setCursorBit s.srch.rom s.srch.byteIdx s.srch.mask s.srch.dir }
  let u := { t with srch := nextCursor t.srch }
  if u.srch.byteIdx < 8 then ({ u with srch.phase := .sReadId }, false)
  else (searchComplete u, true)

/-- `SearchStep(now, start)`: at most one bus primitive; the Boolean is `true` when the instruction is
complete (R223 to R231). -/
def searchStep (start : Bool) (s : State) : State × Bool :=
  match s.srch.phase with
  | .sIdle => searchBegin start s
  | .sReset => searchReset s
  | .sCmd => searchCmd s
  | .sReadId => searchReadId s
  | .sReadCmp => searchReadCmp s
  | .sWriteDir => searchWriteDir s

/-- The slot's SearchFirst becomes SearchNext after its first step; `q.buf` is not rewritten (R160). -/
def retagSearch (s : State) : State := { s with d.instr := .instr .srchn }

/-- SearchFirst (R221): a start step, then the re-tag, so completion reports SearchNext (R163). -/
def execSrchf (s : State) : Result :=
  let r := searchStep true s
  retireIf .searchNext (retagSearch r.1, r.2)

/-- SearchNext (R222). -/
def execSrchn (s : State) : Result := retireIf .searchNext (searchStep false s)

end Sys2Proof.Machine
end

