-- ==== Sys2Proof/Machine/Slots.lean ====
section
/-! DEFINITION. Reset, the write slots, Read, Power and Unpower (42_bus_primitives.md R173 to R182). -/

namespace Sys2Proof.Machine

/-- Reset (R173): one step of the reset primitive; complete at the end of phase 2. -/
def execReset (s : State) : Result := retireIf .reset (resetStep s)

/-- Write0 (R175). -/
def execW0 (s : State) : Result := retireIf .write0 (writeSlot false false s, true)

/-- Write1 (R176). -/
def execW1 (s : State) : Result := retireIf .write1 (writeSlot true false s, true)

/-- PowerWrite0 (R177): also this variant ends driven high (C3). -/
def execPw0 (s : State) : Result := retireIf .powerWrite0 (writeSlot false true s, true)

/-- PowerWrite1 (R178). -/
def execPw1 (s : State) : Result := retireIf .powerWrite1 (writeSlot true true s, true)

/-- Read (R180): the sampled bit is folded into the accumulator. -/
def execRead (s : State) : Result :=
  let r := readSlot s
  retireIf .read ({ r.1 with q.acc := foldBit r.1.q.acc r.2 }, true)

/-- Power (R181). -/
def execPower (s : State) : Result := retireIf .power (driveHigh s, true)

/-- Unpower (R182). -/
def execUnpower (s : State) : Result := retireIf .unpower (release s, true)

end Sys2Proof.Machine
end

