-- ==== Sys2Proof/Machine/Dispatch.lean ====
section
/-! DEFINITION. `Step(d.instr, now)` of 41_dispatcher.md R157: one arm per instruction. An arm's answer is the state after
one step of the in-flight instruction, retired when it is complete (R150, R158, R163). -/

namespace Sys2Proof.Machine

def exec (i : Instr) (s : State) : Host.Outcome State Fault Refusal :=
  match i with
  | .reset => Sys2Proof.Machine.execReset s
  | .w0 => Sys2Proof.Machine.execW0 s
  | .w1 => Sys2Proof.Machine.execW1 s
  | .pw0 => Sys2Proof.Machine.execPw0 s
  | .pw1 => Sys2Proof.Machine.execPw1 s
  | .read => Sys2Proof.Machine.execRead s
  | .srchf => Sys2Proof.Machine.execSrchf s
  | .srchn => Sys2Proof.Machine.execSrchn s
  | .power => Sys2Proof.Machine.execPower s
  | .unpower => Sys2Proof.Machine.execUnpower s
  | .wait dur => Sys2Proof.Machine.execWait dur s
  | .callback h c => Sys2Proof.Machine.execCallback h c s

end Sys2Proof.Machine
end

