-- ==== Sys2Proof/Machine/Handle.lean ====
section
/-! DEFINITION. The dispatcher, `handle()` (41_dispatcher.md R150 to R165), and one host operation as one step (R10). -/

namespace Sys2Proof.Machine

/-! ### Fetch -/

/-- How many bytes a fetch looks at: those below the write cursor, up to the longest instruction. -/
def fetchWant (s : State) : Nat := min (s.q.wr - s.q.rd) (maxLength s.cfg)

/-- The bytes at the read cursor that the decoder is given (R61, R85). -/
def fetchWindow (s : State) : List Byte := queueRun s.q.buf s.q.rd (fetchWant s)

/-- The state after a fetch of instruction `i`: in the slot, the read cursor past it (R152). -/
def fetched (i : Instr) (s : State) : State :=
  { s with q.rd := s.q.rd + encodedLength s.cfg i, d := { busy := true, instr := .instr i } }

/-- The state after a fetch of a truncated instruction: Nop in the slot, the queue consumed (R155). -/
def fetchedNop (s : State) : State :=
  { s with q.rd := s.q.wr, d := { busy := true, instr := .nop } }

/-- `Fetch()` (R152). A reserved tag sets the fault mark (R156). The last arm is for no byte at all, which
R152 excludes: `q.rd` is below `q.wr`. -/
def fetch (s : State) : State :=
  match decode s.cfg (fetchWindow s) with
  | .instr i _ => fetched i s
  | .truncated => fetchedNop s
  | .reservedTag => raiseIllegalTag s
  | .noBytes => fetchedNop s

/-! ### The in-flight instruction -/

/-- The step of what is in the slot (R157). -/
def stepSlot (s : State) : Result :=
  match s.d.instr with
  | .instr i => exec i s
  | .nop => execNop s

/-- The instruction-finished hook runs inside the call that completed the instruction (R134, R163);
with no operations listed the observer does nothing (log 6). -/
def runHook (s : State) : Result :=
  match s.env.hooks with
  | ops :: rest => runNested ops { s with env.hooks := rest }
  | [] => .next s

/-- The end of a `handle()` call that stepped an instruction: the hook if it completed, then HBusy
(R150). -/
def finishCall (s : State) : Result :=
  if s.d.busy then answer .hBusy s else andThen (runHook s) (answer .hBusy)

/-- Step the slot and end the call. -/
def stepInFlight (s : State) : Result := andThen (stepSlot s) finishCall

/-- After a fetch: a fault ends the call with HIdle, anything else runs its first step in the same call
(R150, R154, R156). -/
def afterFetch (s : State) : Result :=
  if s.m.fault.isSome then answer .hIdle s else stepInFlight s

/-! ### `handle()` -/

/-- The dispatcher (R150): the fault mark, then the transaction state, then exhaustion (R275). -/
def dispatch (s : State) : Result :=
  if s.m.fault.isSome then answer .hIdle s
  else if s.q.st != .executing then answer .hIdle s
  else if s.d.busy then stepInFlight s
  else if s.q.wr ≤ s.q.rd then answer .hIdle { s with q.st := .idle }
  else afterFetch (fetch s)

/-- A top-level `handle()` with the clock at `time` (R150, R283): refused before `begin()` (R112) and
when the clock has gone backwards (I9). -/
def handleCall (time : Nat) (s : State) : Result :=
  if !s.m.begun then .refused .notBegun
  else if time < s.env.time then .refused .clockWentBackwards
  else dispatch { s with env.time := time }

/-- A `handle()` call the host's script does not list: the time that has passed is a free value
(log 1, log 2). -/
def pollCall (s : State) : Result :=
  if !s.m.begun then .refused .notBegun
  else dispatch
    { s with env.time := s.env.time + Config.freeAdvance s.env.free, env.free := s.env.free + 1 }

/-- One host operation at top level. -/
def topCall (op : HostOp) (s : State) : Result :=
  match op with
  | .handle time => handleCall time s
  | .begin => hostCall .begin s
  | .beginTransaction => hostCall .beginTransaction s
  | .reset => hostCall .reset s
  | .writeBit v => hostCall (.writeBit v) s
  | .writeBitWithPower v => hostCall (.writeBitWithPower v) s
  | .readBit => hostCall .readBit s
  | .writeBytes data powerLastBit => hostCall (.writeBytes data powerLastBit) s
  | .readBytes count dest => hostCall (.readBytes count dest) s
  | .searchFirst => hostCall .searchFirst s
  | .searchNext => hostCall .searchNext s
  | .power => hostCall .power s
  | .unpower => hostCall .unpower s
  | .wait dur => hostCall (.wait dur) s
  | .registerCallback h c => hostCall (.registerCallback h c) s
  | .commit => hostCall .commit s
  | .inProgress => hostCall .inProgress s
  | .getData => hostCall .getData s
  | .getLastSearchResult out => hostCall (.getLastSearchResult out) s
  | .crc8 bytes length => hostCall (.crc8 bytes length) s

/-- One step of the whole: the host's next operation (R10), or a poll when none is listed (log 1). -/
def hostStep (s : State) : Result :=
  match s.env.calls with
  | op :: rest => topCall op { s with env.calls := rest }
  | [] => pollCall s

/-! ### Loading one instruction -/

/-- A committed transaction of these bytes at offset 0, about to be polled: what `beginTransaction()`, an
append of them and `commit()` leave, and the host's next call a `handle()` at the present time (log 12). -/
def loadQueue (bytes : List Byte) (s : State) : State :=
  { s with
    q := { s.q with buf := memWriteBytes s.q.buf 0 bytes, wr := bytes.length, rd := 0, st := .executing }
    d.busy := false
    m := { fault := none, begun := true }
    env.calls := .handle s.env.time :: s.env.calls }

end Sys2Proof.Machine
end

