-- ==== Sys2Proof/Machine/Step.lean ====
section
/-! DEFINITION. One step of the machine: one host operation (00_scope.md R10), and the placing of one instruction. -/

namespace Sys2Proof.Machine

/-- One step: the host's next operation, or a `handle()` poll (log 1). -/
def step (s : State) : Host.Outcome State Fault Refusal := hostStep s

/-- `s` with the instruction whose bits are `w` committed at offset 0, where the next step fetches it (log 12). -/
def State.withFetchWord (s : State) (nbits w : Nat) : State :=
  loadQueue (tableBytes s.cfg nbits w) s

end Sys2Proof.Machine
end

