-- ==== Sys2Proof/Safety.lean ====
section
/-! DEFINITION. What claims are stated in terms of: the invariants of 10_state.md R54 and of the field ranges, whole
queues (30_encoding.md R85), the operations open to a handler (40_builder.md R134), and short names for waveforms and runs. -/

namespace Sys2Proof.Machine

/-! ### Invariants -/

/-- The slot holds a search instruction. -/
def InFlight.isSearch (f : InFlight) : Prop := f = .instr .srchf ∨ f = .instr .srchn

/-- The slot holds a Wait. -/
def InFlight.isWait (f : InFlight) : Prop := ∃ dur, f = .instr (.wait dur)

/-- The invariants (a) to (h) of R54. -/
structure Inv (s : State) : Prop where
  /-- (a) -/
  idle_quiet : s.q.st = .idle →
    s.d.busy = false ∧ s.p.rstPhase = .phase0 ∧ s.p.waitStarted = false ∧ s.srch.phase = .sIdle
  /-- (b) -/
  building_quiet : s.q.st = .building → s.d.busy = false ∧ s.q.rd = 0
  /-- (c) -/
  cursors : s.q.rd ≤ s.q.wr ∧ s.q.wr ≤ s.q.qend ∧ s.q.qend = s.cfg.cap
  /-- (d) -/
  busy_executing : s.d.busy = true → s.q.st = .executing
  /-- (e) -/
  search_in_flight : s.srch.phase ≠ .sIdle → s.d.busy = true ∧ s.d.instr.isSearch
  /-- (f) -/
  reset_in_flight : s.p.rstPhase ≠ .phase0 →
    s.d.busy = true ∧
      (s.d.instr = .instr .reset ∨ (s.d.instr.isSearch ∧ s.srch.phase = .sReset))
  /-- (g) -/
  wait_in_flight : s.p.waitStarted = true → s.d.busy = true ∧ s.d.instr.isWait
  /-- (h): the mask is bit `k` alone. -/
  cursor_mask : ∃ k, k < 8 ∧ s.srch.mask = 1 <<< k ∧ s.srch.bitPos = 8 * s.srch.byteIdx + k + 1

/-- A pass is in progress (R38). -/
def SearchPhase.inPass (f : SearchPhase) : Prop := f ≠ .sIdle

/-- A pass has command bits left to write. -/
def SearchPhase.beforeBits (f : SearchPhase) : Prop := f = .sReset ∨ f = .sCmd

/-- The ranges of R33, R34, R36, R40, R41, R43, R44, R46 and R47, with what a pass in progress adds, and
the line during a reset (R172). -/
structure Ranges (s : State) : Prop where
  rstT0 : s.p.rstT0 < 2 ^ s.cfg.clockBits
  rstT1 : s.p.rstT1 < 2 ^ s.cfg.clockBits
  waitT0 : s.p.waitT0 < 2 ^ s.cfg.clockBits
  ld : s.srch.ld ≤ 64
  lfd : s.srch.lfd ≤ 8
  bitPos : 1 ≤ s.srch.bitPos ∧ s.srch.bitPos ≤ 65
  byteIdx : s.srch.byteIdx ≤ 8
  lastZero : s.srch.lastZero ≤ 64
  cmdI : s.srch.cmdI ≤ 8
  byteIdx_inPass : s.srch.phase.inPass → s.srch.byteIdx < 8
  cmdI_beforeBits : s.srch.phase.beforeBits → s.srch.cmdI < 8
  pin_phase1 : s.p.rstPhase = .phase1 → s.pin = .low
  pin_phase2 : s.p.rstPhase = .phase2 → s.pin = .released

/-- Both memories are in canonical form and inside their address spaces (R61, R62). -/
structure MemoryInv (s : State) : Prop where
  buf_wf : s.q.buf.wf
  buf_inside : ∀ c ∈ s.q.buf, c.1 < s.q.qend
  dest_wf : s.dest.mem.wf
  dest_inside : ∀ c ∈ s.dest.mem, c.1 < 2 ^ (8 * s.cfg.contextBytes)

/-- The bytes from the read cursor to the write cursor are whole encoded instructions (R85). -/
def QueueWhole (s : State) : Prop :=
  ∃ is : List Instr, (∀ i ∈ is, i.wellFormed s.cfg = true) ∧
    is.flatMap (encode s.cfg) = queueRun s.q.buf s.q.rd (s.q.wr - s.q.rd)

/-- The slot's instruction, if any, is well-formed. -/
def SlotWellFormed (s : State) : Prop :=
  ∀ i, s.d.instr = .instr i → s.d.busy = true → i.wellFormed s.cfg = true

/-- A block whose queue only the appenders have filled: the invariants, a whole queue, a well-formed
slot that is not Nop, and no fault. -/
structure Built (s : State) : Prop where
  inv : Inv s
  mem : MemoryInv s
  whole : QueueWhole s
  slot : SlotWellFormed s
  no_nop : s.d.busy = true → s.d.instr ≠ .nop
  no_fault : s.m.fault = none

/-! ### What a handler or the hook may do -/

/-- The operations R134 allows inside a `handle()` call, with operands that fit (R124, R125, R127, R286). -/
def allowedNested (p : Params) : HostOp → Bool
  | .begin => false
  | .handle _ => false
  | .wait dur => Instr.wellFormed p (.wait dur)
  | .registerCallback h c => Instr.wellFormed p (.callback h c)
  | .readBytes count dest => readBytesFits p count dest
  | .crc8 bytes length => decide (length ≤ bytes.length)
  | .beginTransaction => true
  | .reset => true
  | .writeBit _ => true
  | .writeBitWithPower _ => true
  | .readBit => true
  | .writeBytes _ _ => true
  | .searchFirst => true
  | .searchNext => true
  | .power => true
  | .unpower => true
  | .commit => true
  | .inProgress => true
  | .getData => true
  | .getLastSearchResult _ => true

/-- The twelve appenders of R110. -/
def isAppender : HostOp → Bool
  | .reset => true
  | .writeBit _ => true
  | .writeBitWithPower _ => true
  | .readBit => true
  | .writeBytes _ _ => true
  | .readBytes _ _ => true
  | .searchFirst => true
  | .searchNext => true
  | .power => true
  | .unpower => true
  | .wait _ => true
  | .registerCallback _ _ => true
  | .begin => false
  | .beginTransaction => false
  | .commit => false
  | .inProgress => false
  | .handle _ => false
  | .getData => false
  | .getLastSearchResult _ => false
  | .crc8 _ _ => false

/-- Whether a run of nested operations holds a `getData()`. -/
def drains (ops : List HostOp) : Bool := ops.contains .getData

/-- A `getData()` ran in the step from `s` to `t` that emitted `o`: it was the host's call, or among the
calls of the handler or of the hook that ran, or made by an unlisted handler, whose free value says so (log 5). -/
def GetDataRan (s t : State) (o : List Output) : Prop :=
  s.env.calls.head? = some .getData ∨
  (∃ ops, s.env.handlers = ops :: t.env.handlers ∧ drains ops = true) ∨
  (∃ ops, s.env.hooks = ops :: t.env.hooks ∧ drains ops = true) ∨
  (s.env.handlers = [] ∧ (∃ h c, .hostCallback h c ∈ o) ∧
    ∃ n, t.env.free = n + 1 ∧ Config.freeHandlerDrains n = true)

/-! ### Waveforms and outputs -/

/-- What a write slot emits (R174). -/
def slotOutput (p : Params) (b power : Bool) : List Output :=
  [.bus .driveLow, .bus (.delay (if b then p.tW1Low else p.tW0Low)),
   .bus (if power then .driveHigh else .release), .bus (.delay (if b then p.tW1High else p.tW0High))]

/-- What a read slot that samples `b` emits (R179). -/
def readOutput (p : Params) (b : Bool) : List Output :=
  [.bus .driveLow, .bus (.delay p.tRLow), .bus .release, .bus (.delay p.tRSample), .bus (.sample b),
   .bus (.delay p.tRRest)]

/-- What phase 1 of a reset that samples `b` emits (R172). -/
def presenceOutput (p : Params) (b : Bool) : List Output :=
  [.bus .release, .bus (.delay p.tRstSample), .bus (.sample b)]

/-- The total of the in-call waits among outputs (R188). -/
def waitsOf : List Output → Nat
  | [] => 0
  | .bus (.delay t) :: os => t + waitsOf os
  | .bus .driveLow :: os => waitsOf os
  | .bus .driveHigh :: os => waitsOf os
  | .bus .release :: os => waitsOf os
  | .bus (.sample _) :: os => waitsOf os
  | .hostCallback _ _ :: os => waitsOf os
  | .finished _ :: os => waitsOf os
  | .returned _ :: os => waitsOf os

/-- The longest in-call wait of one primitive (R188). -/
def longestWait (p : Params) : Nat :=
  max p.tRstSample
    (max (max (p.tW1Low + p.tW1High) (p.tW0Low + p.tW0High)) (p.tRLow + p.tRSample + p.tRRest))

/-- The completions among outputs (R158). -/
def finishedOf : List Output → List Kind
  | [] => []
  | .finished k :: os => k :: finishedOf os
  | .bus _ :: os => finishedOf os
  | .hostCallback _ _ :: os => finishedOf os
  | .returned _ :: os => finishedOf os

/-- Whether an output is a bus action. -/
def Output.isBus : Output → Bool
  | .bus _ => true
  | .hostCallback _ _ => false
  | .finished _ => false
  | .returned _ => false

/-! ### Runs -/

/-- `n` dispatcher steps of one instruction, ignoring what stands around them. -/
def execTimes (i : Instr) : Nat → State → Result
  | 0, s => .next s
  | n + 1, s => andThen (exec i s) (execTimes i n)

/-- `n` host operations (or polls), one after the other. -/
def steps : Nat → State → Result
  | 0, s => .next s
  | n + 1, s => andThen (step s) (steps n)

/-- `n` polls, 480 µs apart, from time `t` on. -/
def pollsFrom (t n : Nat) : List HostOp := (List.range n).map (fun k => .handle (t + 480 * k))

/-- The bus of R234 with these devices, before anything happens on it. -/
def freshBus (devices : List Device) : BusEnv :=
  .devices { devices := devices, active := [], phase := .quiet, replies := [] }

/-- A block after reset with this committed queue on a bus with these devices, to be polled `n` times. -/
def bench (devices : List Device) (queue : List Byte) (n : Nat) : State :=
  { State.reset with
    q := { State.reset.q with buf := memWriteBytes [] 0 queue, wr := queue.length, st := .executing }
    env := { State.reset.env with bus := freshBus devices, calls := pollsFrom 0 n } }

end Sys2Proof.Machine
end

