-- ==== Sys2Proof/Certificates/Slice0/Obligations.lean ====
section
/-! DEFINITION. The statements for the provers. Each docstring names the rules of spec/ it states; "decision D<n>" or
"inference" says that the clause is the spec's own choice or inference, not its source's words. -/

open Sys2Proof Sys2Proof.Machine

/-! ### Encoding (30_encoding.md) -/

/-- R81, R82, R84 (decisions D2 to D4): decoding an encoded well-formed instruction gives it back, and
leaves the bytes after it, for every choice of the parameters. -/
def Obligations.DecodeOfEncodeIsTheInstruction : Prop :=
  ∀ (p : Params) (i : Instr) (rest : List Byte), i.wellFormed p = true →
    decode p (encode p i ++ rest) = .instr i rest

/-- R81, R82, R84 (decisions D2 to D4): every byte string that decodes is the encoding of what it
decodes to, which is well-formed: one meaning, one encoding. -/
def Obligations.EncodeOfDecodeIsTheBytes : Prop :=
  ∀ (p : Params) (bytes : List Byte) (i : Instr) (rest : List Byte),
    decode p bytes = .instr i rest → i.wellFormed p = true ∧ bytes = encode p i ++ rest

/-- R86, R87 (decisions D25, D26): exactly which byte strings are no instruction, and under which name
each is rejected. -/
def Obligations.OtherBytesAreRejectedByName : Prop :=
  ∀ (p : Params) (bytes : List Byte),
    (decode p bytes = .noBytes ↔ bytes = []) ∧
    (decode p bytes = .reservedTag ↔ ∃ tag rest, bytes = tag :: rest ∧ 0x0C ≤ tag.toNat) ∧
    (decode p bytes = .truncated ↔ ∃ tag rest, bytes = tag :: rest ∧
      ((tag = 0x0A ∧ rest.length < p.waitBytes) ∨
        (tag = 0x0B ∧ rest.length < p.handlerBytes + p.contextBytes)))

/-- The words of 95_test_vectors.md V1, V2, V3, V5 and of R81's table (decision D2), decoded. -/
def Obligations.SpecWordsDecode : Prop :=
  decode Params.default [0x00] = .instr .reset [] ∧
  decode Params.default [0x02, 0x0A] = .instr .w1 [0x0A] ∧
  decode Params.default [0x05] = .instr .read [] ∧
  decode Params.default [0x06] = .instr .srchf [] ∧
  decode Params.default [0x09] = .instr .unpower [] ∧
  decode Params.default [0x0A, 0xE8, 0x03, 0x00, 0x00] = .instr (.wait 1000) [] ∧
  decode Params.default [0x0B, 0x03, 0x00, 0x34, 0x12] = .instr (.callback 3 0x1234) []

/-! ### Reset (10_state.md R55, 40_builder.md R111, R112) -/

/-- R111, R55 (decision D27): `begin()` on a block that has not begun gives each field its reset value,
releases the pin and returns; parameters, host memory and inputs stay. The fields R55 leaves unspecified are
left out. -/
def Obligations.BeginGivesResetValues : Prop :=
  ∀ s : State, s.m.begun = false → ∃ t, topCall .begin s = .next t ∧
    (t.q.wr = 0 ∧ t.q.rd = 0 ∧ t.q.qend = s.cfg.cap ∧ t.q.st = .idle ∧ t.q.presence = false ∧
      t.q.acc = 0 ∧ t.q.resStatus = .notFound ∧ t.q.resAddr = Rom.zero) ∧
    t.d.busy = false ∧ t.p.rstPhase = .phase0 ∧ t.p.waitStarted = false ∧ t.pin = .released ∧
    t.srch = { phase := .sIdle, rom := Rom.zero, ld := 0, lfd := 0, lastDevice := false,
               bitPos := 1, byteIdx := 0, mask := 0x01, lastZero := 0, cmdI := 0,
               idBit := false, dir := false } ∧
    t.m = { fault := none, begun := true } ∧
    t.out = s.out ++ [.bus .release, .returned (.code .ok)] ∧
    t.cfg = s.cfg ∧ t.dest = s.dest ∧ t.env = s.env

/-- R111, R112 (decision D27): before `begin()` every operation but begin and crc8 is refused, and so is
a second begin. -/
def Obligations.HostDutyOfBeginIsRefused : Prop :=
  (∀ (op : HostOp) (s : State), s.m.begun = false → op ≠ .begin → (∀ bs n, op ≠ .crc8 bs n) →
    topCall op s = .refused .notBegun) ∧
  (∀ s : State, s.m.begun = true → topCall .begin s = .refused .secondBegin)

/-- R54, R55, R85: the state after reset meets every invariant stated below. -/
def Obligations.ResetMeetsTheInvariants : Prop :=
  Inv State.reset ∧ Ranges State.reset ∧ Built State.reset

/-! ### Write slots, Power, Unpower (42_bus_primitives.md R175 to R178, R181, R182) -/

/-- R175, R176: Write0 and Write1, in every state, in the call that fetched them: the slot, the line
released, nothing else of the block changed. -/
def Obligations.WritesDriveTheirSlotAndRelease : Prop :=
  ∀ s : State,
    encode s.cfg .w0 = [0x01] ∧ encode s.cfg .w1 = [0x02] ∧
    exec .w0 s = .next { s with
      pin := .released, d.busy := false, env := busWritten s.cfg false s.env
      out := s.out ++ [.bus .driveLow, .bus (.delay s.cfg.tW0Low), .bus .release,
        .bus (.delay s.cfg.tW0High), .finished .write0] } ∧
    exec .w1 s = .next { s with
      pin := .released, d.busy := false, env := busWritten s.cfg true s.env
      out := s.out ++ [.bus .driveLow, .bus (.delay s.cfg.tW1Low), .bus .release,
        .bus (.delay s.cfg.tW1High), .finished .write1] }

/-- R177 (decision D17), R178: both power variants end with the line driven high, nothing else of the
block changed. -/
def Obligations.PowerWritesEndDrivenHigh : Prop :=
  ∀ s : State,
    exec .pw0 s = .next { s with
      pin := .high, d.busy := false, env := busWritten s.cfg false s.env
      out := s.out ++ [.bus .driveLow, .bus (.delay s.cfg.tW0Low), .bus .driveHigh,
        .bus (.delay s.cfg.tW0High), .finished .powerWrite0] } ∧
    exec .pw1 s = .next { s with
      pin := .high, d.busy := false, env := busWritten s.cfg true s.env
      out := s.out ++ [.bus .driveLow, .bus (.delay s.cfg.tW1Low), .bus .driveHigh,
        .bus (.delay s.cfg.tW1High), .finished .powerWrite1] }

/-- R181, R182: Power drives the line high and Unpower releases it, at once and in every state. -/
def Obligations.PowerAndUnpowerSetTheLine : Prop :=
  ∀ s : State,
    encode s.cfg .power = [0x08] ∧ encode s.cfg .unpower = [0x09] ∧
    exec .power s = .next { s with
      pin := .high, d.busy := false, out := s.out ++ [.bus .driveHigh, .finished .power] } ∧
    exec .unpower s = .next { s with
      pin := .released, d.busy := false, out := s.out ++ [.bus .release, .finished .unpower] }

/-- R187 (inference): what the line is after each instruction completes. -/
def Obligations.LineAfterCompletion : Prop :=
  ∀ (i : Instr) (s t : State), Inv s → Ranges s → s.m.begun = true → s.d.busy = true →
    s.d.instr = .instr i → exec i s = .next t → t.d.busy = false →
    match i with
    | .reset => t.pin = .released
    | .w0 => t.pin = .released
    | .w1 => t.pin = .released
    | .read => t.pin = .released
    | .unpower => t.pin = .released
    | .pw0 => t.pin = .high
    | .pw1 => t.pin = .high
    | .power => t.pin = .high
    | .wait _ => t.pin = s.pin
    | .callback _ _ => t.pin = s.pin
    | .srchf => t.pin = if s.srch.phase = .sIdle then s.pin else .released
    | .srchn => t.pin = if s.srch.phase = .sIdle then s.pin else .released

/-! ### Read (R179, R180, R189) -/

/-- R180: a Read shifts the accumulator right and puts the sampled bit at the top; the line ends
released; nothing else of the block changes. -/
def Obligations.ReadFoldsTheSampledBit : Prop :=
  ∀ s : State, encode s.cfg .read = [0x05] ∧ ∃ o, (∀ x ∈ o, x.isBus = true) ∧
    exec .read s = .next { s with
      q.acc := (s.q.acc >>> 1) ||| (if (drawLevel s.env).1 then 0x80 else 0x00)
      pin := .released, d.busy := false, env := (drawLevel s.env).2
      out := s.out ++ o ++ [.finished .read] }

/-- R179 (decision D18 for the trailing wait): what a Read emits. -/
def Obligations.ReadSlotWaveform : Prop :=
  ∀ s : State, ∃ t, exec .read s = .next t ∧
    t.out = s.out ++ [.bus .driveLow, .bus (.delay s.cfg.tRLow), .bus .release,
      .bus (.delay s.cfg.tRSample), .bus (.sample (drawLevel s.env).1), .bus (.delay s.cfg.tRRest),
      .finished .read]

/-- R189 (inference), and the source's own example: eight Reads replace the accumulator, the
first-sampled bit the least significant. -/
def Obligations.EightReadsAssembleAByte : Prop :=
  ∀ (s : State) (bits rest : List Bool), bits.length = 8 → s.env.bus = .script (bits ++ rest) →
    ∃ t, execTimes .read 8 s = .next t ∧ t.env.bus = .script rest ∧
      ∀ i, (hi : i < bits.length) → t.q.acc.getLsbD i = bits[i]

/-! ### Reset (R172, R173) -/

/-- R172, R173 (decision D37: one `now` for the call): the reset primitive in each of its phases, in
every state. -/
def Obligations.ResetRunsItsThreePhases : Prop :=
  ∀ s : State,
    (s.p.rstPhase = .phase0 → exec .reset s = .next { s with
      pin := .low, p.rstT0 := now s, p.rstPhase := .phase1, out := s.out ++ [.bus .driveLow] }) ∧
    (s.p.rstPhase = .phase1 → elapsed s.cfg (now s) s.p.rstT0 < s.cfg.tRstLow →
      exec .reset s = .next s) ∧
    (s.p.rstPhase = .phase1 → s.cfg.tRstLow ≤ elapsed s.cfg (now s) s.p.rstT0 →
      exec .reset s = .next { s with
        pin := .released, p.rstT1 := now s, p.rstPhase := .phase2
        q.presence := !(drawLevel (busReset s.env)).1
        env := (drawLevel (busReset s.env)).2
        out := s.out ++ [.bus .release, .bus (.delay s.cfg.tRstSample),
          .bus (.sample (drawLevel (busReset s.env)).1)] }) ∧
    (s.p.rstPhase = .phase2 → elapsed s.cfg (now s) s.p.rstT1 < s.cfg.tRstRec →
      exec .reset s = .next s) ∧
    (s.p.rstPhase = .phase2 → s.cfg.tRstRec ≤ elapsed s.cfg (now s) s.p.rstT1 →
      exec .reset s = .next { s with
        p.rstPhase := .phase0, d.busy := false, out := s.out ++ [.finished .reset] })

/-- R295 (inference), R302 (inference), C9: the low pulse, the recovery window and a Wait are never cut
short, whatever the clock's wrap: the true time since the timestamp is at least the duration. -/
def Obligations.DurationsAreNeverCutShort : Prop :=
  ∀ (s t : State) (start : Nat), start ≤ s.env.time →
    (s.p.rstPhase = .phase1 → s.p.rstT0 = start % 2 ^ s.cfg.clockBits →
      exec .reset s = .next t → t.p.rstPhase = .phase2 → s.cfg.tRstLow ≤ s.env.time - start) ∧
    (s.p.rstPhase = .phase2 → s.p.rstT1 = start % 2 ^ s.cfg.clockBits →
      exec .reset s = .next t → t.p.rstPhase = .phase0 → s.cfg.tRstRec ≤ s.env.time - start) ∧
    (∀ dur, s.p.waitStarted = true → s.p.waitT0 = start % 2 ^ s.cfg.clockBits →
      exec (.wait dur) s = .next t → t.p.waitStarted = false → dur ≤ s.env.time - start)

/-! ### Wait (R183) -/

/-- R183 (decision D5): the first step records the start and stays busy, whatever `dur` is; a later
step completes when `dur` has elapsed; the line and everything else stay. A started Wait of `2^CLOCK_BITS` or more
never completes, at any clock value (I10). -/
def Obligations.WaitRecordsThenTests : Prop :=
  ∀ (s : State) (dur : Nat),
    (s.p.waitStarted = false →
      exec (.wait dur) s = .next { s with p.waitT0 := now s, p.waitStarted := true }) ∧
    (s.p.waitStarted = true → elapsed s.cfg (now s) s.p.waitT0 < dur →
      exec (.wait dur) s = .next s) ∧
    (s.p.waitStarted = true → dur ≤ elapsed s.cfg (now s) s.p.waitT0 →
      exec (.wait dur) s = .next { s with
        p.waitStarted := false, d.busy := false, out := s.out ++ [.finished .wait] }) ∧
    (s.p.waitStarted = true → 2 ^ s.cfg.clockBits ≤ dur → ∀ time,
      exec (.wait dur) { s with env.time := time } = .next { s with env.time := time })

/-! ### Callback (R184, R185) -/

/-- R185, R184 (decisions D6, D7): COPY stores the accumulator in one DEST byte, every other DEST byte
and all else unchanged. A byte the host has not provided is refused (I14). That a context outside the DEST space is a
fault is the model's choice, log 10 (R62 gives such an address no byte; no decoded instruction holds one). -/
def Obligations.CopyStoresTheAccumulator : Prop :=
  ∀ (s : State) (c : Nat),
    (c < 2 ^ (8 * s.cfg.contextBytes) → c ∉ s.dest.unprovided →
      exec (.callback 0 c) s = .next { s with
        dest.mem := memWrite s.dest.mem c s.q.acc, d.busy := false
        out := s.out ++ [.finished .callback] } ∧
      memRead (memWrite s.dest.mem c s.q.acc) c = some s.q.acc ∧
      ∀ a, a ≠ c → memRead (memWrite s.dest.mem c s.q.acc) a = memRead s.dest.mem a) ∧
    (c < 2 ^ (8 * s.cfg.contextBytes) → c ∈ s.dest.unprovided →
      exec (.callback 0 c) s = .refused .destNotProvided) ∧
    (2 ^ (8 * s.cfg.contextBytes) ≤ c →
      exec (.callback 0 c) s = .fault .destAddressOutsideSpace)

/-- R184, R134 (decisions D6, D40): a Callback with `h ≠ 0` emits its event, runs the handler's
operations there and then, and completes in one step; of the block only the accumulator can have changed, to 0,
and only if the handler drained it. -/
def Obligations.CallbackRunsTheHostsHandler : Prop :=
  ∀ (s : State) (h c : Nat) (ops : List HostOp) (rest : List (List HostOp)), h ≠ 0 →
    s.m.begun = true → s.q.st = .executing → s.env.handlers = ops :: rest →
    (∀ op ∈ ops, allowedNested s.cfg op = true) →
    ∃ (t : State) (rs : List HostResult), exec (.callback h c) s = .next t ∧
      rs.length = ops.length ∧
      t = { s with
        q.acc := if drains ops then 0 else s.q.acc
        d.busy := false, env.handlers := rest
        out := s.out ++ [.hostCallback h c] ++ rs.map Output.returned ++ [.finished .callback] }

/-- I16 (log 5: the model's free value): a Callback whose handler is not listed completes too, and of
the block only the accumulator can have changed, to 0. -/
def Obligations.CallbackWithUnlistedHandlerCompletes : Prop :=
  ∀ (s : State) (h c : Nat), h ≠ 0 → s.env.handlers = [] →
    ∃ t o, exec (.callback h c) s = .next t ∧ (t.q.acc = s.q.acc ∨ t.q.acc = 0) ∧
      t = { s with
        q.acc := t.q.acc, d.busy := false, env.free := s.env.free + 1
        out := s.out ++ [.hostCallback h c] ++ o ++ [.finished .callback] }

/-- R134, R296, I1 (decision D40): a handler or a hook that calls `handle()`, after any allowed
operations, is refused. -/
def Obligations.ReentrantHandleIsRefused : Prop :=
  ∀ (s : State) (pre post : List HostOp) (time : Nat) (rest : List (List HostOp)),
    s.m.begun = true → s.q.st = .executing → (∀ op ∈ pre, allowedNested s.cfg op = true) →
    (∀ h c, h ≠ 0 → s.env.handlers = (pre ++ .handle time :: post) :: rest →
      exec (.callback h c) s = .refused .reentrantHandle) ∧
    (s.d.busy = false → s.env.hooks = (pre ++ .handle time :: post) :: rest →
      finishCall s = .refused .reentrantHandle)

/-! ### Search (43_search.md) -/

/-- R221, R222, R223 (inference on the exhausted flag; decisions D14, D34, D35): the first step of a search
instruction starts a pass, SearchFirst from a cleared search state, SearchNext from what is there; both start
the reset in the same step, and SearchFirst is re-tagged (R160). A SearchNext on an exhausted scan completes at
once with NotFound, without a bus action or any other change. That a pass begins with the old values of `s.id_bit` and
`s.dir` is the model's choice, log 25. -/
def Obligations.SearchStartsAPass : Prop :=
  ∀ s : State, s.srch.phase = .sIdle → s.p.rstPhase = .phase0 →
    exec .srchf s = .next { s with
      pin := .low, p.rstT0 := now s, p.rstPhase := .phase1, out := s.out ++ [.bus .driveLow]
      d.instr := .instr .srchn
      srch := { s.srch with
        rom := Rom.zero, ld := 0, lfd := 0, lastDevice := false
        bitPos := 1, byteIdx := 0, mask := 0x01, lastZero := 0, cmdI := 0, phase := .sReset } } ∧
    (s.srch.lastDevice = false → exec .srchn s = .next { s with
      pin := .low, p.rstT0 := now s, p.rstPhase := .phase1, out := s.out ++ [.bus .driveLow]
      srch := { s.srch with
        bitPos := 1, byteIdx := 0, mask := 0x01, lastZero := 0, cmdI := 0, phase := .sReset } }) ∧
    (s.srch.lastDevice = true → exec .srchn s = .next { s with
      q.resStatus := .notFound, d.busy := false, out := s.out ++ [.finished .searchNext] })

/-- R224: in phase SReset the search runs the reset primitive, and when that completes goes on to the
command, or ends with NoDevices when no device answered. -/
def Obligations.SearchResetAbortsWithoutPresence : Prop :=
  ∀ s : State, s.srch.phase = .sReset →
    ((resetStep s).2 = false → exec .srchn s = .next (resetStep s).1) ∧
    ((resetStep s).2 = true → (resetStep s).1.q.presence = true →
      exec .srchn s = .next { (resetStep s).1 with srch.phase := .sCmd }) ∧
    ((resetStep s).2 = true → (resetStep s).1.q.presence = false →
      exec .srchn s = .next { (resetStep s).1 with
        q.resStatus := .error, srch.phase := .sIdle, d.busy := false
        out := (resetStep s).1.out ++ [.finished .searchNext] })

/-- R225 (decision D16): one command bit per step, least significant first, the normal or the alarm
command by the block's parameter; after the eighth the bits of the ROM code. -/
def Obligations.SearchSendsItsCommand : Prop :=
  ∀ (s : State) (b : Bool), s.srch.phase = .sCmd →
    b = (if s.cfg.searchAlarm then s.cfg.cmdAlarmSearch else s.cfg.cmdSearch).getLsbD s.srch.cmdI →
    exec .srchn s = .next { s with
      pin := .released, env := busWritten s.cfg b s.env, out := s.out ++ slotOutput s.cfg b false
      srch.cmdI := s.srch.cmdI + 1
      srch.phase := if s.srch.cmdI + 1 = 8 then .sReadId else .sCmd }

/-- R226, with R179 (decision D18 for the trailing wait) and R236 (decision D11): in phase SReadId one
read slot gives the first bit; the accumulator and all else stay. -/
def Obligations.SearchReadsTheIdBit : Prop :=
  ∀ s : State, s.srch.phase = .sReadId →
    exec .srchn s = .next { s with
      pin := .released, env := (drawLevel s.env).2
      out := s.out ++ readOutput s.cfg (drawLevel s.env).1
      srch.idBit := (drawLevel s.env).1, srch.phase := .sReadCmp }

/-- R227, as C2 corrects it, with R228 and R229, as C1 corrects them (decision D10), and R179 (decision D18
for the trailing wait): one read slot completes the pair, and the pair decides. (1,1) ends the pass with NotFound; unequal
bits give the direction; (0,0) is a discrepancy, at which the direction is the stored bit before the resume point, 1 at it
and 0 beyond it, and a 0 is recorded. All else stays. -/
def Obligations.SearchClassifiesThePair : Prop :=
  ∀ (s : State) (b : Bool), s.srch.phase = .sReadCmp → b = (drawLevel s.env).1 →
    (s.srch.idBit = true → b = true → exec .srchn s = .next { s with
      pin := .released, env := (drawLevel s.env).2
      q.resStatus := .notFound, srch.phase := .sIdle, d.busy := false
      out := s.out ++ readOutput s.cfg b ++ [.finished .searchNext] }) ∧
    (s.srch.idBit ≠ b → exec .srchn s = .next { s with
      pin := .released, env := (drawLevel s.env).2, out := s.out ++ readOutput s.cfg b
      srch.dir := s.srch.idBit, srch.phase := .sWriteDir }) ∧
    (s.srch.idBit = false → b = false → Inv s → Ranges s → ∀ d : Bool,
      d = (if s.srch.bitPos < s.srch.ld then romBit s.srch.rom s.srch.bitPos
           else decide (s.srch.bitPos = s.srch.ld)) →
      exec .srchn s = .next { s with
        pin := .released, env := (drawLevel s.env).2, out := s.out ++ readOutput s.cfg b
        srch := { s.srch with
          dir := d, phase := .sWriteDir
          lastZero := if d = true then s.srch.lastZero else s.srch.bitPos
          lfd := if d = false ∧ s.srch.bitPos ≤ 8 then s.srch.bitPos else s.srch.lfd } })

/-- R230, with R66 (decision D9): in mid-pass a direction write stores the bit at the current position and
no other, writes it on the bus, and moves the cursors to the next position. All else stays. -/
def Obligations.DirectionWriteStoresOneBit : Prop :=
  ∀ s : State, Inv s → s.srch.phase = .sWriteDir → s.srch.bitPos < 64 →
    ∃ rom : Rom, romBit rom s.srch.bitPos = s.srch.dir ∧
      (∀ n, 1 ≤ n → n ≤ 64 → n ≠ s.srch.bitPos → romBit rom n = romBit s.srch.rom n) ∧
      exec .srchn s = .next { s with
        pin := .released, env := busWritten s.cfg s.srch.dir s.env
        out := s.out ++ slotOutput s.cfg s.srch.dir false
        srch := { s.srch with
          rom := rom, phase := .sReadId, bitPos := s.srch.bitPos + 1
          byteIdx := s.srch.bitPos / 8, mask := 1 <<< (s.srch.bitPos % 8) } }

/-- R230, R231, R240 (decisions D9, D13): the pass ends after bit 64, whose direction is stored and written
on the bus like every other. The last zero is promoted, the scan is exhausted when there is none, and the address is
published unless its family byte is 0. All else stays, the presence flag and `s.lfd` among it. -/
def Obligations.PassEndsAfterBitSixtyFour : Prop :=
  ∀ s : State, Inv s → s.srch.phase = .sWriteDir → s.srch.bitPos = 64 →
    ∃ rom : Rom, romBit rom 64 = s.srch.dir ∧
      (∀ n, 1 ≤ n → n < 64 → romBit rom n = romBit s.srch.rom n) ∧
      exec .srchn s = .next { s with
        pin := .released, env := busWritten s.cfg s.srch.dir s.env, d.busy := false
        out := s.out ++ slotOutput s.cfg s.srch.dir false ++ [.finished .searchNext]
        srch := { s.srch with
          rom := rom, phase := .sIdle, bitPos := 65, byteIdx := 8, mask := 0x01
          ld := s.srch.lastZero
          lastDevice := s.srch.lastDevice || decide (s.srch.lastZero = 0) }
        q := { s.q with
          resStatus := if romByte s.srch.rom 0 = 0 then .notFound else .found
          resAddr := if romByte s.srch.rom 0 = 0 then s.q.resAddr else rom } }

/-- R232 (decision D15): a pass that ends early, without presence or at a (1,1) pair, keeps the
discrepancy and the exhausted flag, and publishes no address. -/
def Obligations.AbortsKeepTheDiscrepancyState : Prop :=
  ∀ s t : State, s.srch.phase = .sReset ∨ s.srch.phase = .sReadCmp →
    exec .srchn s = .next t → t.srch.phase = .sIdle →
    t.srch = { s.srch with phase := .sIdle } ∧ t.q.resAddr = s.q.resAddr ∧
      (t.q.resStatus = .error ∨ t.q.resStatus = .notFound)

/-- R236 (decision D11), R52, and the frame of both search instructions: each step answers a next
state, in every state, and leaves the accumulator, the queue and its cursors, the Wait registers, the host's
memory and the bookkeeping alone. -/
def Obligations.SearchesLeaveTheRestAlone : Prop :=
  ∀ (s : State) (i : Instr), i = .srchf ∨ i = .srchn →
    ∃ t, exec i s = .next t ∧ t.cfg = s.cfg ∧
      (t.q.acc = s.q.acc ∧ t.q.buf = s.q.buf ∧ t.q.wr = s.q.wr ∧ t.q.rd = s.q.rd ∧
        t.q.qend = s.q.qend ∧ t.q.st = s.q.st) ∧
      t.p.waitStarted = s.p.waitStarted ∧ t.p.waitT0 = s.p.waitT0 ∧
      t.m = s.m ∧ t.dest = s.dest ∧
      t.env.time = s.env.time ∧ t.env.calls = s.env.calls ∧
      t.env.handlers = s.env.handlers ∧ t.env.hooks = s.env.hooks ∧
      (i = .srchf → t.d.instr = .instr .srchn) ∧ (i = .srchn → t.d.instr = s.d.instr)

/-- R227 with R234, log 4 and R13: on the open-drain bus, the two reads of a bit position end the pass when no
device takes part, give the bit when all agree on it, and are a discrepancy when they do not. -/
def Obligations.BusPairTellsWhetherDevicesAgree : Prop :=
  ∀ (s : State) (b : DeviceBus) (n : Nat), s.srch.phase = .sReadId →
    s.env.bus = .devices b → b.phase = .search n .idBit →
    ∃ t, execTimes .srchn 2 s = .next t ∧
      (b.active = [] → t.q.resStatus = .notFound ∧ t.srch.phase = .sIdle) ∧
      (∀ x, b.active ≠ [] → (∀ d ∈ b.active, romBit d.rom n = x) →
        t.srch.phase = .sWriteDir ∧ t.srch.dir = x ∧ t.srch.lastZero = s.srch.lastZero) ∧
      ((∃ d ∈ b.active, romBit d.rom n = false) → (∃ d ∈ b.active, romBit d.rom n = true) →
        t.srch.phase = .sWriteDir ∧ t.srch.dir = chooseDir s.srch ∧
        (t.srch.dir = false → t.srch.lastZero = s.srch.bitPos))

/-- R235: the family-discrepancy position is read by nothing. A step from states that differ in it alone
gives states that differ in it alone, and stops on one where it stops on the other. -/
def Obligations.FamilyDiscrepancyIsDormant : Prop :=
  ∀ (s : State) (v : Nat),
    match step s with
    | .next t => ∃ w, step { s with srch.lfd := v } = .next { t with srch.lfd := w }
    | .fault e => step { s with srch.lfd := v } = .fault e
    | .refused e => step { s with srch.lfd := v } = .refused e

/-- R221's example for every device, R238 (inference), with R234 and log 4 for the bus (PRESUMED: every
device takes part in a normal search): on a bus of one device with a non-zero family
byte, one SearchFirst polled 203 times finds it and the scan is exhausted. -/
def Obligations.OneDeviceIsFoundInOnePass : Prop :=
  ∀ a : Rom, romByte a 0 ≠ 0 →
    ∃ t, steps 203 (bench [⟨a, false⟩] [0x06] 203) = .next t ∧
      t.q.resStatus = .found ∧ t.q.resAddr = a ∧ t.d.busy = false ∧
      t.srch.ld = 0 ∧ t.srch.lastDevice = true ∧ finishedOf t.out = [.searchNext]

/-- R239 (inference), for two devices, with R234 and log 4 for the bus (PRESUMED: every device takes part
in a normal search): the source's own property (95_test_vectors.md E3). SearchFirst
and SearchNext find each exactly once, and the next SearchNext reports exhaustion without a bus action. -/
def Obligations.TwoDevicesAreEnumeratedOnceEach : Prop :=
  ∀ a b : Rom, a ≠ b → romByte a 0 ≠ 0 → romByte b 0 ≠ 0 →
    ∃ t1 t2 t3, steps 203 (bench [⟨a, false⟩, ⟨b, false⟩] [0x06, 0x07, 0x07] 407) = .next t1 ∧
      steps 203 t1 = .next t2 ∧ steps 1 t2 = .next t3 ∧
      t1.q.resStatus = .found ∧ t2.q.resStatus = .found ∧
      ((t1.q.resAddr = a ∧ t2.q.resAddr = b) ∨ (t1.q.resAddr = b ∧ t2.q.resAddr = a)) ∧
      t1.srch.lastDevice = false ∧ t2.srch.lastDevice = true ∧
      t3.q.resStatus = .notFound ∧
      t3.out = t2.out ++ [.finished .searchNext, .returned .hBusy]

/-! ### The dispatcher (41_dispatcher.md) -/

/-- R150, R152, R154 (decision D24): when the bytes at the read cursor decode to `i`, the step is `exec i`
on the state with the read cursor past it and `i` in the slot, then the end of the call. That the host polls when it lists
no call, and that a free value of time then passes, is the model's choice, logs 1 and 2. -/
def Obligations.StepRunsTheDecodedInstruction : Prop :=
  ∀ (s : State) (i : Instr) (rest : List Byte),
    s.m.begun = true → s.m.fault = none → s.q.st = .executing → s.d.busy = false →
    s.q.rd < s.q.wr → decode s.cfg (fetchWindow s) = .instr i rest →
    (∀ time later, s.env.calls = .handle time :: later → s.env.time ≤ time →
      step s = andThen (exec i { s with
        q.rd := s.q.rd + encodedLength s.cfg i, d := { busy := true, instr := .instr i }
        env.time := time, env.calls := later }) finishCall) ∧
    (s.env.calls = [] →
      step s = andThen (exec i { s with
        q.rd := s.q.rd + encodedLength s.cfg i, d := { busy := true, instr := .instr i }
        env.time := s.env.time + Config.freeAdvance s.env.free
        env.free := s.env.free + 1 }) finishCall)

/-- R159: while an instruction is in flight, a `handle()` call steps that instruction and fetches
nothing: the read cursor stays, and so does the slot's instruction but for the re-tag of a SearchFirst. -/
def Obligations.InFlightInstructionIsSteppedNotReplaced : Prop :=
  ∀ (s : State) (time : Nat) (later : List HostOp),
    s.m.begun = true → s.m.fault = none → s.q.st = .executing → s.d.busy = true →
    s.env.calls = .handle time :: later → s.env.time ≤ time →
    (∀ i, s.d.instr = .instr i →
      step s = andThen (exec i { s with env.time := time, env.calls := later }) finishCall) ∧
    (∀ t, step s = .next t → t.q.rd = s.q.rd ∧ t.q.buf = s.q.buf ∧
      (t.d.instr = s.d.instr ∨ (s.d.instr = .instr .srchf ∧ t.d.instr = .instr .srchn)))

/-- R150, R158, R163, R134 (decisions D24, D28, D40): how a call that stepped an instruction ends. It
returns HBusy; a hook runs only if the instruction completed, and of the block changes at most the accumulator. That an
unlisted hook does nothing, and that a listed one runs after the slot is cleared, is the model's choice, log 6. -/
def Obligations.HandleEndsBusyAfterAStep : Prop :=
  ∀ s : State,
    (s.d.busy = true ∨ s.env.hooks = [] →
      finishCall s = .next { s with out := s.out ++ [.returned .hBusy] }) ∧
    (∀ ops rest, s.d.busy = false → s.env.hooks = ops :: rest → s.m.begun = true →
      s.q.st = .executing → (∀ op ∈ ops, allowedNested s.cfg op = true) →
      ∃ rs : List HostResult, rs.length = ops.length ∧
        finishCall s = .next { s with
          q.acc := if drains ops then 0 else s.q.acc
          env.hooks := rest
          out := s.out ++ rs.map Output.returned ++ [.returned .hBusy] })

/-- R153: an exhausted queue takes the block to Idle in a call of its own, and nothing else does. -/
def Obligations.OnlyADrainedQueueEndsATransaction : Prop :=
  (∀ (s : State) (time : Nat), s.m.begun = true → s.m.fault = none → s.q.st = .executing →
    s.d.busy = false → s.q.wr ≤ s.q.rd → s.env.time ≤ time →
    topCall (.handle time) s = .next { s with
      q.st := .idle, env.time := time, out := s.out ++ [.returned .hIdle] }) ∧
  (∀ s t : State, s.m.begun = true → step s = .next t → s.q.st = .executing → t.q.st = .idle →
    s.d.busy = false ∧ s.q.wr ≤ s.q.rd)

/-- R151: in Idle and in Building `handle()` changes nothing, emits nothing and returns HIdle. -/
def Obligations.HandleOutsideExecutingChangesNothing : Prop :=
  ∀ (s : State) (time : Nat), s.m.begun = true → s.env.time ≤ time →
    s.q.st = .idle ∨ s.q.st = .building →
    topCall (.handle time) s = .next { s with
      env.time := time, out := s.out ++ [.returned .hIdle] }

/-- R155, R186 (decision D25): a truncated instruction runs as Nop in the call that meets it, and
consumes the queue to the write cursor. R156, R87 (decision D26): a reserved tag sets the fault mark and nothing
else, and the call returns HIdle. -/
def Obligations.TruncatedIsNopAndReservedIsFault : Prop :=
  ∀ (s : State) (time : Nat), s.m.begun = true → s.m.fault = none → s.q.st = .executing →
    s.d.busy = false → s.q.rd < s.q.wr → s.env.time ≤ time →
    (decode s.cfg (fetchWindow s) = .truncated → s.env.hooks = [] →
      topCall (.handle time) s = .next { s with
        q.rd := s.q.wr, d := { busy := false, instr := .nop }, env.time := time
        out := s.out ++ [.finished .nop, .returned .hBusy] }) ∧
    (0x0C ≤ (queueByte s.q.buf s.q.rd).toNat →
      topCall (.handle time) s = .next { s with
        m.fault := some .illegalTag, env.time := time, out := s.out ++ [.returned .hIdle] })

/-- R165, R50, R276 (decision D26), C10: while the fault mark is set `handle()` returns HIdle, every
operation with an error code returns WrongState, and no step clears the mark. -/
def Obligations.FaultMarkIsNeverCleared : Prop :=
  ∀ s : State, s.m.begun = true → s.m.fault = some .illegalTag →
    (∀ time, s.env.time ≤ time → topCall (.handle time) s = .next { s with
      env.time := time, out := s.out ++ [.returned .hIdle] }) ∧
    (∀ op, isAppender op = true ∨ op = .beginTransaction ∨ op = .commit →
      allowedNested s.cfg op = true →
      topCall op s = .next { s with out := s.out ++ [.returned (.code .wrongState)] }) ∧
    (∀ t, step s = .next t → t.m = s.m ∧ t.q.st = s.q.st)

/-- R25, R133 (decision D29): of the three transaction states, a step takes Idle only to Building, by
`beginTransaction()`, Building only to Executing, by `commit()`, and Executing only to Idle. -/
def Obligations.TransactionStateNeverSkipsOrReverses : Prop :=
  ∀ s t : State, s.m.begun = true → step s = .next t →
    t.q.st = s.q.st ∨
    (s.q.st = .idle ∧ t.q.st = .building ∧ s.env.calls.head? = some .beginTransaction) ∨
    (s.q.st = .building ∧ t.q.st = .executing ∧ s.env.calls.head? = some .commit) ∨
    (s.q.st = .executing ∧ t.q.st = .idle)

/-- R158, R164 (inference), R188: one step completes at most one instruction and busy-waits at most as
long as the longest primitive; what was emitted before stays. -/
def Obligations.OneStepIsBounded : Prop :=
  ∀ s t : State, step s = .next t →
    ∃ o, t.out = s.out ++ o ∧ (finishedOf o).length ≤ 1 ∧ waitsOf o ≤ longestWait s.cfg

/-! ### The builder (40_builder.md) -/

/-- R114, R116 to R123: the one-byte appenders on an unfaulted block, in every state: the state is
checked, then the room; a success writes one byte at the write cursor and moves it. -/
def Obligations.OneByteAppenders : Prop :=
  ∀ (s : State) (op : HostOp) (tag : Byte), s.m.begun = true → s.m.fault = none →
    (op = .reset ∧ tag = 0x00) ∨ (op = .writeBit 0 ∧ tag = 0x01) ∨
      (∃ v, v ≠ 0 ∧ op = .writeBit v ∧ tag = 0x02) ∨ (op = .writeBitWithPower 0 ∧ tag = 0x03) ∨
      (∃ v, v ≠ 0 ∧ op = .writeBitWithPower v ∧ tag = 0x04) ∨ (op = .readBit ∧ tag = 0x05) ∨
      (op = .searchFirst ∧ tag = 0x06) ∨ (op = .searchNext ∧ tag = 0x07) ∨
      (op = .power ∧ tag = 0x08) ∨ (op = .unpower ∧ tag = 0x09) →
    topCall op s =
      if s.q.st ≠ .building then
        .next { s with out := s.out ++ [.returned (.code .wrongState)] }
      else if s.q.wr + 1 > s.q.qend then
        .next { s with out := s.out ++ [.returned (.code .bufferFull)] }
      else .next { s with
        q.buf := memWrite s.q.buf s.q.wr tag, q.wr := s.q.wr + 1
        out := s.out ++ [.returned (.code .ok)] }

/-- R124, R125 (decisions D3, D6): `wait` and `registerCallback` append five bytes by default, payload
little-endian, all or nothing; operands that do not fit are refused (I15). That this is looked at before the transaction
state is the model's choice, log 13. -/
def Obligations.OperandAppenders : Prop :=
  ∀ (s : State) (i : Instr) (op : HostOp) (bytes : List Byte), s.m.begun = true → s.m.fault = none →
    (∃ dur, i = .wait dur ∧ op = .wait dur ∧ bytes = 0x0A :: leBytes s.cfg.waitBytes dur) ∨
      (∃ h c, i = .callback h c ∧ op = .registerCallback h c ∧
        bytes = 0x0B :: (leBytes s.cfg.handlerBytes h ++ leBytes s.cfg.contextBytes c)) →
    topCall op s =
      if i.wellFormed s.cfg = false then .refused .operandTooWide
      else if s.q.st ≠ .building then
        .next { s with out := s.out ++ [.returned (.code .wrongState)] }
      else if s.q.wr + bytes.length > s.q.qend then
        .next { s with out := s.out ++ [.returned (.code .bufferFull)] }
      else .next { s with
        q.buf := memWriteBytes s.q.buf s.q.wr bytes, q.wr := s.q.wr + bytes.length
        out := s.out ++ [.returned (.code .ok)] }

/-- R135: every appender called in Idle or in Executing returns WrongState and writes nothing. -/
def Obligations.AppendersNeedBuilding : Prop :=
  ∀ (s : State) (op : HostOp), s.m.begun = true → s.q.st = .idle ∨ s.q.st = .executing →
    isAppender op = true → allowedNested s.cfg op = true →
    topCall op s = .next { s with out := s.out ++ [.returned (.code .wrongState)] }

/-- R89: with room for it, `writeBytes` queues one bit write for each bit, bytes in order, each
least significant bit first; with `powerLastBit` the very last is the power variant of the same bit. Every other
queue byte stays. -/
def Obligations.WriteBytesQueuesBitsInOrder : Prop :=
  ∀ (s : State) (data : List Byte) (powerLastBit : Bool), s.m.begun = true → s.m.fault = none →
    s.q.st = .building → s.q.wr + 8 * data.length ≤ s.q.qend →
    ∃ buf, topCall (.writeBytes data powerLastBit) s = .next { s with
        q.buf := buf, q.wr := s.q.wr + 8 * data.length
        out := s.out ++ [.returned (.code .ok)] } ∧
      (∀ j i, (hj : j < data.length) → i < 8 →
        (memRead buf (s.q.wr + 8 * j + i)).toList = encode s.cfg
          (if powerLastBit = true ∧ j + 1 = data.length ∧ i = 7
           then (if data[j].getLsbD i then .pw1 else .pw0)
           else (if data[j].getLsbD i then .w1 else .w0))) ∧
      (∀ a, a < s.q.wr ∨ s.q.wr + 8 * data.length ≤ a → memRead buf a = memRead s.q.buf a)

/-- R126, R69, R128 (decision D21): a `writeBytes` without room fills the queue with the first bits and
returns BufferFull; what was appended stays. -/
def Obligations.WriteBytesStopsWhenFull : Prop :=
  ∀ (s : State) (data : List Byte) (powerLastBit : Bool), s.m.begun = true → s.m.fault = none →
    s.q.st = .building → s.q.wr ≤ s.q.qend → s.q.qend < s.q.wr + 8 * data.length →
    ∃ buf, topCall (.writeBytes data powerLastBit) s = .next { s with
        q.buf := buf, q.wr := s.q.qend
        out := s.out ++ [.returned (.code .bufferFull)] } ∧
      (∀ j i, (hj : j < data.length) → i < 8 → s.q.wr + 8 * j + i < s.q.qend →
        memRead buf (s.q.wr + 8 * j + i) = some (if data[j].getLsbD i then 0x02 else 0x01)) ∧
      (∀ a, a < s.q.wr ∨ s.q.qend ≤ a → memRead buf a = memRead s.q.buf a)

/-- R90, R127 (decisions D7, D31): with room for it, `readBytes` queues for each byte eight Reads and a COPY
to the corresponding destination. A destination that ends outside DEST is refused (I15); that this is looked at before the
transaction state is the model's choice, log 13. -/
def Obligations.ReadBytesQueuesReadsAndCopies : Prop :=
  ∀ (s : State) (count dest : Nat), s.m.begun = true →
    (0 < count → 2 ^ (8 * s.cfg.contextBytes) < dest + count →
      topCall (.readBytes count dest) s = .refused .operandTooWide) ∧
    (s.m.fault = none → s.q.st = .building →
      count = 0 ∨ dest + count ≤ 2 ^ (8 * s.cfg.contextBytes) →
      s.q.wr + count * (9 + s.cfg.handlerBytes + s.cfg.contextBytes) ≤ s.q.qend →
      topCall (.readBytes count dest) s = .next { s with
        q.buf := memWriteBytes s.q.buf s.q.wr ((List.range count).flatMap (fun j =>
          List.replicate 8 0x05 ++ encode s.cfg (.callback 0 (dest + j))))
        q.wr := s.q.wr + count * (9 + s.cfg.handlerBytes + s.cfg.contextBytes)
        out := s.out ++ [.returned (.code .ok)] })

/-- R127, R69, R298 (decision D21): a `readBytes` without room appends whole groups while they fit, then
as many of the next byte's eight Reads as fit but not its COPY, and returns BufferFull; what was appended stays. -/
def Obligations.ReadBytesStopsWhenFull : Prop :=
  ∀ (s : State) (count dest group room : Nat) (bytes : List Byte),
    s.m.begun = true → s.m.fault = none → s.q.st = .building →
    dest + count ≤ 2 ^ (8 * s.cfg.contextBytes) →
    group = 9 + s.cfg.handlerBytes + s.cfg.contextBytes → s.q.qend = s.q.wr + room →
    room < count * group →
    bytes = (List.range (room / group)).flatMap (fun j =>
        List.replicate 8 0x05 ++ encode s.cfg (.callback 0 (dest + j))) ++
      List.replicate (min 8 (room % group)) 0x05 →
    topCall (.readBytes count dest) s = .next { s with
      q.buf := memWriteBytes s.q.buf s.q.wr bytes, q.wr := s.q.wr + bytes.length
      out := s.out ++ [.returned (.code .bufferFull)] }

/-- R129: `commit()` takes Building to Executing and fails with WrongState otherwise; an empty
transaction commits, and the next `handle()` returns it to Idle; after it every appender fails. -/
def Obligations.CommitStartsExecution : Prop :=
  ∀ s : State, s.m.begun = true → s.m.fault = none →
    (s.q.st ≠ .building →
      topCall .commit s = .next { s with out := s.out ++ [.returned (.code .wrongState)] }) ∧
    (s.q.st = .building → ∃ t, t = { s with
        q.st := .executing, out := s.out ++ [.returned (.code .ok)] } ∧
      topCall .commit s = .next t ∧
      (s.q.wr = 0 → s.d.busy = false → ∀ time, s.env.time ≤ time →
        topCall (.handle time) t = .next { t with
          q.st := .idle, env.time := time, out := t.out ++ [.returned .hIdle] }) ∧
      (∀ op, isAppender op = true → allowedNested s.cfg op = true →
        topCall op t = .next { t with out := t.out ++ [.returned (.code .wrongState)] }))

/-- R113 (decision D20): `beginTransaction()` opens a transaction in Idle, resetting the cursors, the
slot and the presence flag and nothing else, and fails with WrongState otherwise. -/
def Obligations.BeginTransactionOpensTheQueue : Prop :=
  ∀ s : State, s.m.begun = true → s.m.fault = none →
    topCall .beginTransaction s =
      if s.q.st = .idle then .next { s with
        q := { s.q with wr := 0, rd := 0, presence := false, st := .building }
        d.busy := false
        out := s.out ++ [.returned (.code .ok)] }
      else .next { s with out := s.out ++ [.returned (.code .wrongState)] }

/-- R131: `getData()` returns the accumulator and clears it, in every transaction state and from a
handler; a second call in a row returns 0. -/
def Obligations.GetDataDrainsTheAccumulator : Prop :=
  ∀ s : State, s.m.begun = true → ∃ t, t = { s with
      q.acc := 0, out := s.out ++ [.returned (.byte s.q.acc)] } ∧
    topCall .getData s = .next t ∧ runNested [.getData] s = .next t ∧
    topCall .getData t = .next { t with out := t.out ++ [.returned (.byte 0)] }

/-- R130, R132 (decisions D23, D13, D38): the two queries change nothing. `inProgress()` is false in
Idle alone; `getLastSearchResult` copies the address out only when Found. -/
def Obligations.QueriesChangeNothing : Prop :=
  ∀ (s : State) (out : Rom), s.m.begun = true →
    topCall .inProgress s = .next { s with
      out := s.out ++ [.returned (.bool (decide (s.q.st ≠ .idle)))] } ∧
    topCall (.getLastSearchResult out) s = .next { s with
      out := s.out ++ [.returned (.search s.q.resStatus
        (if s.q.resStatus = .found then s.q.resAddr else out))] }

/-- R286 (decision D36): `crc8` writes no block state; a string followed by its own CRC has CRC 0, and
the check value is 0xA1. -/
def Obligations.CrcOfAValidAddressIsZero : Prop :=
  (∀ bytes : List Byte, crc8 (bytes ++ [crc8 bytes]) = 0) ∧
  crc8 [0x31, 0x32, 0x33, 0x34, 0x35, 0x36, 0x37, 0x38, 0x39] = 0xA1 ∧
  (∀ (s : State) (bytes : List Byte) (n : Nat), n ≤ bytes.length →
    topCall (.crc8 bytes n) s =
      .next { s with out := s.out ++ [.returned (.byte (crc8 (bytes.take n)))] })

/-! ### Invariants of every step -/

/-- R54 (inference), R33 to R47: a step keeps the invariants (a) to (h) and every field in its range. -/
def Obligations.StepKeepsTheInvariants : Prop :=
  ∀ s t : State, Inv s → Ranges s → step s = .next t → Inv t ∧ Ranges t

/-- R61, R62, R114, R185: a step keeps both memories in canonical form and inside their spaces. -/
def Obligations.StepKeepsTheMemories : Prop :=
  ∀ s t : State, MemoryInv s → step s = .next t → MemoryInv t

/-- R85, R86, R75, R87 (inferences): a queue that only the appenders fill stays whole: what a fetch meets is
a well-formed instruction, no step faults, completes a Nop or sets the fault mark, and a next state is such a state again. -/
def Obligations.BuiltQueuesNeverFault : Prop :=
  ∀ s : State, Built s →
    (s.q.rd < s.q.wr → ∃ i rest, i.wellFormed s.cfg = true ∧
      decode s.cfg (fetchWindow s) = .instr i rest) ∧
    (∀ e, step s ≠ .fault e) ∧
    (∀ t, step s = .next t → Built t ∧ ∀ o, t.out = s.out ++ o → .finished .nop ∉ o)

/-- R61, R75 (inference), R24: the queue bytes change only in Building, at or above the write cursor;
its end and the parameters never change once the block has begun. -/
def Obligations.QueueBytesChangeOnlyWhileBuilding : Prop :=
  ∀ s t : State, s.m.begun = true → step s = .next t →
    (s.q.st ≠ .building → t.q.buf = s.q.buf) ∧
    (∀ a, a < s.q.wr → memRead t.q.buf a = memRead s.q.buf a) ∧
    t.q.qend = s.q.qend ∧ t.cfg = s.cfg

/-- R27, R52, R236 (decision D11): the accumulator changes only by a Read that completed in the step, which
folds the bit it sampled in, or by a `getData()` that ran in the step, to 0 (log 5 for the unlisted handler). -/
def Obligations.AccumulatorHasTwoWriters : Prop :=
  ∀ s t : State, s.m.begun = true → step s = .next t →
    ∃ o, t.out = s.out ++ o ∧
      (t.q.acc = s.q.acc ∨
        (∃ b, .bus (.sample b) ∈ o ∧ .finished .read ∈ o ∧
          t.q.acc = (s.q.acc >>> 1) ||| (if b then 0x80 else 0x00)) ∨
        (t.q.acc = 0 ∧ GetDataRan s t o))
end

