-- ==== Sys2Proof/Laws/Encoding.lean ====
section
/-! SUPPORT. Little-endian bytes and encoded lengths (30_encoding.md R80 to R84). -/

namespace Sys2Proof

@[simp] theorem leBytes_length (n v : Nat) : (leBytes n v).length = n := by
  induction n generalizing v with
  | zero => rfl
  | succ n ih => simp [leBytes, ih]

/-- The value of `n` bytes of `v` is `v` cut to `n` bytes. -/
theorem leValue_leBytes (n v : Nat) : leValue (leBytes n v) = v % 2 ^ (8 * n) := by
  induction n generalizing v with
  | zero => simp [leBytes, leValue, Nat.mod_one]
  | succ n ih =>
    rw [show 8 * (n + 1) = 8 + 8 * n by ring, pow_add, Nat.mod_mul]
    simp [leBytes, leValue, ih]

/-- Bytes are the bytes of their value. -/
theorem leBytes_leValue (bs : List Byte) : leBytes bs.length (leValue bs) = bs := by
  induction bs with
  | nil => rfl
  | cons b bs ih =>
    have hb := b.isLt
    simp only [List.length_cons, leBytes, leValue]
    rw [show (b.toNat + 256 * leValue bs) / 256 = leValue bs by omega, ih]
    congr 1
    apply BitVec.eq_of_toNat_eq
    simp
    omega

theorem leValue_lt (bs : List Byte) : leValue bs < 2 ^ (8 * bs.length) := by
  induction bs with
  | nil => simp [leValue]
  | cons b bs ih =>
    have hb := b.isLt
    simp only [List.length_cons, leValue]
    rw [show 8 * (bs.length + 1) = 8 + 8 * bs.length by ring, pow_add]
    omega

/-- The encoded length of an instruction is at least 1 and at most the longest. -/
theorem encodedLength_bounds (p : Params) (i : Instr) :
    1 ≤ encodedLength p i ∧ encodedLength p i ≤ maxLength p := by
  cases i <;> simp [encodedLength, maxLength]
  omega

end Sys2Proof
end

