-- ==== Sys2Proof/Laws/Memory.lean ====
section
/-! SUPPORT. What reads and writes of a memory do, and that every write keeps its canonical form. -/

namespace Sys2Proof.Machine

@[simp] theorem memRead_nil (a : Nat) : memRead [] a = none := rfl

theorem memRead_cons (k : Nat) (b : Byte) (m : Memory) (a : Nat) :
    memRead ((k, b) :: m) a = if k = a then some b else memRead m a := rfl

/-- A read after a write of the same address gives the byte written. -/
@[simp] theorem memRead_memWrite_same (m : Memory) (a : Nat) (v : Byte) :
    memRead (memWrite m a v) a = some v := by
  induction m with
  | nil => simp [memWrite, memRead]
  | cons c m ih =>
    obtain ⟨k, b⟩ := c
    unfold memWrite
    split
    · simp [memRead]
    · split
      · simp [memRead]
      · next hne => simp [memRead, ih, Ne.symm hne]

/-- A write leaves every other address alone. -/
theorem memRead_memWrite_other (m : Memory) {a x : Nat} (v : Byte) (h : x ≠ a) :
    memRead (memWrite m a v) x = memRead m x := by
  induction m with
  | nil => simp [memWrite, memRead, Ne.symm h]
  | cons c m ih =>
    obtain ⟨k, b⟩ := c
    unfold memWrite
    split
    · simp [memRead, Ne.symm h]
    · split
      · next hk => simp [memRead, ← hk, Ne.symm h]
      · simp [memRead, ih]

/-- The cells after a write are old cells or the one written. -/
theorem mem_of_mem_memWrite {m : Memory} {a : Nat} {v : Byte} {c : Host.Cell}
    (h : c ∈ memWrite m a v) : c = (a, v) ∨ c ∈ m := by
  induction m with
  | nil => simpa [memWrite] using h
  | cons d m ih =>
    obtain ⟨k, b⟩ := d
    unfold memWrite at h
    split at h
    · simpa using h
    · split at h
      · simp only [List.mem_cons] at h ⊢
        tauto
      · simp only [List.mem_cons] at h ⊢
        rcases h with h | h
        · tauto
        · have := ih h
          tauto

/-- A write keeps the canonical form. -/
theorem memWrite_wf {m : Memory} (h : m.wf) (a : Nat) (v : Byte) : (memWrite m a v).wf := by
  induction m with
  | nil => simp [memWrite, Memory.wf]
  | cons c m ih =>
    obtain ⟨k, b⟩ := c
    obtain ⟨hk, hm⟩ := List.pairwise_cons.mp h
    unfold memWrite
    split
    · next hlt =>
      refine List.pairwise_cons.mpr ⟨fun d hd => ?_, h⟩
      rcases List.mem_cons.mp hd with rfl | hd
      · exact hlt
      · exact lt_trans hlt (hk d hd)
    · split
      · next heq => exact List.pairwise_cons.mpr ⟨fun d hd => heq ▸ hk d hd, hm⟩
      · next hnlt hne =>
        refine List.pairwise_cons.mpr ⟨fun d hd => ?_, ih hm⟩
        rcases mem_of_mem_memWrite hd with rfl | hd
        · have : k ≤ a := Nat.le_of_not_lt hnlt
          exact lt_of_le_of_ne this (Ne.symm hne)
        · exact hk d hd

/-- So does a write of several bytes. -/
theorem memWriteBytes_wf {m : Memory} (h : m.wf) (a : Nat) (bs : List Byte) :
    (memWriteBytes m a bs).wf := by
  induction bs generalizing m a with
  | nil => exact h
  | cons b bs ih => exact ih (memWrite_wf h a b) (a + 1)

/-- The cells after a write of several bytes are old cells or lie in the range written. -/
theorem mem_of_mem_memWriteBytes {m : Memory} {a : Nat} {bs : List Byte} {c : Host.Cell}
    (h : c ∈ memWriteBytes m a bs) : (a ≤ c.1 ∧ c.1 < a + bs.length) ∨ c ∈ m := by
  induction bs generalizing m a with
  | nil => exact .inr h
  | cons b bs ih =>
    rcases ih h with h | h
    · simp only [List.length_cons]
      omega
    · rcases mem_of_mem_memWrite h with rfl | h
      · simp only [List.length_cons]
        omega
      · exact .inr h

/-- A write of several bytes leaves every address outside its range alone. -/
theorem memRead_memWriteBytes_outside (m : Memory) (a : Nat) (bs : List Byte) {x : Nat}
    (h : x < a ∨ a + bs.length ≤ x) : memRead (memWriteBytes m a bs) x = memRead m x := by
  induction bs generalizing m a with
  | nil => rfl
  | cons b bs ih =>
    simp only [List.length_cons] at h
    rw [memWriteBytes, ih (memWrite m a b) (a + 1) (by omega),
      memRead_memWrite_other m b (by omega)]

/-- Inside its range a write of several bytes gives the bytes written. -/
theorem memRead_memWriteBytes_inside (m : Memory) (a : Nat) (bs : List Byte) {i : Nat}
    (h : i < bs.length) : memRead (memWriteBytes m a bs) (a + i) = some bs[i] := by
  induction bs generalizing m a i with
  | nil => simp at h
  | cons b bs ih =>
    cases i with
    | zero =>
      rw [memWriteBytes, memRead_memWriteBytes_outside _ _ _ (by omega)]
      simp
    | succ i =>
      have := ih (memWrite m a b) (a + 1) (i := i) (by simpa using h)
      rw [memWriteBytes, show a + (i + 1) = a + 1 + i by omega, this]
      simp

/-- Writes of two strings one after the other are one write of both. -/
theorem memWriteBytes_append (m : Memory) (a : Nat) (bs cs : List Byte) :
    memWriteBytes m a (bs ++ cs) = memWriteBytes (memWriteBytes m a bs) (a + bs.length) cs := by
  induction bs generalizing m a with
  | nil => rfl
  | cons b bs ih => simp [memWriteBytes, ih, Nat.add_assoc, Nat.add_comm]

/-- A queue byte that was written is what was written. -/
theorem queueByte_of_memRead {m : Memory} {a : Nat} {b : Byte} (h : memRead m a = some b) :
    queueByte m a = b := by simp [queueByte, h]

@[simp] theorem queueRun_zero (m : Memory) (a : Nat) : queueRun m a 0 = [] := rfl

theorem queueRun_succ (m : Memory) (a n : Nat) :
    queueRun m a (n + 1) = queueByte m a :: queueRun m (a + 1) n := rfl

@[simp] theorem queueRun_length (m : Memory) (a n : Nat) : (queueRun m a n).length = n := by
  induction n generalizing a with
  | zero => rfl
  | succ n ih => simp [queueRun_succ, ih]

/-- Runs of memories that agree on the range are equal. -/
theorem queueRun_congr {m m' : Memory} {a n : Nat}
    (h : ∀ x, a ≤ x → x < a + n → memRead m x = memRead m' x) : queueRun m a n = queueRun m' a n := by
  induction n generalizing a with
  | zero => rfl
  | succ n ih =>
    rw [queueRun_succ, queueRun_succ, ih (a := a + 1) (fun x h1 h2 => h x (by omega) (by omega)),
      queueByte, queueByte, h a (by omega) (by omega)]

/-- What was written reads back. -/
theorem queueRun_memWriteBytes (m : Memory) (a : Nat) (bs : List Byte) :
    queueRun (memWriteBytes m a bs) a bs.length = bs := by
  induction bs generalizing m a with
  | nil => rfl
  | cons b bs ih =>
    rw [List.length_cons, queueRun_succ, memWriteBytes, ih, queueByte,
      memRead_memWriteBytes_outside _ _ _ (by omega), memRead_memWrite_same]
    rfl

/-- A run splits at any point. -/
theorem queueRun_add (m : Memory) (a n k : Nat) :
    queueRun m a (n + k) = queueRun m a n ++ queueRun m (a + n) k := by
  induction n generalizing a with
  | zero => simp
  | succ n ih =>
    rw [show n + 1 + k = (n + k) + 1 by omega, queueRun_succ, queueRun_succ, ih,
      show a + 1 + n = a + (n + 1) by omega, List.cons_append]

/-- A prefix of a run is the run of the prefix. -/
theorem queueRun_take (m : Memory) (a : Nat) {n k : Nat} (h : k ≤ n) :
    (queueRun m a n).take k = queueRun m a k := by
  obtain ⟨j, rfl⟩ := Nat.exists_eq_add_of_le h
  rw [queueRun_add, List.take_left' (by simp)]

/-- Dropping from a run leaves the run further on. -/
theorem queueRun_drop (m : Memory) (a : Nat) {n k : Nat} (h : k ≤ n) :
    (queueRun m a n).drop k = queueRun m (a + k) (n - k) := by
  obtain ⟨j, rfl⟩ := Nat.exists_eq_add_of_le h
  rw [queueRun_add, List.drop_left' (by simp), Nat.add_sub_cancel_left]

end Sys2Proof.Machine
end

