-- ==== Sys2Proof/Laws/State.lean ====
section
/-! SUPPORT. One lemma for each field after each elementary update, true by rfl, so that no proof unfolds a record update. -/

namespace Sys2Proof.Machine

/-! `emit` appends one output and touches nothing else. -/

@[simp] theorem emit_cfg (o : Output) (s : State) : (emit o s).cfg = s.cfg := rfl
@[simp] theorem emit_q (o : Output) (s : State) : (emit o s).q = s.q := rfl
@[simp] theorem emit_d (o : Output) (s : State) : (emit o s).d = s.d := rfl
@[simp] theorem emit_p (o : Output) (s : State) : (emit o s).p = s.p := rfl
@[simp] theorem emit_pin (o : Output) (s : State) : (emit o s).pin = s.pin := rfl
@[simp] theorem emit_srch (o : Output) (s : State) : (emit o s).srch = s.srch := rfl
@[simp] theorem emit_m (o : Output) (s : State) : (emit o s).m = s.m := rfl
@[simp] theorem emit_dest (o : Output) (s : State) : (emit o s).dest = s.dest := rfl
@[simp] theorem emit_env (o : Output) (s : State) : (emit o s).env = s.env := rfl
@[simp] theorem emit_out (o : Output) (s : State) : (emit o s).out = s.out ++ [o] := rfl

/-! `DriveLow` (R37). -/

@[simp] theorem driveLow_cfg (s : State) : (driveLow s).cfg = s.cfg := rfl
@[simp] theorem driveLow_q (s : State) : (driveLow s).q = s.q := rfl
@[simp] theorem driveLow_d (s : State) : (driveLow s).d = s.d := rfl
@[simp] theorem driveLow_p (s : State) : (driveLow s).p = s.p := rfl
@[simp] theorem driveLow_pin (s : State) : (driveLow s).pin = .low := rfl
@[simp] theorem driveLow_srch (s : State) : (driveLow s).srch = s.srch := rfl
@[simp] theorem driveLow_m (s : State) : (driveLow s).m = s.m := rfl
@[simp] theorem driveLow_dest (s : State) : (driveLow s).dest = s.dest := rfl
@[simp] theorem driveLow_env (s : State) : (driveLow s).env = s.env := rfl
@[simp] theorem driveLow_out (s : State) : (driveLow s).out = s.out ++ [.bus .driveLow] := rfl

/-! `DriveHigh` (R37). -/

@[simp] theorem driveHigh_cfg (s : State) : (driveHigh s).cfg = s.cfg := rfl
@[simp] theorem driveHigh_q (s : State) : (driveHigh s).q = s.q := rfl
@[simp] theorem driveHigh_d (s : State) : (driveHigh s).d = s.d := rfl
@[simp] theorem driveHigh_p (s : State) : (driveHigh s).p = s.p := rfl
@[simp] theorem driveHigh_pin (s : State) : (driveHigh s).pin = .high := rfl
@[simp] theorem driveHigh_srch (s : State) : (driveHigh s).srch = s.srch := rfl
@[simp] theorem driveHigh_m (s : State) : (driveHigh s).m = s.m := rfl
@[simp] theorem driveHigh_dest (s : State) : (driveHigh s).dest = s.dest := rfl
@[simp] theorem driveHigh_env (s : State) : (driveHigh s).env = s.env := rfl
@[simp] theorem driveHigh_out (s : State) : (driveHigh s).out = s.out ++ [.bus .driveHigh] := rfl

/-! `Release` (R37). -/

@[simp] theorem release_cfg (s : State) : (release s).cfg = s.cfg := rfl
@[simp] theorem release_q (s : State) : (release s).q = s.q := rfl
@[simp] theorem release_d (s : State) : (release s).d = s.d := rfl
@[simp] theorem release_p (s : State) : (release s).p = s.p := rfl
@[simp] theorem release_pin (s : State) : (release s).pin = .released := rfl
@[simp] theorem release_srch (s : State) : (release s).srch = s.srch := rfl
@[simp] theorem release_m (s : State) : (release s).m = s.m := rfl
@[simp] theorem release_dest (s : State) : (release s).dest = s.dest := rfl
@[simp] theorem release_env (s : State) : (release s).env = s.env := rfl
@[simp] theorem release_out (s : State) : (release s).out = s.out ++ [.bus .release] := rfl

/-! `Delay(t)` touches no block state (R9). -/

@[simp] theorem delay_cfg (t : Nat) (s : State) : (delay t s).cfg = s.cfg := rfl
@[simp] theorem delay_q (t : Nat) (s : State) : (delay t s).q = s.q := rfl
@[simp] theorem delay_d (t : Nat) (s : State) : (delay t s).d = s.d := rfl
@[simp] theorem delay_p (t : Nat) (s : State) : (delay t s).p = s.p := rfl
@[simp] theorem delay_pin (t : Nat) (s : State) : (delay t s).pin = s.pin := rfl
@[simp] theorem delay_srch (t : Nat) (s : State) : (delay t s).srch = s.srch := rfl
@[simp] theorem delay_m (t : Nat) (s : State) : (delay t s).m = s.m := rfl
@[simp] theorem delay_dest (t : Nat) (s : State) : (delay t s).dest = s.dest := rfl
@[simp] theorem delay_env (t : Nat) (s : State) : (delay t s).env = s.env := rfl
@[simp] theorem delay_out (t : Nat) (s : State) :
    (delay t s).out = s.out ++ [.bus (.delay t)] := rfl

/-! The fault mark alone changes (R156). -/

@[simp] theorem raiseIllegalTag_cfg (s : State) : (raiseIllegalTag s).cfg = s.cfg := rfl
@[simp] theorem raiseIllegalTag_q (s : State) : (raiseIllegalTag s).q = s.q := rfl
@[simp] theorem raiseIllegalTag_d (s : State) : (raiseIllegalTag s).d = s.d := rfl
@[simp] theorem raiseIllegalTag_p (s : State) : (raiseIllegalTag s).p = s.p := rfl
@[simp] theorem raiseIllegalTag_pin (s : State) : (raiseIllegalTag s).pin = s.pin := rfl
@[simp] theorem raiseIllegalTag_srch (s : State) : (raiseIllegalTag s).srch = s.srch := rfl
@[simp] theorem raiseIllegalTag_m (s : State) :
    (raiseIllegalTag s).m = { s.m with fault := some .illegalTag } := rfl
@[simp] theorem raiseIllegalTag_dest (s : State) : (raiseIllegalTag s).dest = s.dest := rfl
@[simp] theorem raiseIllegalTag_env (s : State) : (raiseIllegalTag s).env = s.env := rfl
@[simp] theorem raiseIllegalTag_out (s : State) : (raiseIllegalTag s).out = s.out := rfl

/-! The re-tag changes the slot alone (R160). -/

@[simp] theorem retagSearch_cfg (s : State) : (retagSearch s).cfg = s.cfg := rfl
@[simp] theorem retagSearch_q (s : State) : (retagSearch s).q = s.q := rfl
@[simp] theorem retagSearch_d (s : State) :
    (retagSearch s).d = { s.d with instr := .instr .srchn } := rfl
@[simp] theorem retagSearch_p (s : State) : (retagSearch s).p = s.p := rfl
@[simp] theorem retagSearch_pin (s : State) : (retagSearch s).pin = s.pin := rfl
@[simp] theorem retagSearch_srch (s : State) : (retagSearch s).srch = s.srch := rfl
@[simp] theorem retagSearch_m (s : State) : (retagSearch s).m = s.m := rfl
@[simp] theorem retagSearch_dest (s : State) : (retagSearch s).dest = s.dest := rfl
@[simp] theorem retagSearch_env (s : State) : (retagSearch s).env = s.env := rfl
@[simp] theorem retagSearch_out (s : State) : (retagSearch s).out = s.out := rfl

/-! Completion clears the slot and reports it (R158, R163). -/

@[simp] theorem complete_cfg (k : Kind) (s : State) : (complete k s).cfg = s.cfg := rfl
@[simp] theorem complete_q (k : Kind) (s : State) : (complete k s).q = s.q := rfl
@[simp] theorem complete_d (k : Kind) (s : State) :
    (complete k s).d = { s.d with busy := false } := rfl
@[simp] theorem complete_p (k : Kind) (s : State) : (complete k s).p = s.p := rfl
@[simp] theorem complete_pin (k : Kind) (s : State) : (complete k s).pin = s.pin := rfl
@[simp] theorem complete_srch (k : Kind) (s : State) : (complete k s).srch = s.srch := rfl
@[simp] theorem complete_m (k : Kind) (s : State) : (complete k s).m = s.m := rfl
@[simp] theorem complete_dest (k : Kind) (s : State) : (complete k s).dest = s.dest := rfl
@[simp] theorem complete_env (k : Kind) (s : State) : (complete k s).env = s.env := rfl
@[simp] theorem complete_out (k : Kind) (s : State) :
    (complete k s).out = s.out ++ [.finished k] := rfl

/-! A fetch moves the read cursor and fills the slot (R152). -/

@[simp] theorem fetched_cfg (i : Instr) (s : State) : (fetched i s).cfg = s.cfg := rfl
@[simp] theorem fetched_q (i : Instr) (s : State) :
    (fetched i s).q = { s.q with rd := s.q.rd + encodedLength s.cfg i } := rfl
@[simp] theorem fetched_d (i : Instr) (s : State) :
    (fetched i s).d = { busy := true, instr := .instr i } := rfl
@[simp] theorem fetched_p (i : Instr) (s : State) : (fetched i s).p = s.p := rfl
@[simp] theorem fetched_pin (i : Instr) (s : State) : (fetched i s).pin = s.pin := rfl
@[simp] theorem fetched_srch (i : Instr) (s : State) : (fetched i s).srch = s.srch := rfl
@[simp] theorem fetched_m (i : Instr) (s : State) : (fetched i s).m = s.m := rfl
@[simp] theorem fetched_dest (i : Instr) (s : State) : (fetched i s).dest = s.dest := rfl
@[simp] theorem fetched_env (i : Instr) (s : State) : (fetched i s).env = s.env := rfl
@[simp] theorem fetched_out (i : Instr) (s : State) : (fetched i s).out = s.out := rfl

/-! A truncated fetch consumes the queue (R155). -/

@[simp] theorem fetchedNop_cfg (s : State) : (fetchedNop s).cfg = s.cfg := rfl
@[simp] theorem fetchedNop_q (s : State) : (fetchedNop s).q = { s.q with rd := s.q.wr } := rfl
@[simp] theorem fetchedNop_d (s : State) : (fetchedNop s).d = { busy := true, instr := .nop } := rfl
@[simp] theorem fetchedNop_p (s : State) : (fetchedNop s).p = s.p := rfl
@[simp] theorem fetchedNop_pin (s : State) : (fetchedNop s).pin = s.pin := rfl
@[simp] theorem fetchedNop_srch (s : State) : (fetchedNop s).srch = s.srch := rfl
@[simp] theorem fetchedNop_m (s : State) : (fetchedNop s).m = s.m := rfl
@[simp] theorem fetchedNop_dest (s : State) : (fetchedNop s).dest = s.dest := rfl
@[simp] theorem fetchedNop_env (s : State) : (fetchedNop s).env = s.env := rfl
@[simp] theorem fetchedNop_out (s : State) : (fetchedNop s).out = s.out := rfl

/-! `begin()` sets every block field (R55, R111). -/

@[simp] theorem blockReset_cfg (s : State) : (s.blockReset).cfg = s.cfg := rfl
@[simp] theorem blockReset_q (s : State) : (s.blockReset).q = Queue.reset s.cfg := rfl
@[simp] theorem blockReset_d (s : State) : (s.blockReset).d = Flight.reset := rfl
@[simp] theorem blockReset_p (s : State) : (s.blockReset).p = Prims.reset := rfl
@[simp] theorem blockReset_pin (s : State) : (s.blockReset).pin = .released := rfl
@[simp] theorem blockReset_srch (s : State) : (s.blockReset).srch = Search.reset := rfl
@[simp] theorem blockReset_m (s : State) :
    (s.blockReset).m = { fault := none, begun := true } := rfl
@[simp] theorem blockReset_dest (s : State) : (s.blockReset).dest = s.dest := rfl
@[simp] theorem blockReset_env (s : State) : (s.blockReset).env = s.env := rfl
@[simp] theorem blockReset_out (s : State) : (s.blockReset).out = s.out := rfl

/-! A start scan clears search state alone (R223). -/

@[simp] theorem searchClear_cfg (s : State) : (searchClear s).cfg = s.cfg := rfl
@[simp] theorem searchClear_q (s : State) : (searchClear s).q = s.q := rfl
@[simp] theorem searchClear_d (s : State) : (searchClear s).d = s.d := rfl
@[simp] theorem searchClear_p (s : State) : (searchClear s).p = s.p := rfl
@[simp] theorem searchClear_pin (s : State) : (searchClear s).pin = s.pin := rfl
@[simp] theorem searchClear_srch (s : State) :
    (searchClear s).srch = { s.srch with rom := Rom.zero, ld := 0, lfd := 0, lastDevice := false } := rfl
@[simp] theorem searchClear_m (s : State) : (searchClear s).m = s.m := rfl
@[simp] theorem searchClear_dest (s : State) : (searchClear s).dest = s.dest := rfl
@[simp] theorem searchClear_env (s : State) : (searchClear s).env = s.env := rfl
@[simp] theorem searchClear_out (s : State) : (searchClear s).out = s.out := rfl

/-! The per-pass cursors (R223). -/

@[simp] theorem searchInit_cfg (s : State) : (searchInit s).cfg = s.cfg := rfl
@[simp] theorem searchInit_q (s : State) : (searchInit s).q = s.q := rfl
@[simp] theorem searchInit_d (s : State) : (searchInit s).d = s.d := rfl
@[simp] theorem searchInit_p (s : State) : (searchInit s).p = s.p := rfl
@[simp] theorem searchInit_pin (s : State) : (searchInit s).pin = s.pin := rfl
@[simp] theorem searchInit_srch (s : State) :
    (searchInit s).srch = { s.srch with bitPos := 1, byteIdx := 0, mask := 0x01, lastZero := 0, cmdI := 0, phase := .sReset } := rfl
@[simp] theorem searchInit_m (s : State) : (searchInit s).m = s.m := rfl
@[simp] theorem searchInit_dest (s : State) : (searchInit s).dest = s.dest := rfl
@[simp] theorem searchInit_env (s : State) : (searchInit s).env = s.env := rfl
@[simp] theorem searchInit_out (s : State) : (searchInit s).out = s.out := rfl

/-! The end of a search instruction (R233). -/

@[simp] theorem searchEnd_cfg (r : ResultStatus) (s : State) : (searchEnd r s).cfg = s.cfg := rfl
@[simp] theorem searchEnd_q (r : ResultStatus) (s : State) :
    (searchEnd r s).q = { s.q with resStatus := r } := rfl
@[simp] theorem searchEnd_d (r : ResultStatus) (s : State) : (searchEnd r s).d = s.d := rfl
@[simp] theorem searchEnd_p (r : ResultStatus) (s : State) : (searchEnd r s).p = s.p := rfl
@[simp] theorem searchEnd_pin (r : ResultStatus) (s : State) : (searchEnd r s).pin = s.pin := rfl
@[simp] theorem searchEnd_srch (r : ResultStatus) (s : State) :
    (searchEnd r s).srch = { s.srch with phase := .sIdle } := rfl
@[simp] theorem searchEnd_m (r : ResultStatus) (s : State) : (searchEnd r s).m = s.m := rfl
@[simp] theorem searchEnd_dest (r : ResultStatus) (s : State) : (searchEnd r s).dest = s.dest := rfl
@[simp] theorem searchEnd_env (r : ResultStatus) (s : State) : (searchEnd r s).env = s.env := rfl
@[simp] theorem searchEnd_out (r : ResultStatus) (s : State) : (searchEnd r s).out = s.out := rfl

end Sys2Proof.Machine
end

