-- ==== Sys2Proof/Laws/Ops.lean ====
section
/-! SUPPORT. One lemma for each shared operation, saying once everything it does. -/

namespace Sys2Proof.Machine

/-! ### Outcomes -/

@[simp] theorem andThen_next (s : State) (f : State → Result) : andThen (.next s) f = f s := rfl

@[simp] theorem andThen_fault (e : Fault) (f : State → Result) :
    andThen (.fault e) f = .fault e := rfl

@[simp] theorem andThen_refused (e : Refusal) (f : State → Result) :
    andThen (.refused e) f = .refused e := rfl

/-- A composite answers a next state exactly when both parts do. -/
theorem andThen_eq_next {r : Result} {f : State → Result} {t : State} :
    andThen r f = .next t ↔ ∃ s, r = .next s ∧ f s = .next t := by
  cases r <;> simp

/-- A composite faults when one of its parts does. -/
theorem andThen_eq_fault {r : Result} {f : State → Result} {e : Fault} :
    andThen r f = .fault e ↔ r = .fault e ∨ ∃ s, r = .next s ∧ f s = .fault e := by
  cases r <;> simp

theorem andThen_assoc (r : Result) (f g : State → Result) :
    andThen (andThen r f) g = andThen r (fun s => andThen (f s) g) := by
  cases r <;> rfl

@[simp] theorem answer_eq_next {r : HostResult} {s t : State} :
    answer r s = .next t ↔ emit (.returned r) s = t := by simp [answer]

@[simp] theorem retireIf_done (k : Kind) (s : State) :
    retireIf k (s, true) = .next (complete k s) := rfl

@[simp] theorem retireIf_busy (k : Kind) (s : State) : retireIf k (s, false) = .next s := rfl

/-! ### The environment -/

/-- A draw changes the bus and the free-value counter alone. -/
theorem drawLevel_env (e : Env) :
    (drawLevel e).2 = { e with bus := (drawLevel e).2.bus, free := (drawLevel e).2.free } := by
  unfold drawLevel
  split <;> rfl

theorem busReset_env (e : Env) : busReset e = { e with bus := (busReset e).bus } := by
  unfold busReset
  split <;> rfl

theorem busWritten_env (p : Params) (x : Bool) (e : Env) :
    busWritten p x e = { e with bus := (busWritten p x e).bus } := by
  unfold busWritten
  split <;> rfl

@[simp] theorem drawLevel_time (e : Env) : (drawLevel e).2.time = e.time := by
  rw [drawLevel_env]
@[simp] theorem drawLevel_calls (e : Env) : (drawLevel e).2.calls = e.calls := by
  rw [drawLevel_env]
@[simp] theorem drawLevel_handlers (e : Env) : (drawLevel e).2.handlers = e.handlers := by
  rw [drawLevel_env]
@[simp] theorem drawLevel_hooks (e : Env) : (drawLevel e).2.hooks = e.hooks := by
  rw [drawLevel_env]
@[simp] theorem busReset_time (e : Env) : (busReset e).time = e.time := by rw [busReset_env]
@[simp] theorem busReset_calls (e : Env) : (busReset e).calls = e.calls := by rw [busReset_env]
@[simp] theorem busReset_handlers (e : Env) : (busReset e).handlers = e.handlers := by
  rw [busReset_env]
@[simp] theorem busReset_hooks (e : Env) : (busReset e).hooks = e.hooks := by rw [busReset_env]
@[simp] theorem busWritten_time (p : Params) (x : Bool) (e : Env) :
    (busWritten p x e).time = e.time := by rw [busWritten_env]
@[simp] theorem busWritten_calls (p : Params) (x : Bool) (e : Env) :
    (busWritten p x e).calls = e.calls := by rw [busWritten_env]
@[simp] theorem busWritten_handlers (p : Params) (x : Bool) (e : Env) :
    (busWritten p x e).handlers = e.handlers := by rw [busWritten_env]
@[simp] theorem busWritten_hooks (p : Params) (x : Bool) (e : Env) :
    (busWritten p x e).hooks = e.hooks := by rw [busWritten_env]

/-! ### Bus primitives -/

/-- A sample of a line the block does not pull low reads what the devices leave. -/
theorem sample_of_not_low {s : State} (h : s.pin ≠ .low) :
    sample s =
      ({ s with env := (drawLevel s.env).2, out := s.out ++ [.bus (.sample (drawLevel s.env).1)] },
        (drawLevel s.env).1) := by
  cases hp : s.pin <;> simp [sample, lineLevel, emit, hp] at h ⊢

/-- All that a write slot does (R174). -/
theorem writeSlot_eq (b power : Bool) (s : State) :
    writeSlot b power s =
      { s with
        pin := if power then .high else .released
        env := busWritten s.cfg b s.env
        out := s.out ++ slotOutput s.cfg b power } := by
  cases b <;> cases power <;>
    simp [writeSlot, slotOutput, delay, driveLow, driveHigh, release, emit]

/-- All that a read slot does, and the bit it returns (R179). -/
theorem readSlot_eq (s : State) :
    readSlot s =
      ({ s with
         pin := .released
         env := (drawLevel s.env).2
         out := s.out ++ readOutput s.cfg (drawLevel s.env).1 }, (drawLevel s.env).1) := by
  unfold readSlot
  rw [sample_of_not_low (by simp)]
  simp [readOutput, delay, driveLow, release, emit]

/-- All that phase 0 of a reset does (R172). -/
theorem resetStart_eq (s : State) :
    resetStart s =
      { s with
        pin := .low, out := s.out ++ [.bus .driveLow]
        p := { s.p with rstT0 := now s, rstPhase := .phase1 } } := rfl

/-- All that phase 1 of a reset does once its time is over (R172). -/
theorem resetRelease_eq (s : State) :
    resetRelease s =
      { s with
        pin := .released
        p := { s.p with rstT1 := now s, rstPhase := .phase2 }
        q := { s.q with presence := !(drawLevel (busReset s.env)).1 }
        env := (drawLevel (busReset s.env)).2
        out := s.out ++ presenceOutput s.cfg (drawLevel (busReset s.env)).1 } := by
  unfold resetRelease
  dsimp only
  rw [sample_of_not_low (by simp)]
  simp [presenceOutput, presenceOf, delay, release, emit]

/-- Every case of the reset primitive (R172). -/
theorem resetStep_cases (s : State) :
    (s.p.rstPhase = .phase0 ∧ resetStep s = (resetStart s, false)) ∨
    (s.p.rstPhase = .phase1 ∧ elapsed s.cfg (now s) s.p.rstT0 < s.cfg.tRstLow ∧
      resetStep s = (s, false)) ∨
    (s.p.rstPhase = .phase1 ∧ s.cfg.tRstLow ≤ elapsed s.cfg (now s) s.p.rstT0 ∧
      resetStep s = (resetRelease s, false)) ∨
    (s.p.rstPhase = .phase2 ∧ elapsed s.cfg (now s) s.p.rstT1 < s.cfg.tRstRec ∧
      resetStep s = (s, false)) ∨
    (s.p.rstPhase = .phase2 ∧ s.cfg.tRstRec ≤ elapsed s.cfg (now s) s.p.rstT1 ∧
      resetStep s = ({ s with p.rstPhase := .phase0 }, true)) := by
  unfold resetStep
  split <;> rename_i hp
  · simp [hp]
  · split <;> rename_i h
    · simp [hp, h]
    · simp [hp, Nat.lt_of_not_le h]
  · split <;> rename_i h
    · simp [hp, h]
    · simp [hp, Nat.lt_of_not_le h]

/-! ### Appends -/

/-- Every case of an append (R114). -/
theorem appendBytes_cases (bytes : List Byte) (s : State) :
    (cannotAppend s = true ∧ appendBytes bytes s = (s, .wrongState)) ∨
    (cannotAppend s = false ∧ s.q.qend < s.q.wr + bytes.length ∧
      appendBytes bytes s = (s, .bufferFull)) ∨
    (cannotAppend s = false ∧ s.q.wr + bytes.length ≤ s.q.qend ∧
      appendBytes bytes s =
        ({ s with q.buf := memWriteBytes s.q.buf s.q.wr bytes, q.wr := s.q.wr + bytes.length },
          .ok)) := by
  unfold appendBytes
  split
  · simp_all
  · split <;> simp_all

/-- In the wrong state a multi-append does nothing (R135, D31). -/
theorem appendSeq_wrongState (is : List Instr) {s : State} (h : cannotAppend s = true) :
    appendSeq is s = (s, .wrongState) := by
  cases is <;> simp [appendSeq, appendInstr, appendBytes, h]

/-! ### Calls from inside `handle()` -/

/-- What calls made while a transaction executes can change: the accumulator, to 0, and the outputs
(R134). -/
def OnlyDrained (s t : State) : Prop :=
  (t.q.acc = s.q.acc ∨ t.q.acc = 0) ∧ t = { s with q.acc := t.q.acc, out := t.out } ∧
    ∃ os : List HostResult, t.out = s.out ++ os.map Output.returned

theorem OnlyDrained.refl (s : State) : OnlyDrained s s := ⟨.inl rfl, rfl, [], by simp⟩

theorem OnlyDrained.trans {s t u : State} (h : OnlyDrained s t) (h' : OnlyDrained t u) :
    OnlyDrained s u := by
  obtain ⟨ha, hs, os, ho⟩ := h
  obtain ⟨ha', hs', os', ho'⟩ := h'
  refine ⟨?_, ?_, os ++ os', by simp [ho', ho]⟩
  · rcases ha' with e | e
    · rw [e]; exact ha
    · exact .inr e
  · rw [hs', hs]

theorem onlyDrained_answer (r : HostResult) (s : State) :
    OnlyDrained s (emit (.returned r) s) := ⟨.inl rfl, rfl, [r], by simp⟩

/-- A call made while a transaction executes: if it answers, it only drained. -/
theorem hostCall_executing {op : HostOp} {s t : State} (hb : s.m.begun = true)
    (hx : s.q.st = .executing) (h : hostCall op s = .next t) : OnlyDrained s t := by
  have hc : cannotAppend s = true := by simp [cannotAppend, hx]
  have happ : ∀ i, appendInstr i s = (s, .wrongState) := fun i => by
    simp [appendInstr, appendBytes, hc]
  simp only [hostCall, hb, Bool.not_true, Bool.and_false, Bool.false_eq_true, if_false] at h
  cases op <;> simp only [hostOpEffect] at h
  case begin => simp [opBegin, hb] at h
  case handle => simp at h
  case getData =>
    simp only [opGetData, answer_eq_next] at h
    subst h
    exact ⟨.inr rfl, rfl, [.byte s.q.acc], by simp⟩
  case wait =>
    simp only [opWait, happ, answerCode] at h
    split at h
    · rw [answer_eq_next] at h; subst h; exact onlyDrained_answer ..
    · simp at h
  case registerCallback =>
    simp only [opRegisterCallback, happ, answerCode] at h
    split at h
    · rw [answer_eq_next] at h; subst h; exact onlyDrained_answer ..
    · simp at h
  case readBytes =>
    simp only [opReadBytes, appendSeq_wrongState _ hc, answerCode] at h
    split at h
    · rw [answer_eq_next] at h; subst h; exact onlyDrained_answer ..
    · simp at h
  case crc8 =>
    simp only [opCrc8] at h
    split at h
    · simp at h
    · rw [answer_eq_next] at h; subst h; exact onlyDrained_answer ..
  all_goals
    simp [opBeginTransaction, opCommit, opReset, opWriteBit, opWriteBitWithPower, opReadBit,
      opWriteBytes, opSearchFirst, opSearchNext, opPower, opUnpower, opInProgress,
      opGetLastSearchResult, happ, appendSeq_wrongState _ hc, answerCode, hx] at h
    subst h
    exact onlyDrained_answer ..

/-- A run of such calls: if it answers, it only drained. -/
theorem runNested_executing {ops : List HostOp} {s t : State} (hb : s.m.begun = true)
    (hx : s.q.st = .executing) (h : runNested ops s = .next t) : OnlyDrained s t := by
  induction ops generalizing s with
  | nil =>
    simp only [runNested, Host.Outcome.next.injEq] at h
    exact h ▸ OnlyDrained.refl s
  | cons op ops ih =>
    obtain ⟨u, hu, ht⟩ := andThen_eq_next.mp h
    have h1 := hostCall_executing hb hx hu
    have hub : u.m.begun = true := by rw [h1.2.1]; exact hb
    have hux : u.q.st = .executing := by rw [h1.2.1]; exact hx
    exact h1.trans (ih hub hux ht)

/-- An allowed call made while a transaction executes answers (R134). -/
theorem hostCall_allowed {op : HostOp} {s : State} (hb : s.m.begun = true)
    (hok : allowedNested s.cfg op = true) : ∃ t, hostCall op s = .next t := by
  cases op <;>
    simp_all [allowedNested, hostCall, hostOpEffect, answer, answerCode, opBeginTransaction,
      opCommit, opReset, opWriteBit, opWriteBitWithPower, opReadBit, opWriteBytes, opReadBytes,
      opSearchFirst, opSearchNext, opPower, opUnpower, opWait, opRegisterCallback, opInProgress,
      opGetData, opGetLastSearchResult, opCrc8] <;>
    split <;> first | omega | simp_all

/-! ### Fetch and dispatch -/

/-- With bytes left a fetch sees the tag at the read cursor (R152). -/
theorem fetchWindow_eq_cons {s : State} (h : s.q.rd < s.q.wr) :
    fetchWindow s =
      queueByte s.q.buf s.q.rd :: queueRun s.q.buf (s.q.rd + 1) (fetchWant s - 1) := by
  have hw : fetchWant s = (fetchWant s - 1) + 1 := by
    simp only [fetchWant, maxLength]
    omega
  rw [fetchWindow, hw, queueRun_succ, Nat.add_sub_cancel]

/-- What a fetch sees does not depend on the inputs. -/
@[simp] theorem fetchWindow_env (s : State) (e : Env) : fetchWindow { s with env := e } = fetchWindow s :=
  rfl

theorem fetch_of_instr {s : State} {i : Instr} {rest : List Byte}
    (h : decode s.cfg (fetchWindow s) = .instr i rest) : fetch s = fetched i s := by simp [fetch, h]

theorem fetch_of_truncated {s : State} (h : decode s.cfg (fetchWindow s) = .truncated) :
    fetch s = fetchedNop s := by simp [fetch, h]

theorem fetch_of_reservedTag {s : State} (h : decode s.cfg (fetchWindow s) = .reservedTag) :
    fetch s = raiseIllegalTag s := by simp [fetch, h]

/-- Every case of a fetch with bytes left (R152, R155, R156). -/
theorem fetch_cases {s : State} (h : s.q.rd < s.q.wr) :
    (∃ i rest, decode s.cfg (fetchWindow s) = .instr i rest ∧ fetch s = fetched i s) ∨
    (decode s.cfg (fetchWindow s) = .truncated ∧ fetch s = fetchedNop s) ∨
    (decode s.cfg (fetchWindow s) = .reservedTag ∧ fetch s = raiseIllegalTag s) := by
  unfold fetch
  split <;> rename_i hd
  · exact .inl ⟨_, _, hd, rfl⟩
  · exact .inr (.inl ⟨hd, rfl⟩)
  · exact .inr (.inr ⟨hd, rfl⟩)
  · rw [fetchWindow_eq_cons h] at hd
    simp only [decode] at hd
    split at hd <;> simp only [decodeWait, decodeCallback, reduceCtorEq] at hd <;> split at hd <;>
      simp at hd

/-- Every case of a `handle()` call that reaches the dispatcher (R150, R275). -/
theorem dispatch_cases (s : State) :
    ((s.m.fault ≠ none ∨ s.q.st ≠ .executing) ∧ dispatch s = answer .hIdle s) ∨
    (s.m.fault = none ∧ s.q.st = .executing ∧ s.d.busy = true ∧ dispatch s = stepInFlight s) ∨
    (s.m.fault = none ∧ s.q.st = .executing ∧ s.d.busy = false ∧ s.q.wr ≤ s.q.rd ∧
      dispatch s = answer .hIdle { s with q.st := .idle }) ∨
    (s.m.fault = none ∧ s.q.st = .executing ∧ s.d.busy = false ∧ s.q.rd < s.q.wr ∧
      dispatch s = afterFetch (fetch s)) := by
  unfold dispatch
  cases hf : s.m.fault <;> cases hst : s.q.st <;> cases hb : s.d.busy <;> simp
  by_cases hq : s.q.wr ≤ s.q.rd <;> simp [hq, Nat.lt_of_not_le]

/-- What a step is: one host operation of the script, or a poll. -/
theorem step_cases (s : State) :
    (∃ op rest, s.env.calls = op :: rest ∧ step s = topCall op { s with env.calls := rest }) ∨
    (s.env.calls = [] ∧ step s = pollCall s) := by
  unfold step hostStep
  split <;> simp_all

/-- A top-level operation is a `handle()` or a call of 40_builder.md. -/
theorem topCall_cases (op : HostOp) (s : State) :
    (∃ time, op = .handle time ∧ topCall op s = handleCall time s) ∨
    ((∀ time, op ≠ .handle time) ∧ topCall op s = hostCall op s) := by
  cases op <;> simp [topCall]

end Sys2Proof.Machine
end

