-- ==== Sys2Proof/Laws/Search.lean ====
section
/-! SUPPORT. Everything a search step does, phase by phase (43_search.md R223 to R231). -/

namespace Sys2Proof.Machine

/-- Every case of the beginning of a pass (R223, R224). -/
theorem searchBegin_cases (start : Bool) (s : State) :
    (start = true ∧ searchBegin start s = searchReset (searchInit (searchClear s))) ∨
    (start = false ∧ s.srch.lastDevice = true ∧
      searchBegin start s = ({ s with q.resStatus := .notFound }, true)) ∨
    (start = false ∧ s.srch.lastDevice = false ∧
      searchBegin start s = searchReset (searchInit s)) := by
  cases start <;> cases h : s.srch.lastDevice <;> simp [searchBegin, h]

/-- Every case of the reset phase (R224). -/
theorem searchReset_cases (s : State) :
    ((resetStep s).2 = false ∧ searchReset s = ((resetStep s).1, false)) ∨
    ((resetStep s).2 = true ∧ (resetStep s).1.q.presence = true ∧
      searchReset s = ({ (resetStep s).1 with srch.phase := .sCmd }, false)) ∨
    ((resetStep s).2 = true ∧ (resetStep s).1.q.presence = false ∧
      searchReset s = (searchEnd .error (resetStep s).1, true)) := by
  unfold searchReset
  cases h : (resetStep s).2 <;> cases h' : (resetStep s).1.q.presence <;> simp [h, h']

/-- All that a command step does (R225). -/
theorem searchCmd_eq (s : State) :
    searchCmd s =
      ({ s with
         pin := .released
         env := busWritten s.cfg ((searchCommand s.cfg).getLsbD s.srch.cmdI) s.env
         out := s.out ++ slotOutput s.cfg ((searchCommand s.cfg).getLsbD s.srch.cmdI) false
         srch := { s.srch with
           cmdI := s.srch.cmdI + 1
           phase := if s.srch.cmdI + 1 = 8 then .sReadId else s.srch.phase } }, false) := by
  simp [searchCmd, writeSlot_eq]

/-- All that the read of the bit does (R226). -/
theorem searchReadId_eq (s : State) :
    searchReadId s =
      ({ s with
         pin := .released
         env := (drawLevel s.env).2
         out := s.out ++ readOutput s.cfg (drawLevel s.env).1
         srch := { s.srch with idBit := (drawLevel s.env).1, phase := .sReadCmp } }, false) := by
  simp [searchReadId, readSlot_eq]

/-- All that the read of the complement does (R227 to R229). -/
theorem searchReadCmp_eq (s : State) :
    searchReadCmp s =
      (let t := { s with
         pin := .released
         env := (drawLevel s.env).2
         out := s.out ++ readOutput s.cfg (drawLevel s.env).1 }
       if s.srch.idBit && (drawLevel s.env).1 then (searchEnd .notFound t, true)
       else if s.srch.idBit != (drawLevel s.env).1 then
         ({ t with srch := { s.srch with dir := s.srch.idBit, phase := .sWriteDir } }, false)
       else ({ t with srch := { choose s.srch with phase := .sWriteDir } }, false)) := by
  simp [searchReadCmp, readSlot_eq]

/-- A choice changes the direction, and the record of a zero when the direction is 0 (R228, R229). -/
theorem choose_eq (x : Search) :
    choose x =
      { x with
        dir := chooseDir x
        lastZero := if chooseDir x then x.lastZero else x.bitPos
        lfd := if chooseDir x = false ∧ x.bitPos ≤ 8 then x.bitPos else x.lfd } := by
  cases h : chooseDir x <;> simp [choose, recordZero, h]

/-- All that a direction write does (R230, R231). -/
theorem searchWriteDir_eq (s : State) :
    searchWriteDir s =
      (let x := nextCursor { s.srch with
         rom := setCursorBit s.srch.rom s.srch.byteIdx s.srch.mask s.srch.dir }
       let u := { s with
         pin := .released
         env := busWritten s.cfg s.srch.dir s.env
         out := s.out ++ slotOutput s.cfg s.srch.dir false
         srch := x }
       if x.byteIdx < 8 then ({ u with srch := { x with phase := .sReadId } }, false)
       else (searchComplete u, true)) := by
  simp [searchWriteDir, writeSlot_eq]

/-- Every case of the completion of a pass (R231). -/
theorem searchComplete_cases (s : State) :
    (romByte s.srch.rom 0 = 0 ∧ searchComplete s = { s with
      q := { s.q with resStatus := .notFound }
      srch := { s.srch with
        ld := s.srch.lastZero
        lastDevice := exhaustedAfter s.srch.lastDevice s.srch.lastZero
        phase := .sIdle } }) ∨
    (romByte s.srch.rom 0 ≠ 0 ∧ searchComplete s = { s with
      q := { s.q with resStatus := .found, resAddr := s.srch.rom }
      srch := { s.srch with
        ld := s.srch.lastZero
        lastDevice := exhaustedAfter s.srch.lastDevice s.srch.lastZero
        phase := .sIdle } }) := by
  by_cases h : romByte s.srch.rom 0 = 0
  · exact .inl ⟨h, by simp [searchComplete, searchEnd, h]⟩
  · exact .inr ⟨h, by simp only [searchComplete, searchEnd, if_neg h]⟩

/-- A cursor mask shifted out of its byte is the top bit; otherwise it is the next bit. -/
theorem mask_shift : ∀ k < 8, ∀ m : Byte, m = 1 <<< k →
    (m <<< 1 = 0 ↔ k = 7) ∧ (k < 7 → m <<< 1 = 1 <<< (k + 1)) := by decide

/-! ### The cursors -/

/-- Where the cursors stand after a direction write (R230). -/
theorem nextCursor_eq {x : Search} {k : Nat} (hk : k < 8) (hm : x.mask = 1 <<< k) :
    nextCursor x =
      { x with
        bitPos := x.bitPos + 1
        byteIdx := if k = 7 then x.byteIdx + 1 else x.byteIdx
        mask := if k = 7 then 0x01 else 1 <<< (k + 1) } := by
  obtain ⟨h, h'⟩ := mask_shift k hk _ hm
  by_cases h7 : k = 7
  · simp only [nextCursor, if_pos (h.mpr h7), if_pos h7]
  · have hz : ¬x.mask <<< 1 = 0 := fun hz => h7 (h.mp hz)
    simp only [nextCursor, if_neg hz, if_neg h7]
    rw [h' (by omega)]

/-- A byte of a ROM code after a byte of it is set. -/
theorem romByte_romSetByte (r : Rom) {i j : Nat} (b : Byte) (hj : j < 8) :
    romByte (romSetByte r i b) j = if j = i then b else romByte r j := by
  have hget : ∀ r : Rom, romByte r j = r[j] := fun r => by
    simp [romByte, List.getD_eq_getElem?_getD, hj]
  rw [hget, hget, romSetByte, Vector.getElem_setIfInBounds]
  by_cases h : j = i
  · simp [h]
  · simp [h, Ne.symm h]

/-- The only bit of a cursor mask. -/
theorem mask_bit : ∀ k < 8, ∀ l < 8, ∀ m : Byte, m = 1 <<< k → m.getLsbD l = decide (l = k) := by
  decide

/-- The bits of a ROM code after the bit under the cursors is set (R230, R66). -/
theorem romBit_setCursorBit (r : Rom) {i k n : Nat} {m : Byte} (b : Bool) (hk : k < 8)
    (hm : m = 1 <<< k) (h1 : 1 ≤ n) (h2 : n ≤ 64) :
    romBit (setCursorBit r i m b) n = if n = 8 * i + k + 1 then b else romBit r n := by
  have hl : (n - 1) % 8 < 8 := Nat.mod_lt _ (by decide)
  have hbit := mask_bit k hk _ hl m hm
  have hdir : (if b then romByte r i ||| m else romByte r i &&& ~~~m).getLsbD ((n - 1) % 8) =
      if (n - 1) % 8 = k then b else (romByte r i).getLsbD ((n - 1) % 8) := by
    cases b <;>
      simp only [Bool.false_eq_true, if_true, if_false, BitVec.getLsbD_or, BitVec.getLsbD_and,
        BitVec.getLsbD_not, hbit, hl, decide_true, Bool.true_and] <;>
      split <;> simp [*]
  rw [romBit, setCursorBit, romByte_romSetByte _ _ (by omega), romBit]
  by_cases hj : (n - 1) / 8 = i
  · rw [if_pos hj, hdir, hj]
    by_cases hn : (n - 1) % 8 = k
    · have he : n = 8 * i + k + 1 := by omega
      rw [if_pos hn, if_pos he]
    · have he : n ≠ 8 * i + k + 1 := by omega
      rw [if_neg hn, if_neg he]
  · have he : n ≠ 8 * i + k + 1 := by omega
    rw [if_neg hj, if_neg he]

end Sys2Proof.Machine
end

