-- ==== Sys2Proof/Laws/Invariants.lean ====
section
/-! SUPPORT. What the invariants depend on, and what they say of an instruction in flight (10_state.md R54). -/

namespace Sys2Proof.Machine

/-- `Inv` reads the cursors, the transaction state, the slot, the timing registers, the search state and
the capacity, and nothing else. -/
theorem Inv.congr {s t : State} (h : Inv s) (hcfg : t.cfg = s.cfg)
    (hq : t.q.wr = s.q.wr ∧ t.q.rd = s.q.rd ∧ t.q.qend = s.q.qend ∧ t.q.st = s.q.st)
    (hd : t.d = s.d) (hp : t.p = s.p) (hs : t.srch = s.srch) : Inv t := by
  obtain ⟨h1, h2, h3, h4⟩ := hq
  constructor <;> simp only [hcfg, h1, h2, h3, h4, hd, hp, hs]
  · exact h.idle_quiet
  · exact h.building_quiet
  · exact h.cursors
  · exact h.busy_executing
  · exact h.search_in_flight
  · exact h.reset_in_flight
  · exact h.wait_in_flight
  · exact h.cursor_mask

/-- `Ranges` reads the parameters, the timing registers, the search state and the pin. -/
theorem Ranges.congr {s t : State} (h : Ranges s) (hcfg : t.cfg = s.cfg) (hp : t.p = s.p)
    (hs : t.srch = s.srch) (hpin : t.pin = s.pin) : Ranges t := by
  constructor <;> simp only [hcfg, hp, hs, hpin]
  · exact h.rstT0
  · exact h.rstT1
  · exact h.waitT0
  · exact h.ld
  · exact h.lfd
  · exact h.bitPos
  · exact h.byteIdx
  · exact h.lastZero
  · exact h.cmdI
  · exact h.byteIdx_inPass
  · exact h.cmdI_beforeBits
  · exact h.pin_phase1
  · exact h.pin_phase2

/-- Calls from inside `handle()` keep the invariants (R134). -/
theorem Inv.onlyDrained {s t : State} (h : Inv s) (hd : OnlyDrained s t) : Inv t := by
  obtain ⟨-, he, -⟩ := hd
  refine h.congr ?_ ⟨?_, ?_, ?_, ?_⟩ ?_ ?_ ?_ <;> rw [he]

/-- While an instruction other than a Reset or a search is in flight, no reset and no pass is (R54 (e), (f)). -/
theorem Inv.quiet {s : State} {i : Instr} (h : Inv s) (hi : s.d.instr = .instr i)
    (hr : i ≠ .reset) (hs : ¬(InFlight.instr i).isSearch) :
    s.p.rstPhase = .phase0 ∧ s.srch.phase = .sIdle := by
  refine ⟨Classical.byContradiction fun hc => ?_, Classical.byContradiction fun hc => ?_⟩
  · rcases (h.reset_in_flight hc).2 with h' | h' <;> rw [hi] at h'
    · exact hr (by simpa using h')
    · exact hs h'.1
  · exact hs (hi ▸ (h.search_in_flight hc).2)

/-- While an instruction other than a Wait is in flight, no Wait has started (R54 (g)). -/
theorem Inv.not_waiting {s : State} {i : Instr} (h : Inv s) (hi : s.d.instr = .instr i)
    (hw : ¬(InFlight.instr i).isWait) : s.p.waitStarted = false := by
  cases hs : s.p.waitStarted
  · rfl
  · exact absurd (hi ▸ (h.wait_in_flight hs).2) hw

/-- With no instruction in flight nothing is under way (R54 (e), (f), (g)). -/
theorem Inv.idle_slot {s : State} (h : Inv s) (hb : s.d.busy = false) :
    s.p.rstPhase = .phase0 ∧ s.p.waitStarted = false ∧ s.srch.phase = .sIdle := by
  refine ⟨Classical.byContradiction fun hc => ?_, ?_, Classical.byContradiction fun hc => ?_⟩
  · simpa [hb] using (h.reset_in_flight hc).1
  · cases hs : s.p.waitStarted
    · rfl
    · simpa [hb] using (h.wait_in_flight hs).1
  · simpa [hb] using (h.search_in_flight hc).1

/-- A clock value fits its width (R171). -/
theorem now_lt (s : State) : now s < 2 ^ s.cfg.clockBits :=
  Nat.mod_lt _ (Nat.pow_pos (by decide))

/-- Elapsed time fits the clock's width, so a duration of `2^CLOCK_BITS` or more never elapses (R183). -/
theorem elapsed_lt (p : Params) (a b : Nat) : elapsed p a b < 2 ^ p.clockBits :=
  Nat.mod_lt _ (Nat.pow_pos (by decide))

/-- Elapsed time is the true time since the timestamp, modulo the clock's range (R171). -/
theorem elapsed_eq (p : Params) {time start : Nat} (h : start ≤ time) :
    elapsed p (time % 2 ^ p.clockBits) (start % 2 ^ p.clockBits) =
      (time - start) % 2 ^ p.clockBits := by
  obtain ⟨k, rfl⟩ := Nat.exists_eq_add_of_le h
  have hp : 0 < 2 ^ p.clockBits := Nat.pow_pos (by decide)
  have hs := Nat.mod_lt start hp
  have hk := Nat.mod_lt k hp
  simp only [elapsed, Nat.mod_mod, Nat.add_sub_cancel_left]
  rw [Nat.add_mod start k]
  generalize 2 ^ p.clockBits = n at *
  rcases Nat.lt_or_ge (start % n + k % n) n with hlt | hge
  · rw [Nat.mod_eq_of_lt hlt,
      show start % n + k % n + (n - start % n) = k % n + n by omega, Nat.add_mod_right, Nat.mod_mod]
  · rw [Nat.mod_eq_sub_mod hge, Nat.mod_eq_of_lt (by omega : start % n + k % n - n < n),
      show start % n + k % n - n + (n - start % n) = k % n by omega, Nat.mod_mod]

end Sys2Proof.Machine
end

