-- ==== Sys2Proof/Laws/PerInstr.lean ====
section
/-! SUPPORT. The family EncodedLength: an instruction's encoding is as long as `encodedLength` says (R80, R84). -/

namespace Sys2Proof.Laws.EncodedLength

/-- The encoding of `i` has the length the fetch moves the read cursor by. -/
def Statement (i : Instr) : Prop := ∀ p : Params, (encode p i).length = encodedLength p i

theorem reset : Statement .reset := fun _ => rfl
theorem w0 : Statement .w0 := fun _ => rfl
theorem w1 : Statement .w1 := fun _ => rfl
theorem pw0 : Statement .pw0 := fun _ => rfl
theorem pw1 : Statement .pw1 := fun _ => rfl
theorem read : Statement .read := fun _ => rfl
theorem srchf : Statement .srchf := fun _ => rfl
theorem srchn : Statement .srchn := fun _ => rfl
theorem power : Statement .power := fun _ => rfl
theorem unpower : Statement .unpower := fun _ => rfl

theorem wait (dur : Nat) : Statement (.wait dur) := fun p => by
  simp [encode, encodedLength, Nat.add_comm]

theorem callback (h c : Nat) : Statement (.callback h c) := fun p => by
  simp [encode, encodedLength]
  omega

end Sys2Proof.Laws.EncodedLength
end

