-- ==== Sys2Proof/Tests/Slice0.lean ====
section
/-! SUPPORT. Checks of the model against the spec's own tables and vectors, and for each statement with hypotheses a
concrete case that meets them. -/

namespace Sys2Proof.Tests

open Sys2Proof Sys2Proof.Machine

/-! ### Helpers -/

/-- The next state, if there is one. -/
def nextOf : Result → Option State
  | .next s => some s
  | .fault _ => none
  | .refused _ => none

/-- A read-out of the next state. -/
def see {α : Type} (f : State → α) (r : Result) : Option α := (nextOf r).map f

/-- After reset, with an instruction in flight. -/
def flying (i : Instr) : State :=
  { State.reset with q.st := .executing, d := { busy := true, instr := .instr i } }

/-- In flight, the clock at `time`, and these answers on the bus. -/
def flyingAt (i : Instr) (time : Nat) (answers : List Bool) : State :=
  { flying i with env.time := time, env.bus := .script answers }

/-- A Reset in flight in a phase, its timestamps at `t0`. -/
def resetting (f : RstPhase) (t0 time : Nat) (answers : List Bool) : State :=
  { flyingAt .reset time answers with
    p.rstPhase := f, p.rstT0 := t0, p.rstT1 := t0
    pin := if f = .phase1 then .low else .released }

/-- A SearchNext in flight, in a phase and at a bit position, with a resume point. -/
def searchingAt (f : SearchPhase) (bitPos ld : Nat) (idBit : Bool) (answers : List Bool) : State :=
  { flyingAt .srchn 480 answers with
    srch := { Search.reset with
      phase := f, bitPos := bitPos, byteIdx := (bitPos - 1) / 8, mask := 1 <<< ((bitPos - 1) % 8)
      ld := ld, idBit := idBit } }

/-- A Wait in flight that started at `t0`. -/
def waiting (dur t0 time : Nat) : State :=
  { flyingAt (.wait dur) time [] with p.waitStarted := true, p.waitT0 := t0 }

/-- A transaction being built, with this capacity and this write cursor. -/
def building (cap wr : Nat) : State :=
  { State.reset with cfg.cap := cap, q.qend := cap, q.st := .building, q.wr := wr }

/-- A committed queue. -/
def committed (bytes : List Byte) : State :=
  { State.reset with
    q.buf := memWriteBytes [] 0 bytes, q.wr := bytes.length, q.st := .executing }

/-- The queue's first bytes. -/
def queueOf (s : State) : List Byte :=
  (List.range s.q.wr).filterMap (memRead s.q.buf)

/-- The addresses A and C of 95_test_vectors.md. -/
def addrA : Rom := #v[0x28, 0xFF, 0x4C, 0x1A, 0x33, 0x16, 0x04, 0xBE]
def addrC : Rom := #v[0x10, 0x01, 0x02, 0x03, 0x04, 0x05, 0x06, 0x7B]

/-- The devices of A and C in a search at bit position `n`. -/
def busAt (ds : List Rom) (n : Nat) : BusEnv :=
  .devices { devices := [], active := ds.map (⟨·, false⟩), phase := .search n .idBit, replies := [] }

/-! ### WellFormed refuses ill-formed terms -/

theorem test_wellFormed_wait_too_long :
    Instr.wellFormed Params.default (.wait 0x100000000) = false := by decide
theorem test_wellFormed_handler_too_wide :
    Instr.wellFormed Params.default (.callback 0x10000 0) = false := by decide
theorem test_wellFormed_context_too_wide :
    Instr.wellFormed Params.default (.callback 0 0x10000) = false := by decide
theorem test_meets_DecodeOfEncodeIsTheInstruction :
    Instr.wellFormed Params.default (.wait 0xFFFFFFFF) = true ∧
      Instr.wellFormed Params.default (.callback 0xFFFF 0xFFFF) = true := by decide

/-! ### Decoding: words written out from 30_encoding.md R81, R82 and 95_test_vectors.md V1 to V10 -/

theorem test_decode_reset : decode Params.default [0b00000000#8] = .instr .reset [] := by decide
theorem test_decode_w0 : decode Params.default [0b00000001#8] = .instr .w0 [] := by decide
theorem test_decode_w1 : decode Params.default [0b00000010#8] = .instr .w1 [] := by decide
theorem test_decode_pw0 : decode Params.default [0b00000011#8] = .instr .pw0 [] := by decide
theorem test_decode_pw1 : decode Params.default [0b00000100#8] = .instr .pw1 [] := by decide
theorem test_decode_read : decode Params.default [0b00000101#8] = .instr .read [] := by decide
theorem test_decode_srchf : decode Params.default [0b00000110#8] = .instr .srchf [] := by decide
theorem test_decode_srchn : decode Params.default [0b00000111#8] = .instr .srchn [] := by decide
theorem test_decode_power : decode Params.default [0b00001000#8] = .instr .power [] := by decide
theorem test_decode_unpower : decode Params.default [0b00001001#8] = .instr .unpower [] := by decide
theorem test_decode_wait : decode Params.default
    [0b00001010#8, 0b10110000#8, 0b01110001#8, 0b00001011#8, 0b00000000#8, 0b00000010#8] =
    .instr (.wait 750000) [0b00000010#8] := by decide
theorem test_decode_callback : decode Params.default
    [0b00001011#8, 0b00000011#8, 0b00000000#8, 0b00110100#8, 0b00010010#8] =
    .instr (.callback 3 0x1234) [] := by decide
theorem test_decode_rejects :
    decode Params.default [0x0C] = .reservedTag ∧ decode Params.default [0xFF, 0x00] = .reservedTag ∧
      decode Params.default [0x0A, 0x10, 0x00, 0x00] = .truncated ∧
      decode Params.default [0x0B, 0x01, 0x00, 0x05] = .truncated ∧
      decode Params.default [] = .noBytes := by decide

/-- An opcode-table word carries the tag alone: the payload bytes are 0. -/
theorem test_decodeTableWord :
    decodeTableWord 8 0x02 = some .w1 ∧ decodeTableWord 8 0x0A = some (.wait 0) ∧
      decodeTableWord 40 0x12340003_0B = some (.callback 3 0x1234) ∧
      decodeTableWord 8 0x0C = none := by decide

/-- The very next step after `withFetchWord` runs the instruction. -/
theorem test_withFetchWord_runs :
    see (fun s => (s.pin, s.d.instr, s.q.rd)) (step (State.reset.withFetchWord 8 0x04)) =
      some (.high, .instr .pw1, 1) := by decide

/-! ### One step of each instruction (95_test_vectors.md section 2) -/

/-- T2: at 479 µs nothing; at 480 µs the release and the sample. -/
theorem test_reset_release_at_480 :
    see (fun s => (s.pin, s.p.rstPhase)) (exec .reset (resetting .phase1 0 479 [false])) =
      some (.low, .phase1) ∧
    see (fun s => (s.pin, s.p.rstPhase, s.q.presence)) (exec .reset (resetting .phase1 0 480 [false])) =
      some (.released, .phase2, true) := by decide

/-- T4: the low phase ends across the clock's wrap. -/
theorem test_reset_across_the_wrap :
    see (fun s => (s.p.rstPhase, s.p.rstT1))
      (exec .reset (resetting .phase1 0xFFFFFF00 0x1000000E0 [true])) = some (.phase2, 0xE0) := by decide

/-- P1v -/
theorem test_w0_slot : see (·.out) (exec .w0 (flying .w0)) = some (State.reset.out ++
    [.bus .driveLow, .bus (.delay 60), .bus .release, .bus (.delay 5), .finished .write0]) := by decide

/-- P7v: the slot ends the strong pull-up. -/
theorem test_w1_ends_strong_pull_up :
    see (·.pin) (exec .w1 { flying .w1 with pin := .high }) = some .released := by decide

/-- P3v -/
theorem test_pw0_ends_high : see (fun s => (s.pin, s.out)) (exec .pw0 (flying .pw0)) =
    some (.high, State.reset.out ++ [.bus .driveLow, .bus (.delay 60), .bus .driveHigh,
      .bus (.delay 5), .finished .powerWrite0]) := by decide

/-- P4v -/
theorem test_pw1_ends_high : see (fun s => (s.pin, s.out)) (exec .pw1 (flying .pw1)) =
    some (.high, State.reset.out ++ [.bus .driveLow, .bus (.delay 10), .bus .driveHigh,
      .bus (.delay 55), .finished .powerWrite1]) := by decide

/-- R1v, and the step of E2 from 0x80 to 0x40. -/
theorem test_read_folds :
    see (·.q.acc) (exec .read (flyingAt .read 0 [true])) = some 0x80 ∧
    see (·.q.acc) (exec .read { flyingAt .read 0 [false] with q.acc := 0x80 }) = some 0x40 := by decide

/-- P5v and P6v. -/
theorem test_power_unpower :
    see (·.pin) (exec .power (flying .power)) = some .high ∧
    see (·.pin) (exec .unpower { flying .unpower with pin := .high }) = some .released := by decide

/-- Section 2.8, call 1: the pass starts, and the slot is re-tagged. -/
theorem test_srchf_call_1 :
    see (fun s => (s.srch.phase, s.p.rstPhase, s.pin))
      (exec .srchf { flying .srchf with srch.rom := addrA }) = some (.sReset, .phase1, .low) ∧
    see (fun s => (s.d, s.srch.rom)) (exec .srchf { flying .srchf with srch.rom := addrA }) =
      some ({ busy := true, instr := .instr .srchn }, Rom.zero) := by decide

/-- S-c: an exhausted scan ends at once, without a bus action. -/
theorem test_srchn_exhausted :
    see (fun s => (s.q.resStatus, s.d.busy, s.out))
      (exec .srchn { flying .srchn with srch.lastDevice := true, q.resStatus := .found }) =
    some (.notFound, false, State.reset.out ++ [.finished .searchNext]) := by decide

/-- Section 2.8, calls 156 to 158: a discrepancy at position 49 beyond the resume point takes 0. -/
theorem test_srchn_discrepancy :
    see (fun s => (s.srch.dir, s.srch.lastZero, s.srch.lfd))
      (exec .srchn (searchingAt .sReadCmp 49 0 false [false])) = some (false, 49, 0) := by decide

/-- W3v: 999 µs is too short, 1000 µs is enough. -/
theorem test_wait_1000 :
    see (·.d.busy) (exec (.wait 1000) (waiting 1000 0 999)) = some true ∧
    see (·.d.busy) (exec (.wait 1000) (waiting 1000 0 1000)) = some false := by decide

/-- W4v: across the wrap; W2v: even a Wait of 0 takes two calls. -/
theorem test_wait_wrap_and_zero :
    see (·.d.busy) (exec (.wait 300) (waiting 300 0xFFFFFF9C 0x1000000C8)) = some false ∧
    see (·.d.busy) (exec (.wait 0) (flyingAt (.wait 0) 7 [])) = some true := by decide

/-- W6v -/
theorem test_copy :
    see (fun s => (memRead s.dest.mem 0x100, s.q.acc))
      (exec (.callback 0 0x100) { flying (.callback 0 0x100) with q.acc := 0x50 }) =
    some (some 0x50, 0x50) := by decide

/-- W5v, with a handler that drains the accumulator. -/
theorem test_callback :
    see (fun s => (s.out, s.q.acc)) (exec (.callback 3 7)
      { flying (.callback 3 7) with q.acc := 0x50, env.handlers := [[.getData]] }) =
    some (State.reset.out ++
      [.hostCallback 3 7, .returned (.byte 0x50), .finished .callback], 0) := by decide

/-! ### One host operation (95_test_vectors.md sections 1 and 2) -/

/-- V7, call 2: a truncated Wait is Nop and consumes the queue. -/
theorem test_truncated_is_nop :
    see (fun s => (s.q.rd, s.d.instr, s.d.busy))
      (topCall (.handle 500) { committed [0x02, 0x0A, 0x10] with q.rd := 1 }) =
    some (3, .nop, false) := by decide

/-- V9: a reserved tag sets the fault mark and nothing else. -/
theorem test_reserved_tag_is_fault :
    see (fun s => (s.m.fault, s.q.rd, s.d.busy, s.q.st)) (topCall (.handle 0) (committed [0x0C])) =
    some (some .illegalTag, 0, false, .executing) := by decide

/-- E1 -/
theorem test_writeBytes_bit_order :
    see queueOf (topCall (.writeBytes [0xB0] false) (building 64 0)) =
    some [0x01, 0x01, 0x01, 0x01, 0x02, 0x02, 0x01, 0x02] := by decide

/-- B10 and B12: the partial write stays; the power variant of a 0 bit. -/
theorem test_writeBytes_full_and_power :
    see queueOf (topCall (.writeBytes [0xFF] false) (building 4 0)) = some [0x02, 0x02, 0x02, 0x02] ∧
    see queueOf (topCall (.writeBytes [0x01] true) (building 8 0)) =
      some [0x02, 0x01, 0x01, 0x01, 0x01, 0x01, 0x01, 0x03] := by decide

/-- The example of R127. -/
theorem test_readBytes :
    see queueOf (topCall (.readBytes 1 0x200) (building 64 0)) =
    some [0x05, 0x05, 0x05, 0x05, 0x05, 0x05, 0x05, 0x05, 0x0B, 0x00, 0x00, 0x00, 0x02] := by decide

/-- B6 -/
theorem test_wait_append :
    see queueOf (topCall (.wait 7) (building 5 0)) = some [0x0A, 0x07, 0x00, 0x00, 0x00] := by decide

/-- The table of 95_test_vectors.md section 2.9. -/
theorem test_crc :
    crc8 [0x28, 0xFF, 0x4C, 0x1A, 0x33, 0x16, 0x04] = 0xBE ∧ crc8 addrC.toList = 0 ∧ crc8 [] = 0 := by
  decide +kernel

/-! ### The invariants hold of states with an instruction in flight -/

/-- With any instruction just fetched after reset. -/
theorem test_flying_invariants (i : Instr) : Inv (flying i) ∧ Ranges (flying i) := by
  refine ⟨⟨?_, ?_, ⟨Nat.le_refl _, Nat.zero_le _, rfl⟩, ?_, ?_, ?_, ?_, ⟨0, by decide, rfl, rfl⟩⟩, ?_⟩
  · exact fun h => nomatch h
  · exact fun h => nomatch h
  · exact fun _ => rfl
  · exact fun h => absurd rfl h
  · exact fun h => absurd rfl h
  · exact fun h => nomatch h
  · constructor <;> simp [flying, State.reset, State.blockReset, State.constructed, Prims.reset,
      Search.reset, SearchPhase.inPass, SearchPhase.beforeBits, Params.default]

/-- With a Reset in flight, in any phase. -/
theorem test_resetting_invariants (f : RstPhase) (t0 time : Nat) (answers : List Bool)
    (h : t0 < 2 ^ 32) :
    Inv (resetting f t0 time answers) ∧ Ranges (resetting f t0 time answers) := by
  refine ⟨⟨?_, ?_, ⟨Nat.le_refl _, Nat.zero_le _, rfl⟩, ?_, ?_, ?_, ?_, ⟨0, by decide, rfl, rfl⟩⟩, ?_⟩
  · exact fun h => nomatch h
  · exact fun h => nomatch h
  · exact fun _ => rfl
  · exact fun h => absurd rfl h
  · exact fun _ => ⟨rfl, .inl rfl⟩
  · exact fun h => nomatch h
  · constructor <;> simp [resetting, flyingAt, flying, State.reset, State.blockReset,
      State.constructed, Prims.reset, Search.reset, SearchPhase.inPass, SearchPhase.beforeBits,
      Params.default] <;> first | omega | (rintro rfl; decide)

/-- With a Wait in flight. -/
theorem test_waiting_invariants (dur t0 time : Nat) (h : t0 < 2 ^ 32) :
    Inv (waiting dur t0 time) ∧ Ranges (waiting dur t0 time) := by
  refine ⟨⟨?_, ?_, ⟨Nat.le_refl _, Nat.zero_le _, rfl⟩, ?_, ?_, ?_, ?_, ⟨0, by decide, rfl, rfl⟩⟩, ?_⟩
  · exact fun h => nomatch h
  · exact fun h => nomatch h
  · exact fun _ => rfl
  · exact fun h => absurd rfl h
  · exact fun h => absurd rfl h
  · exact fun _ => ⟨rfl, dur, rfl⟩
  · constructor <;> simp [waiting, flyingAt, flying, State.reset, State.blockReset,
      State.constructed, Prims.reset, Search.reset, SearchPhase.inPass, SearchPhase.beforeBits,
      Params.default]
    omega

/-- With a search in flight, at any bit position. -/
theorem test_searching_invariants (f : SearchPhase) (n ld : Nat) (x : Bool) (answers : List Bool)
    (h1 : 1 ≤ n) (h2 : n ≤ 64) (h3 : ld ≤ 64) :
    Inv (searchingAt f n ld x answers) ∧ Ranges (searchingAt f n ld x answers) := by
  refine ⟨⟨?_, ?_, ⟨Nat.le_refl _, Nat.zero_le _, rfl⟩, ?_, ?_, ?_, ?_,
    ⟨(n - 1) % 8, by omega, rfl, ?_⟩⟩, ?_⟩
  · exact fun h => nomatch h
  · exact fun h => nomatch h
  · exact fun _ => rfl
  · exact fun _ => ⟨rfl, .inr rfl⟩
  · exact fun h => absurd rfl h
  · exact fun h => nomatch h
  · simp [searchingAt]
    omega
  · constructor <;> simp [searchingAt, flyingAt, flying, State.reset, State.blockReset,
      State.constructed, Prims.reset, Search.reset, Params.default] <;> omega

/-! ### The hypotheses of each statement are met -/

theorem test_meets_EncodeOfDecodeIsTheBytes :
    decode Params.default [0x0B, 0xFF, 0xFF, 0xFF, 0xFF, 0x05] =
      .instr (.callback 0xFFFF 0xFFFF) [0x05] := by decide

theorem test_meets_BeginGivesResetValues : (State.constructed Params.default).m.begun = false := by
  decide

theorem test_meets_HostDutyOfBeginIsRefused :
    (State.constructed Params.default).m.begun = false ∧ HostOp.reset ≠ .begin ∧
      (∀ bs n, HostOp.reset ≠ .crc8 bs n) ∧ State.reset.m.begun = true := by
  refine ⟨rfl, by decide, ?_, rfl⟩
  simp

/-- Every instruction that completes in its first call. -/
theorem test_meets_LineAfterCompletion (i : Instr)
    (h : i ∈ [.w0, .w1, .pw0, .pw1, .read, .power, .unpower, .callback 0 0]) :
    Inv (flying i) ∧ Ranges (flying i) ∧ (flying i).m.begun = true ∧ (flying i).d.busy = true ∧
      (flying i).d.instr = .instr i ∧ ∃ t, exec i (flying i) = .next t ∧ t.d.busy = false := by
  refine ⟨(test_flying_invariants i).1, (test_flying_invariants i).2, rfl, rfl, rfl, ?_⟩
  simp only [List.mem_cons, List.not_mem_nil, or_false] at h
  rcases h with rfl | rfl | rfl | rfl | rfl | rfl | rfl | rfl <;> exact ⟨_, rfl, rfl⟩

/-- A Reset at the end of its recovery, a Wait at its end. -/
theorem test_meets_LineAfterCompletion_timed :
    (Inv (resetting .phase2 0 480 []) ∧ Ranges (resetting .phase2 0 480 []) ∧
      ∃ t, exec .reset (resetting .phase2 0 480 []) = .next t ∧ t.d.busy = false) ∧
    (Inv (waiting 1000 0 1000) ∧ Ranges (waiting 1000 0 1000) ∧
      ∃ t, exec (.wait 1000) (waiting 1000 0 1000) = .next t ∧ t.d.busy = false) := by
  have h1 := test_resetting_invariants .phase2 0 480 [] (by decide)
  have h2 := test_waiting_invariants 1000 0 1000 (by decide)
  exact ⟨⟨h1.1, h1.2, _, rfl, rfl⟩, ⟨h2.1, h2.2, _, rfl, rfl⟩⟩

/-- A search that ends at a (1,1) pair, and an exhausted one; a SearchFirst in the slot likewise. -/
theorem test_meets_LineAfterCompletion_search :
    (Inv (searchingAt .sReadCmp 64 0 true [true]) ∧ Ranges (searchingAt .sReadCmp 64 0 true [true]) ∧
      ∃ t, exec .srchn (searchingAt .sReadCmp 64 0 true [true]) = .next t ∧ t.d.busy = false) ∧
    (∃ t, exec .srchn { flying .srchn with srch.lastDevice := true } = .next t ∧ t.d.busy = false) ∧
    (∃ t, exec .srchf { searchingAt .sReadCmp 64 0 true [true] with d.instr := .instr .srchf } = .next t ∧
      t.d.busy = false) := by
  have h := test_searching_invariants .sReadCmp 64 0 true [true] (by decide) (by decide) (by decide)
  exact ⟨⟨h.1, h.2, _, rfl, rfl⟩, ⟨_, rfl, rfl⟩, ⟨_, rfl, rfl⟩⟩

theorem test_meets_EightReadsAssembleAByte :
    [true, false, true, false, true, false, true, false].length = 8 ∧
      (flyingAt .read 0 [true, false, true, false, true, false, true, false]).env.bus =
        .script ([true, false, true, false, true, false, true, false] ++ []) := by decide

/-- Both sides of both thresholds. -/
theorem test_meets_ResetRunsItsThreePhases :
    (flying .reset).p.rstPhase = .phase0 ∧
    elapsed Params.default (now (resetting .phase1 0 479 [])) 0 < 480 ∧
    480 ≤ elapsed Params.default (now (resetting .phase1 0 480 [])) 0 ∧
    elapsed Params.default (now (resetting .phase2 0 479 [])) 0 < 480 ∧
    480 ≤ elapsed Params.default (now (resetting .phase2 0 480 [])) 0 := by decide

/-- Each clause, at the threshold and across the clock's wrap. -/
theorem test_meets_DurationsAreNeverCutShort :
    (∃ t, exec .reset (resetting .phase1 0xFFFFFF00 0x1000000E0 [true]) = .next t ∧
      t.p.rstPhase = .phase2) ∧
    (∃ t, exec .reset (resetting .phase2 0xFFFFFF00 0x1000000E0 []) = .next t ∧
      t.p.rstPhase = .phase0) ∧
    (∃ t, exec (.wait 300) (waiting 300 0xFFFFFF9C 0x1000000C8) = .next t ∧
      t.p.waitStarted = false) := ⟨⟨_, rfl, rfl⟩, ⟨_, rfl, rfl⟩, ⟨_, rfl, rfl⟩⟩

theorem test_meets_WaitRecordsThenTests :
    (flying (.wait 0)).p.waitStarted = false ∧ (waiting 1000 0 999).p.waitStarted = true ∧
    elapsed Params.default (now (waiting 1000 0 999)) 0 < 1000 ∧
    1000 ≤ elapsed Params.default (now (waiting 1000 0 1000)) 0 ∧
    2 ^ Params.default.clockBits ≤ 0x100000000 := by decide

/-- The last address of DEST, provided and not, and the first beyond it. -/
theorem test_meets_CopyStoresTheAccumulator :
    0xFFFF < 2 ^ (8 * Params.default.contextBytes) ∧ 0xFFFF ∉ State.reset.dest.unprovided ∧
    0xFFFF ∈ ({ State.reset with dest.unprovided := [0xFFFF] } : State).dest.unprovided ∧
    2 ^ (8 * Params.default.contextBytes) ≤ 0x10000 := by decide

theorem test_meets_CallbackRunsTheHostsHandler :
    (1 : Nat) ≠ 0 ∧ (flying (.callback 1 0)).m.begun = true ∧
      (flying (.callback 1 0)).q.st = .executing ∧
      ({ flying (.callback 1 0) with env.handlers := [[.getData, .beginTransaction]] } :
        State).env.handlers = [.getData, .beginTransaction] :: [] ∧
      ∀ op ∈ [HostOp.getData, .beginTransaction], allowedNested Params.default op = true := by decide

theorem test_meets_CallbackWithUnlistedHandlerCompletes :
    (1 : Nat) ≠ 0 ∧ (flying (.callback 1 0)).env.handlers = [] := by decide

theorem test_meets_ReentrantHandleIsRefused :
    (flying (.callback 1 0)).m.begun = true ∧ (flying (.callback 1 0)).q.st = .executing ∧
      (∀ op ∈ [HostOp.getData], allowedNested Params.default op = true) ∧
      ({ flying (.callback 1 0) with env.handlers := [[.getData, .handle 0]] } : State).env.handlers =
        ([.getData] ++ .handle 0 :: []) :: [] ∧
      ({ flying (.callback 1 0) with d.busy := false, env.hooks := [[.getData, .handle 0]] } :
        State).env.hooks = ([.getData] ++ .handle 0 :: []) :: [] := by decide

theorem test_meets_SearchStartsAPass :
    (flying .srchf).srch.phase = .sIdle ∧ (flying .srchf).p.rstPhase = .phase0 ∧
      (flying .srchn).srch.lastDevice = false ∧
      ({ flying .srchn with srch.lastDevice := true } : State).srch.lastDevice = true := by decide

/-- Busy, complete with presence, complete without. -/
theorem test_meets_SearchResetAbortsWithoutPresence :
    (searchingAt .sReset 1 0 false []).srch.phase = .sReset ∧
    (resetStep (searchingAt .sReset 1 0 false [])).2 = false ∧
    (resetStep { searchingAt .sReset 1 0 false [] with
      p.rstPhase := .phase2, q.presence := true }).2 = true ∧
    (resetStep { searchingAt .sReset 1 0 false [] with
      p.rstPhase := .phase2, q.presence := true }).1.q.presence = true ∧
    (resetStep { searchingAt .sReset 1 0 false [] with
      p.rstPhase := .phase2 }).1.q.presence = false := by decide

/-- The first and the last command bit of 0xF0. -/
theorem test_meets_SearchSendsItsCommand :
    (searchingAt .sCmd 1 0 false []).srch.phase = .sCmd ∧
      (Params.default.cmdSearch.getLsbD 0) = false ∧ (Params.default.cmdSearch.getLsbD 7) = true := by
  decide

theorem test_meets_SearchReadsTheIdBit :
    (searchingAt .sReadId 1 0 false [true]).srch.phase = .sReadId := by decide

/-- Each kind of pair, at the last bit position. -/
theorem test_meets_SearchClassifiesThePair :
    Inv (searchingAt .sReadCmp 64 64 true [true]) ∧ Ranges (searchingAt .sReadCmp 64 64 true [true]) ∧
      (drawLevel (searchingAt .sReadCmp 64 64 true [true]).env).1 = true ∧
    Inv (searchingAt .sReadCmp 64 64 false [true]) ∧ Ranges (searchingAt .sReadCmp 64 64 false [true]) ∧
      (drawLevel (searchingAt .sReadCmp 64 64 false [true]).env).1 = true ∧
    Inv (searchingAt .sReadCmp 64 64 false [false]) ∧
      Ranges (searchingAt .sReadCmp 64 64 false [false]) ∧
      (drawLevel (searchingAt .sReadCmp 64 64 false [false]).env).1 = false := by
  have h := fun x y => test_searching_invariants .sReadCmp 64 64 x [y] (by decide) (by decide) (by decide)
  exact ⟨(h _ _).1, (h _ _).2, rfl, (h _ _).1, (h _ _).2, rfl, (h _ _).1, (h _ _).2, rfl⟩

/-- The first position, and the last that does not end the pass. -/
theorem test_meets_DirectionWriteStoresOneBit :
    Inv (searchingAt .sWriteDir 1 0 false []) ∧ Inv (searchingAt .sWriteDir 63 0 false []) ∧
      (searchingAt .sWriteDir 1 0 false []).srch.bitPos = 1 ∧
      (searchingAt .sWriteDir 63 0 false []).srch.bitPos = 63 ∧
      (searchingAt .sWriteDir 63 0 false []).srch.phase = .sWriteDir := by
  have h := fun n h1 h2 => test_searching_invariants .sWriteDir n 0 false [] h1 h2 (by decide)
  exact ⟨(h 1 (by decide) (by decide)).1, (h 63 (by decide) (by decide)).1, rfl, rfl, rfl⟩

/-- A non-zero and a zero family byte. -/
theorem test_meets_PassEndsAfterBitSixtyFour :
    Inv (searchingAt .sWriteDir 64 0 false []) ∧
      (searchingAt .sWriteDir 64 0 false []).srch.phase = .sWriteDir ∧
      (searchingAt .sWriteDir 64 0 false []).srch.bitPos = 64 ∧
      romByte addrA 0 ≠ 0 ∧ romByte Rom.zero 0 = 0 := by
  have h := test_searching_invariants .sWriteDir 64 0 false [] (by decide) (by decide) (by decide)
  exact ⟨h.1, rfl, rfl, by decide, by decide⟩

theorem test_meets_AbortsKeepTheDiscrepancyState :
    (∃ t, exec .srchn { searchingAt .sReset 1 7 false [] with p.rstPhase := .phase2 } = .next t ∧
      t.srch.phase = .sIdle) ∧
    (∃ t, exec .srchn (searchingAt .sReadCmp 1 7 true [true]) = .next t ∧
      t.srch.phase = .sIdle) := ⟨⟨_, rfl, rfl⟩, ⟨_, rfl, rfl⟩⟩

/-- No device, one device, and two that differ at position 4 (95_test_vectors.md S2). -/
theorem test_meets_BusPairTellsWhetherDevicesAgree :
    (∀ ds, ∃ b, ({ searchingAt .sReadId 4 0 false [] with env.bus := busAt ds 4 } : State).env.bus =
      .devices b ∧ b.phase = .search 4 .idBit ∧ b.active = ds.map (⟨·, false⟩)) ∧
    romBit addrA 4 = true ∧ romBit addrC 4 = false :=
  ⟨fun _ => ⟨_, rfl, rfl, rfl⟩, by decide, by decide⟩

theorem test_meets_OneDeviceIsFoundInOnePass : romByte addrC 0 ≠ 0 := by decide

theorem test_meets_TwoDevicesAreEnumeratedOnceEach :
    addrA ≠ addrC ∧ romByte addrA 0 ≠ 0 ∧ romByte addrC 0 ≠ 0 := by decide

/-- With the call listed, and with a mere poll. -/
theorem test_meets_StepRunsTheDecodedInstruction :
    (committed [0x02]).m.begun = true ∧ (committed [0x02]).m.fault = none ∧
      (committed [0x02]).q.st = .executing ∧ (committed [0x02]).d.busy = false ∧
      (committed [0x02]).q.rd < (committed [0x02]).q.wr ∧
      decode Params.default (fetchWindow (committed [0x02])) = .instr .w1 [] ∧
      (committed [0x02]).env.calls = [] ∧
      ({ committed [0x02] with env.calls := [.handle 0] } : State).env.calls = .handle 0 :: [] := by
  decide

theorem test_meets_InFlightInstructionIsSteppedNotReplaced :
    (flying .w1).m.begun = true ∧ (flying .w1).m.fault = none ∧ (flying .w1).q.st = .executing ∧
      (flying .w1).d.busy = true ∧ (flying .w1).d.instr = .instr .w1 ∧
      ({ flying .w1 with env.calls := [.handle 0] } : State).env.calls = .handle 0 :: [] ∧
      ∃ t, step { flying .w1 with env.calls := [.handle 0] } = .next t :=
  ⟨rfl, rfl, rfl, rfl, rfl, rfl, _, rfl⟩

theorem test_meets_HandleEndsBusyAfterAStep :
    (flying .w1).d.busy = true ∧ (committed []).env.hooks = [] ∧
      ({ committed [] with env.hooks := [[.getData]] } : State).env.hooks = [.getData] :: [] ∧
      (committed []).d.busy = false ∧ (committed []).m.begun = true ∧
      (committed []).q.st = .executing ∧
      ∀ op ∈ [HostOp.getData], allowedNested Params.default op = true := by decide

theorem test_meets_OnlyADrainedQueueEndsATransaction :
    (committed []).d.busy = false ∧ (committed []).q.wr ≤ (committed []).q.rd ∧
      (committed []).env.time ≤ 0 ∧
      ∃ t, step { committed [] with env.calls := [.handle 0] } = .next t ∧ t.q.st = .idle :=
  ⟨rfl, Nat.le_refl _, Nat.le_refl _, _, rfl, rfl⟩

theorem test_meets_HandleOutsideExecutingChangesNothing :
    State.reset.m.begun = true ∧ State.reset.env.time ≤ 0 ∧ State.reset.q.st = .idle ∧
      (building 64 0).q.st = .building := by decide

/-- A payload one byte short, and the first reserved tag. -/
theorem test_meets_TruncatedIsNopAndReservedIsFault :
    (committed [0x0A, 1, 2, 3]).q.rd < (committed [0x0A, 1, 2, 3]).q.wr ∧
      decode Params.default (fetchWindow (committed [0x0A, 1, 2, 3])) = .truncated ∧
      (committed [0x0A, 1, 2, 3]).env.hooks = [] ∧
      0x0C ≤ (queueByte (committed [0x0C]).q.buf (committed [0x0C]).q.rd).toNat := by decide

theorem test_meets_FaultMarkIsNeverCleared :
    (raiseIllegalTag (committed [0x0C])).m.begun = true ∧
      (raiseIllegalTag (committed [0x0C])).m.fault = some .illegalTag ∧
      isAppender .reset = true ∧ allowedNested Params.default .commit = true ∧
      ∃ t, step (raiseIllegalTag (committed [0x0C])) = .next t := ⟨rfl, rfl, rfl, rfl, _, rfl⟩

/-- Each of the three changes of state. -/
theorem test_meets_TransactionStateNeverSkipsOrReverses :
    (∃ t, step { State.reset with env.calls := [.beginTransaction] } = .next t ∧
      t.q.st = .building) ∧
    (∃ t, step { building 64 0 with env.calls := [.commit] } = .next t ∧ t.q.st = .executing) ∧
    (∃ t, step (committed []) = .next t ∧ t.q.st = .idle) :=
  ⟨⟨_, rfl, rfl⟩, ⟨_, rfl, rfl⟩, ⟨_, rfl, rfl⟩⟩

/-- A step that completes an instruction and waits. -/
theorem test_meets_OneStepIsBounded :
    ∃ t, step { committed [0x05] with env.bus := .script [true], env.calls := [.handle 0] } = .next t ∧
      t.d.busy = false := ⟨_, rfl, rfl⟩

theorem test_meets_OneByteAppenders :
    (building 64 0).m.begun = true ∧ (building 64 0).m.fault = none ∧
      (2 ≠ 0 ∧ HostOp.writeBit 2 = .writeBit 2 ∧ (0x02 : Byte) = 0x02) ∧
      ¬(building 1 0).q.wr + 1 > (building 1 0).q.qend ∧
      (building 1 1).q.wr + 1 > (building 1 1).q.qend := by decide

/-- The last duration that fits and the first that does not; room for the last byte exactly, and one short. -/
theorem test_meets_OperandAppenders :
    (0x0A :: leBytes Params.default.waitBytes 750000) = [0x0A, 0xB0, 0x71, 0x0B, 0x00] ∧
      (building 5 0).m.begun = true ∧ (building 5 0).m.fault = none ∧
      Instr.wellFormed (building 5 0).cfg (.wait 0xFFFFFFFF) = true ∧
      Instr.wellFormed (building 5 0).cfg (.wait 0x100000000) = false ∧
      ¬(building 5 0).q.wr + 5 > (building 5 0).q.qend ∧
      (building 4 0).q.wr + 5 > (building 4 0).q.qend := by decide

theorem test_meets_AppendersNeedBuilding :
    State.reset.m.begun = true ∧ State.reset.q.st = .idle ∧ (committed []).q.st = .executing ∧
      isAppender (.wait 0xFFFFFFFF) = true ∧
      allowedNested Params.default (.wait 0xFFFFFFFF) = true := by decide

/-- Room for the last bit exactly. -/
theorem test_meets_WriteBytesQueuesBitsInOrder :
    (building 8 0).m.begun = true ∧ (building 8 0).m.fault = none ∧ (building 8 0).q.st = .building ∧
      (building 8 0).q.wr + 8 * [(0xB0 : Byte)].length ≤ (building 8 0).q.qend := by decide

/-- Room for all but the last bit. -/
theorem test_meets_WriteBytesStopsWhenFull :
    (building 7 0).q.st = .building ∧ (building 7 0).q.wr ≤ (building 7 0).q.qend ∧
      (building 7 0).q.qend < (building 7 0).q.wr + 8 * [(0xB0 : Byte)].length := by decide

/-- The last byte of DEST and the first beyond it; room for the last byte exactly; an empty read. -/
theorem test_meets_ReadBytesQueuesReadsAndCopies :
    (building 13 0).m.begun = true ∧ (building 13 0).m.fault = none ∧
      (building 13 0).q.st = .building ∧
      2 ^ (8 * (building 13 0).cfg.contextBytes) < 0x10000 + 1 ∧
      0xFFFF + 1 ≤ 2 ^ (8 * (building 13 0).cfg.contextBytes) ∧
      (building 13 0).q.wr + 1 * (9 + (building 13 0).cfg.handlerBytes +
        (building 13 0).cfg.contextBytes) ≤ (building 13 0).q.qend ∧
      (building 0 0).q.wr + 0 * (9 + (building 0 0).cfg.handlerBytes +
        (building 0 0).cfg.contextBytes) ≤ (building 0 0).q.qend := by decide

/-- B14, and one byte short of the last COPY. -/
theorem test_meets_ReadBytesStopsWhenFull :
    (building 20 0).q.st = .building ∧ 0x10 + 2 ≤ 2 ^ (8 * (building 20 0).cfg.contextBytes) ∧
      (building 20 0).q.qend = (building 20 0).q.wr + 20 ∧
      (building 25 0).q.qend = (building 25 0).q.wr + 25 ∧
      13 = 9 + (building 25 0).cfg.handlerBytes + (building 25 0).cfg.contextBytes ∧
      25 < 2 * 13 := by decide

/-- B14: the second byte's eighth Read does not fit. -/
theorem test_readBytes_full :
    see (fun s => (queueOf s, s.q.wr)) (topCall (.readBytes 2 0x10) (building 20 0)) =
    some ([5, 5, 5, 5, 5, 5, 5, 5, 0x0B, 0, 0, 0x10, 0, 5, 5, 5, 5, 5, 5, 5], 20) := by decide

theorem test_meets_CommitStartsExecution :
    State.reset.m.begun = true ∧ State.reset.m.fault = none ∧ State.reset.q.st ≠ .building ∧
      (building 64 0).q.st = .building ∧ (building 64 0).q.wr = 0 ∧
      (building 64 0).d.busy = false ∧ (building 64 0).env.time ≤ 0 := by decide

theorem test_meets_BeginTransactionOpensTheQueue :
    State.reset.m.begun = true ∧ State.reset.m.fault = none ∧ State.reset.q.st = .idle ∧
      (building 64 0).q.st ≠ .idle := by decide

/-- `GetDataDrainsTheAccumulator` and `QueriesChangeNothing` ask for a begun block alone. -/
theorem test_meets_GetDataDrainsTheAccumulator_and_QueriesChangeNothing :
    State.reset.m.begun = true := by decide

theorem test_meets_CrcOfAValidAddressIsZero : 8 ≤ addrA.toList.length := by decide

/-- A step in the middle of a search. -/
theorem test_meets_StepKeepsTheInvariants :
    Inv (searchingAt .sWriteDir 64 0 true []) ∧ Ranges (searchingAt .sWriteDir 64 0 true []) ∧
      ∃ t, step { searchingAt .sWriteDir 64 0 true [] with env.calls := [.handle 480] } = .next t := by
  have h := test_searching_invariants .sWriteDir 64 0 true [] (by decide) (by decide) (by decide)
  exact ⟨h.1, h.2, _, rfl⟩

theorem test_meets_StepKeepsTheMemories :
    MemoryInv (flying (.callback 0 0xFFFF)) ∧
      ∃ t, step { flying (.callback 0 0xFFFF) with env.calls := [.handle 0] } = .next t :=
  ⟨⟨List.Pairwise.nil, fun _ h => absurd h (List.not_mem_nil), List.Pairwise.nil,
    fun _ h => absurd h (List.not_mem_nil)⟩, _, rfl⟩

/-- A block in mid-pass, its queue consumed. -/
theorem test_meets_BuiltQueuesNeverFault : Built (searchingAt .sReadId 1 0 false [true]) := by
  have h := test_searching_invariants .sReadId 1 0 false [true] (by decide) (by decide) (by decide)
  refine ⟨h.1, ⟨List.Pairwise.nil, fun _ h => absurd h (List.not_mem_nil), List.Pairwise.nil,
    fun _ h => absurd h (List.not_mem_nil)⟩, ⟨[], ?_, rfl⟩, ?_, ?_, rfl⟩
  · simp
  · intro i hi _
    simp only [searchingAt, flyingAt, flying, InFlight.instr.injEq] at hi
    subst hi
    rfl
  · simp [searchingAt, flyingAt, flying]

/-- A committed queue with bytes left, whose first step answers a next state. -/
theorem test_meets_BuiltQueuesNeverFault_bytes_left :
    Built (committed [0x02]) ∧ (committed [0x02]).q.rd < (committed [0x02]).q.wr ∧
      ∃ t, step { committed [0x02] with env.calls := [.handle 0] } = .next t := by
  refine ⟨⟨⟨?_, ?_, by decide, ?_, ?_, ?_, ?_, ⟨0, by decide, rfl, rfl⟩⟩, ⟨?_, ?_, List.Pairwise.nil,
    fun _ h => absurd h (List.not_mem_nil)⟩, ⟨[.w1], by decide, rfl⟩, ?_, ?_, rfl⟩, by decide, _, rfl⟩
  · exact fun h => nomatch h
  · exact fun h => nomatch h
  · exact fun h => nomatch h
  · exact fun h => absurd rfl h
  · exact fun h => absurd rfl h
  · exact fun h => nomatch h
  · exact List.pairwise_singleton _ _
  · decide
  · exact fun _ h => nomatch h
  · exact fun h => nomatch h

theorem test_meets_QueueBytesChangeOnlyWhileBuilding :
    (flying .w1).m.begun = true ∧ (flying .w1).q.st ≠ .building ∧ 0 < (building 64 1).q.wr ∧
      ∃ t, step { flying .w1 with env.calls := [.handle 0] } = .next t :=
  ⟨rfl, by decide, by decide, _, rfl⟩

/-- A Read in flight, and a `getData()` at top level, in a handler and in the hook. -/
theorem test_meets_AccumulatorHasTwoWriters :
    (flyingAt .read 0 [true]).m.begun = true ∧
      (∃ t, step { flyingAt .read 0 [true] with env.calls := [.handle 0] } = .next t ∧
        t.q.acc = 0x80) ∧
      (∃ t, step { State.reset with q.acc := 1, env.calls := [.getData] } = .next t ∧ t.q.acc = 0) ∧
      (∃ t, step { flying (.callback 3 7) with
        q.acc := 1, env.calls := [.handle 0], env.handlers := [[.getData]] } = .next t ∧
        t.q.acc = 0) ∧
      (∃ t, step { flyingAt .read 0 [true] with
        env.calls := [.handle 0], env.hooks := [[.getData]] } = .next t ∧ t.q.acc = 0) :=
  ⟨rfl, ⟨_, rfl, rfl⟩, ⟨_, rfl, rfl⟩, ⟨_, rfl, rfl⟩, ⟨_, rfl, rfl⟩⟩

end Sys2Proof.Tests
end

section
/-! PROOFS. What a multi-append with room leaves in the queue (40_builder.md R114, R126), the instructions of
`writeBytes` bit by bit (30_encoding.md R89), and the statement O47. -/

namespace Sys2Proof.Machine

/-! ### A multi-append with room -/

/-- The bytes of instructions, one after the other. -/
def encodeSeq (p : Params) (is : List Instr) : List Byte := is.flatMap (encode p)

@[simp] theorem encodeSeq_nil (p : Params) : encodeSeq p [] = [] := rfl

@[simp] theorem encodeSeq_cons (p : Params) (i : Instr) (is : List Instr) :
    encodeSeq p (i :: is) = encode p i ++ encodeSeq p is := rfl

theorem cannotAppend_eq_false {s : State} :
    cannotAppend s = false ↔ s.m.fault = none ∧ s.q.st = .building := by
  simp [cannotAppend]

/-- The state after an append of these bytes at the write cursor (R114). -/
def appended (bytes : List Byte) (s : State) : State :=
  { s with q.buf := memWriteBytes s.q.buf s.q.wr bytes, q.wr := s.q.wr + bytes.length }

@[simp] theorem appended_cfg (bytes : List Byte) (s : State) : (appended bytes s).cfg = s.cfg := rfl

theorem appended_append (bs cs : List Byte) (s : State) :
    appended (bs ++ cs) s = appended cs (appended bs s) := by
  simp [appended, memWriteBytes_append, Nat.add_assoc]

theorem appendInstr_of_room (i : Instr) {s : State} (hs : cannotAppend s = false)
    (hroom : s.q.wr + (encode s.cfg i).length ≤ s.q.qend) :
    appendInstr i s = (appended (encode s.cfg i) s, .ok) := by
  rcases appendBytes_cases (encode s.cfg i) s with ⟨h, -⟩ | ⟨-, h, -⟩ | ⟨-, -, h⟩
  · simp [hs] at h
  · omega
  · exact h

/-- Where the block builds and all the bytes fit, a multi-append appends them all (R126, R127). -/
theorem appendSeq_of_room (is : List Instr) {s : State} (hs : cannotAppend s = false)
    (hroom : s.q.wr + (encodeSeq s.cfg is).length ≤ s.q.qend) :
    appendSeq is s = (appended (encodeSeq s.cfg is) s, .ok) := by
  induction is generalizing s with
  | nil => simp [appendSeq, hs, appended, memWriteBytes]
  | cons i is ih =>
    simp only [encodeSeq_cons, List.length_append] at hroom
    have hrest : (appended (encode s.cfg i) s).q.wr + (encodeSeq s.cfg is).length ≤ s.q.qend := by
      simp only [appended]
      omega
    rw [appendSeq, appendInstr_of_room i hs (by omega), encodeSeq_cons, appended_append]
    exact ih (s := appended (encode s.cfg i) s) hs hrest

/-! ### Instructions of one byte each -/

theorem encodeSeq_length_of_one {p : Params} {is : List Instr}
    (h : ∀ i ∈ is, (encode p i).length = 1) : (encodeSeq p is).length = is.length := by
  rw [encodeSeq, List.length_flatMap, List.map_congr_left h]
  simp

/-- Where each instruction is one byte long, byte `k` is the encoding of instruction `k`. -/
theorem encodeSeq_getElem?_of_one {p : Params} {is : List Instr}
    (h : ∀ i ∈ is, (encode p i).length = 1) {k : Nat} {i : Instr} (hk : is[k]? = some i) :
    ((encodeSeq p is)[k]?).toList = encode p i := by
  induction is generalizing k with
  | nil => simp at hk
  | cons x xs ih =>
    obtain ⟨b, hb⟩ := List.length_eq_one_iff.mp (h x List.mem_cons_self)
    cases k with
    | zero =>
      obtain rfl : x = i := by simpa using hk
      simp [hb]
    | succ k =>
      simpa [hb] using ih (fun y hy => h y (List.mem_cons_of_mem x hy)) (by simpa using hk)

/-! ### The instructions of `writeBytes` -/

/-- The write of one bit, with or without power (R89). -/
def bitWrite (power bit : Bool) : Instr :=
  if power then (if bit then .pw1 else .pw0) else (if bit then .w1 else .w0)

theorem encode_bitWrite_length (p : Params) (power bit : Bool) :
    (encode p (bitWrite power bit)).length = 1 := by
  cases power <;> cases bit <;> rfl

/-- The writes of one byte, its last bit with or without power (R89). -/
def byteWrites (power : Bool) (b : Byte) : List Instr :=
  if power then powerByteInstrs b else byteInstrs b

theorem writeBitInstr_toNat (x : Bool) : writeBitInstr x.toNat = bitWrite false x := by
  cases x <;> rfl

theorem powerBitInstr_toNat (x : Bool) : powerBitInstr x.toNat = bitWrite true x := by
  cases x <;> rfl

@[simp] theorem byteWrites_length (power : Bool) (b : Byte) : (byteWrites power b).length = 8 := by
  cases power <;> rfl

/-- Bits go out least significant first, and only bit 7 can be the power variant. -/
theorem byteWrites_getElem? (power : Bool) (b : Byte) {i : Nat} (hi : i < 8) :
    (byteWrites power b)[i]? = some (bitWrite (power && i == 7) (b.getLsbD i)) := by
  cases power <;> interval_cases i <;>
    simp [byteWrites, byteInstrs, powerByteInstrs, byteBits, writeBitInstr_toNat,
      powerBitInstr_toNat, List.range_succ]

/-- Only the last byte can end with power. -/
theorem writeBytesInstrs_cons (power : Bool) (b : Byte) (bs : List Byte) :
    writeBytesInstrs power (b :: bs) =
      byteWrites (power && bs.isEmpty) b ++ writeBytesInstrs power bs := by
  cases bs <;> simp [writeBytesInstrs, byteWrites]

theorem writeBytesInstrs_length (power : Bool) (data : List Byte) :
    (writeBytesInstrs power data).length = 8 * data.length := by
  induction data with
  | nil => rfl
  | cons b bs ih => simp [writeBytesInstrs_cons, ih]; omega

/-- Instruction `8 * j + i` writes bit `i` of byte `j` (R89). -/
theorem writeBytesInstrs_getElem? (power : Bool) (data : List Byte) {j i : Nat}
    (hj : j < data.length) (hi : i < 8) :
    (writeBytesInstrs power data)[8 * j + i]? =
      some (bitWrite (power && (j + 1 == data.length && i == 7)) (data[j].getLsbD i)) := by
  induction data generalizing j with
  | nil => simp at hj
  | cons b bs ih =>
    rw [writeBytesInstrs_cons]
    cases j with
    | zero =>
      rw [List.getElem?_append_left (by simpa using hi), Nat.mul_zero, Nat.zero_add,
        byteWrites_getElem? _ _ hi]
      cases bs <;> simp
    | succ j =>
      rw [List.getElem?_append_right (by simp; omega), byteWrites_length,
        show 8 * (j + 1) + i - 8 = 8 * j + i by omega, ih (by simpa using hj)]
      simp

/-- Each instruction of `writeBytes` is one byte long. -/
theorem encode_writeBytesInstrs_length (p : Params) (power : Bool) (data : List Byte) :
    ∀ i ∈ writeBytesInstrs power data, (encode p i).length = 1 := by
  intro i hi
  obtain ⟨k, hk⟩ := List.mem_iff_getElem?.mp hi
  have hlt : k < 8 * data.length := by
    rw [← writeBytesInstrs_length power]
    exact (List.getElem?_eq_some_iff.mp hk).1
  rw [← Nat.div_add_mod k 8,
    writeBytesInstrs_getElem? power data (by omega) (Nat.mod_lt k (by omega))] at hk
  obtain rfl := Option.some.inj hk
  exact encode_bitWrite_length ..

theorem encodeSeq_writeBytesInstrs_length (p : Params) (power : Bool) (data : List Byte) :
    (encodeSeq p (writeBytesInstrs power data)).length = 8 * data.length := by
  rw [encodeSeq_length_of_one (encode_writeBytesInstrs_length p power data),
    writeBytesInstrs_length]

/-! ### The call -/

/-- `writeBytes` with room for all bits (R126): its encoded instructions at the write cursor, and Ok. -/
theorem topCall_writeBytes_of_room {s : State} (data : List Byte) (power : Bool)
    (hbegun : s.m.begun = true) (hs : cannotAppend s = false)
    (hroom : s.q.wr + 8 * data.length ≤ s.q.qend) :
    topCall (.writeBytes data power) s = .next { s with
      q.buf := memWriteBytes s.q.buf s.q.wr (encodeSeq s.cfg (writeBytesInstrs power data))
      q.wr := s.q.wr + 8 * data.length
      out := s.out ++ [.returned (.code .ok)] } := by
  have hlen := encodeSeq_writeBytesInstrs_length s.cfg power data
  have hcall : topCall (.writeBytes data power) s = opWriteBytes data power s := by
    simp [topCall, hostCall, hostOpEffect, hbegun]
  rw [hcall, opWriteBytes, appendSeq_of_room _ hs (by rwa [hlen]), appended, hlen]
  rfl

/-- Settles O47: with room, the queue gets the encodings of the instructions of `writeBytes`, each one
byte long, so byte `8 * j + i` is the encoding of the write of bit `i` of byte `j`. -/
theorem writeBytesQueuesBitsInOrder : Obligations.WriteBytesQueuesBitsInOrder := by
  intro s data power hbegun hfault hst hroom
  have hone := encode_writeBytesInstrs_length s.cfg power data
  have hlen := encodeSeq_writeBytesInstrs_length s.cfg power data
  refine ⟨_, topCall_writeBytes_of_room data power hbegun (cannotAppend_eq_false.mpr ⟨hfault, hst⟩)
    hroom, ?_, ?_⟩
  · intro j i hj hi
    have hbit := writeBytesInstrs_getElem? power data hj hi
    rw [Nat.add_assoc, memRead_memWriteBytes_inside _ _ _ (by omega), ← List.getElem?_eq_getElem,
      encodeSeq_getElem?_of_one hone hbit]
    simp [bitWrite]
  · intro a ha
    exact memRead_memWriteBytes_outside _ _ _ (by rwa [hlen])

end Sys2Proof.Machine
end

section
/-! PROOFS. What the appenders, `commit()` and `getData()` answer (40_builder.md R114 to R135), and the statements O46,
O44, O51 and O53. -/

namespace Sys2Proof.Machine

/-! ### A call on a block that has begun -/

theorem hostCall_of_begun (op : HostOp) {s : State} (hb : s.m.begun = true) :
    hostCall op s = hostOpEffect op s := by simp [hostCall, hb]

/-- Any call but `handle()` has the same effect at top level as from a handler (R134). -/
theorem topCall_of_begun {op : HostOp} {s : State} (hb : s.m.begun = true)
    (hop : ∀ time, op ≠ .handle time) : topCall op s = hostOpEffect op s := by
  rcases topCall_cases op s with ⟨time, h, -⟩ | ⟨-, h⟩
  · exact absurd h (hop time)
  · rw [h, hostCall_of_begun op hb]

/-! ### The appenders -/

theorem cannotAppend_of_not_building {s : State} (h : s.q.st ≠ .building) :
    cannotAppend s = true := by simp [cannotAppend, h]

theorem appendInstr_wrongState (i : Instr) {s : State} (h : cannotAppend s = true) :
    appendInstr i s = (s, .wrongState) := by simp [appendInstr, appendBytes, h]

/-- An appender whose operands fit is an append of one instruction or of several in order (R116 to R127). -/
theorem appender_cases {op : HostOp} {s : State} (happ : isAppender op = true)
    (hok : allowedNested s.cfg op = true) :
    (∃ i, hostOpEffect op s = answerCode (appendInstr i s)) ∨
    (∃ is, hostOpEffect op s = answerCode (appendSeq is s)) := by
  cases op
  case reset | writeBit | writeBitWithPower | readBit | searchFirst | searchNext | power | unpower =>
    exact .inl ⟨_, rfl⟩
  case wait => exact .inl ⟨_, if_pos hok⟩
  case registerCallback => exact .inl ⟨_, if_pos hok⟩
  case writeBytes => exact .inr ⟨_, rfl⟩
  case readBytes => exact .inr ⟨_, if_pos hok⟩
  case begin | beginTransaction | commit | inProgress | handle | getData | getLastSearchResult | crc8 =>
    cases happ

/-- In the wrong state an appender whose operands fit answers WrongState and changes nothing (R114, R135). -/
theorem topCall_appender_wrongState {op : HostOp} {s : State} (hb : s.m.begun = true)
    (hc : cannotAppend s = true) (happ : isAppender op = true)
    (hok : allowedNested s.cfg op = true) : topCall op s = answer (.code .wrongState) s := by
  rw [topCall_of_begun hb (by rintro time rfl; cases happ)]
  rcases appender_cases happ hok with ⟨i, h⟩ | ⟨is, h⟩
  · rw [h, appendInstr_wrongState i hc]; rfl
  · rw [h, appendSeq_wrongState is hc]; rfl

/-- Settles O46: neither Idle nor Executing is Building, the only state in which an appender writes. -/
theorem appendersNeedBuilding : Obligations.AppendersNeedBuilding := by
  intro s op hb hst happ hok
  have hne : s.q.st ≠ .building := by rcases hst with h | h <;> simp [h]
  exact topCall_appender_wrongState hb (cannotAppend_of_not_building hne) happ hok

/-- What the host sees of an append on an unfaulted block (R114, R115). -/
theorem answerCode_appendBytes (bytes : List Byte) {s : State} (hfault : s.m.fault = none) :
    answerCode (appendBytes bytes s) =
      if s.q.st ≠ .building then answer (.code .wrongState) s
      else if s.q.wr + bytes.length > s.q.qend then answer (.code .bufferFull) s
      else answer (.code .ok) (appended bytes s) := by
  rcases appendBytes_cases bytes s with ⟨hc, h⟩ | ⟨hc, hroom, h⟩ | ⟨hc, hroom, h⟩
  · have hst : s.q.st ≠ .building := fun hst => by
      simp [cannotAppend_eq_false.mpr ⟨hfault, hst⟩] at hc
    rw [h, if_pos hst]; rfl
  · rw [h, if_neg (not_not.mpr (cannotAppend_eq_false.mp hc).2), if_pos hroom]; rfl
  · rw [h, if_neg (not_not.mpr (cannotAppend_eq_false.mp hc).2), if_neg (Nat.not_lt.mpr hroom)]; rfl

/-- An operation that appends one instruction of one byte, seen from the host. -/
theorem topCall_append_one {op : HostOp} {s : State} {i : Instr} {tag : Byte}
    (hb : s.m.begun = true) (hfault : s.m.fault = none) (hop : ∀ time, op ≠ .handle time)
    (heff : hostOpEffect op s = answerCode (appendInstr i s)) (henc : encode s.cfg i = [tag]) :
    topCall op s =
      if s.q.st ≠ .building then answer (.code .wrongState) s
      else if s.q.wr + 1 > s.q.qend then answer (.code .bufferFull) s
      else answer (.code .ok) (appended [tag] s) := by
  rw [topCall_of_begun hb hop, heff, appendInstr, henc, answerCode_appendBytes [tag] hfault]
  rfl

/-- Settles O44: each of the ten operations appends one instruction, and its tag is the whole encoding. -/
theorem oneByteAppenders : Obligations.OneByteAppenders := by
  intro s op tag hb hfault hcases
  rcases hcases with ⟨rfl, rfl⟩ | ⟨rfl, rfl⟩ | ⟨v, hv, rfl, rfl⟩ | ⟨rfl, rfl⟩ | ⟨v, hv, rfl, rfl⟩ |
    ⟨rfl, rfl⟩ | ⟨rfl, rfl⟩ | ⟨rfl, rfl⟩ | ⟨rfl, rfl⟩ | ⟨rfl, rfl⟩ <;>
  exact topCall_append_one hb hfault nofun rfl (by simp [encode, writeBitInstr, powerBitInstr, *])

/-! ### `commit()` -/

/-- An executing block with a free slot and no bytes left is Idle after the next `handle()` (R153). -/
theorem topCall_handle_drained {s : State} {time : Nat} (hb : s.m.begun = true)
    (hfault : s.m.fault = none) (hst : s.q.st = .executing) (hbusy : s.d.busy = false)
    (hend : s.q.wr ≤ s.q.rd) (htime : s.env.time ≤ time) :
    topCall (.handle time) s = answer .hIdle { s with q.st := .idle, env.time := time } := by
  simp [topCall, handleCall, dispatch, hb, hfault, hst, hbusy, hend, Nat.not_lt.mpr htime]

theorem topCall_commit {s : State} (hb : s.m.begun = true) (hfault : s.m.fault = none) :
    topCall .commit s =
      if s.q.st = .building then answer (.code .ok) { s with q.st := .executing }
      else answer (.code .wrongState) s := by
  rw [topCall_of_begun (op := .commit) hb nofun]
  by_cases hst : s.q.st = .building <;> simp [hostOpEffect, opCommit, hfault, hst]

/-- Settles O51: after `commit()` the block executes, so an empty queue is drained at once and no appender
finds the state it needs. -/
theorem commitStartsExecution : Obligations.CommitStartsExecution := by
  intro s hb hfault
  refine ⟨fun hst => ?_, fun hst => ⟨_, rfl, ?_, ?_, ?_⟩⟩
  · rw [topCall_commit hb hfault, if_neg hst]; rfl
  · rw [topCall_commit hb hfault, if_pos hst]; rfl
  · intro hwr hbusy time htime
    exact topCall_handle_drained hb hfault rfl hbusy (by simp [hwr]) htime
  · intro op happ hok
    exact topCall_appender_wrongState hb (cannotAppend_of_not_building (by simp)) happ hok

/-! ### `getData()` -/

/-- `getData()` drains the accumulator in every state, at top level and from a handler (R131). -/
theorem topCall_getData {s : State} (hb : s.m.begun = true) : topCall .getData s = opGetData s :=
  topCall_of_begun hb nofun

theorem runNested_getData {s : State} (hb : s.m.begun = true) :
    runNested [.getData] s = opGetData s := by
  rw [runNested, hostCall_of_begun _ hb]; rfl

/-- Settles O53: the first call leaves 0 in the accumulator, which the second returns. -/
theorem getDataDrainsTheAccumulator : Obligations.GetDataDrainsTheAccumulator := by
  intro s hb
  exact ⟨_, rfl, topCall_getData hb, runNested_getData hb, topCall_getData hb⟩

end Sys2Proof.Machine
end

section
/-! PROOFS. Which byte strings decode (30_encoding.md R81 to R87), and the statement O3. -/

namespace Sys2Proof

theorem decodeWait_eq_truncated {p : Params} {bs : List Byte} :
    decodeWait p bs = .truncated ↔ bs.length < p.waitBytes := by
  unfold decodeWait
  split <;> simp [*]

theorem decodeCallback_eq_truncated {p : Params} {bs : List Byte} :
    decodeCallback p bs = .truncated ↔ bs.length < p.handlerBytes + p.contextBytes := by
  unfold decodeCallback
  split <;> simp [*]

theorem decodeWait_cases (p : Params) (bs : List Byte) :
    decodeWait p bs = .truncated ∨ ∃ i rest, decodeWait p bs = .instr i rest := by
  unfold decodeWait
  split <;> simp

theorem decodeCallback_cases (p : Params) (bs : List Byte) :
    decodeCallback p bs = .truncated ∨ ∃ i rest, decodeCallback p bs = .instr i rest := by
  unfold decodeCallback
  split <;> simp

/-- What a byte string is, by its tag: one of the ten one-byte instructions, a Wait, a Callback, or reserved (R81, R87). -/
theorem decode_cons_cases (p : Params) (tag : Byte) (rest : List Byte) :
    (tag.toNat < 0x0A ∧ ∃ i, decode p (tag :: rest) = .instr i rest) ∨
    (tag.toNat = 0x0A ∧ decode p (tag :: rest) = decodeWait p rest) ∨
    (tag.toNat = 0x0B ∧ decode p (tag :: rest) = decodeCallback p rest) ∨
    (0x0C ≤ tag.toNat ∧ decode p (tag :: rest) = .reservedTag) := by
  rw [decode]
  split
  case h_11 h => exact .inr (.inl ⟨h, rfl⟩)
  case h_12 h => exact .inr (.inr (.inl ⟨h, rfl⟩))
  case h_13 =>
    refine .inr (.inr (.inr ⟨?_, rfl⟩))
    simp only [imp_false] at *
    omega
  all_goals exact .inl ⟨by omega, _, rfl⟩

/-- A reserved tag is rejected whatever follows it (R87). -/
theorem decode_of_reservedTag {p : Params} {tag : Byte} {rest : List Byte} (ht : 0x0C ≤ tag.toNat) :
    decode p (tag :: rest) = .reservedTag := by
  rcases decode_cons_cases p tag rest with ⟨h, -⟩ | ⟨h, -⟩ | ⟨h, -⟩ | ⟨-, h⟩
  · omega
  · omega
  · omega
  · exact h

/-- Settles O3: the tag decides the kind of rejection, and for a Wait and a Callback the payload's length does. -/
theorem otherBytesAreRejectedByName : Obligations.OtherBytesAreRejectedByName := by
  intro p bytes
  cases bytes with
  | nil => simp [decode]
  | cons tag rest =>
    have hwait : tag = 10#8 ↔ tag.toNat = 0x0A := BitVec.toNat_inj.symm
    have hcallback : tag = 11#8 ↔ tag.toNat = 0x0B := BitVec.toNat_inj.symm
    rcases decode_cons_cases p tag rest with ⟨ht, i, h⟩ | ⟨ht, h⟩ | ⟨ht, h⟩ | ⟨ht, h⟩
    · simp [h, hwait, hcallback]
      omega
    · rcases decodeWait_cases p rest with hd | ⟨i, r, hd⟩ <;>
        simp [h, hd, ht, hwait, hcallback, ← decodeWait_eq_truncated]
    · rcases decodeCallback_cases p rest with hd | ⟨i, r, hd⟩ <;>
        simp [h, hd, ht, hwait, hcallback, ← decodeCallback_eq_truncated]
    · simp [h, hwait, hcallback]
      omega

/-- An encoded well-formed instruction decodes to itself, whatever follows it (R81, R82). -/
theorem decode_encode_append {p : Params} {i : Instr} (hwf : i.wellFormed p = true) (rest : List Byte) :
    decode p (encode p i ++ rest) = .instr i rest := by
  cases i
  case wait dur =>
    have hd : dur < 2 ^ (8 * p.waitBytes) := by simpa [Instr.wellFormed] using hwf
    simp [encode, decode, decodeWait, leValue_leBytes, Nat.mod_eq_of_lt hd]
  case callback h c =>
    obtain ⟨hh, hc⟩ : h < 2 ^ (8 * p.handlerBytes) ∧ c < 2 ^ (8 * p.contextBytes) := by
      simpa [Instr.wellFormed] using hwf
    have hdrop : (leBytes p.handlerBytes h ++ (leBytes p.contextBytes c ++ rest)).drop
        (p.handlerBytes + p.contextBytes) = rest := by
      rw [← List.append_assoc, List.drop_left' (by simp)]
    simp [encode, decode, decodeCallback, leValue_leBytes, Nat.mod_eq_of_lt hh, Nat.mod_eq_of_lt hc,
      hdrop]
  all_goals rfl

theorem encode_length (p : Params) (i : Instr) : (encode p i).length = encodedLength p i := by
  cases i
  case wait dur => exact Laws.EncodedLength.wait dur p
  case callback h c => exact Laws.EncodedLength.callback h c p
  all_goals rfl

end Sys2Proof
end

section
/-! PROOFS. What a host call changes (40_builder.md R110 to R135). -/

namespace Sys2Proof.Machine

/-- What a call of 40_builder.md that answers has done to the state before it returns its result. -/
inductive HostEffect (s : State) : HostOp → State → Prop
  | unchanged {op : HostOp} (hop : op ≠ .getData) : HostEffect s op s
  | drained : HostEffect s .getData { s with q.acc := 0 }
  | begun (hb : s.m.begun = false) : HostEffect s .begin (release s.blockReset)
  | opened (hf : s.m.fault = none) (hst : s.q.st = .idle) : HostEffect s .beginTransaction
      { s with q.wr := 0, q.rd := 0, q.presence := false, q.st := .building, d.busy := false }
  | committed (hf : s.m.fault = none) (hst : s.q.st = .building) :
      HostEffect s .commit { s with q.st := .executing }
  | appended {op : HostOp} (is : List Instr) (happ : isAppender op = true)
      (hc : cannotAppend s = false) (hwf : ∀ i ∈ is, i.wellFormed s.cfg = true)
      (hroom : s.q.wr + (encodeSeq s.cfg is).length ≤ s.q.qend) :
      HostEffect s op (appended (encodeSeq s.cfg is) s)

/-- An append writes the instruction whole or not at all (R114). -/
theorem appendInstr_cases (i : Instr) (s : State) :
    (∃ e, appendInstr i s = (s, e) ∧ e ≠ .ok) ∨
    (cannotAppend s = false ∧ s.q.wr + (encode s.cfg i).length ≤ s.q.qend ∧
      appendInstr i s = (appended (encode s.cfg i) s, .ok)) := by
  rcases appendBytes_cases (encode s.cfg i) s with ⟨-, h⟩ | ⟨-, -, h⟩ | ⟨hc, hroom, h⟩
  · exact .inl ⟨_, h, nofun⟩
  · exact .inl ⟨_, h, nofun⟩
  · exact .inr ⟨hc, hroom, h⟩

/-- A multi-append has appended nothing, or some of its instructions, with room for all of those (R126, D21). -/
theorem appendSeq_fst_cases (is : List Instr) (s : State) :
    (appendSeq is s).1 = s ∨
    ∃ js : List Instr, (∀ j ∈ js, j ∈ is) ∧ cannotAppend s = false ∧
      s.q.wr + (encodeSeq s.cfg js).length ≤ s.q.qend ∧
      (appendSeq is s).1 = appended (encodeSeq s.cfg js) s := by
  induction is generalizing s with
  | nil => exact .inl rfl
  | cons i is ih =>
    rcases appendInstr_cases i s with ⟨e, h, he⟩ | ⟨hc, hroom, h⟩
    · left
      cases e <;> simp [appendSeq, h] at he ⊢
    · right
      rw [appendSeq, h]
      rcases ih (appended (encode s.cfg i) s) with hs | ⟨js, hjs, -, hroom', hs⟩
      · exact ⟨[i], by simp, hc, by simpa using hroom, by simpa using hs⟩
      · refine ⟨i :: js, ?_, hc, ?_, ?_⟩
        · simpa using fun j hj => .inr (hjs j hj)
        · simpa [appended, Nat.add_assoc] using hroom'
        · rw [encodeSeq_cons, appended_append]
          exact hs

theorem wellFormed_writeBytesInstrs (p : Params) (power : Bool) (data : List Byte) :
    ∀ i ∈ writeBytesInstrs power data, i.wellFormed p = true := by
  intro i hi
  obtain ⟨k, hk⟩ := List.mem_iff_getElem?.mp hi
  have hlt : k < 8 * data.length := by
    rw [← writeBytesInstrs_length power]
    exact (List.getElem?_eq_some_iff.mp hk).1
  rw [← Nat.div_add_mod k 8,
    writeBytesInstrs_getElem? power data (by omega) (Nat.mod_lt k (by omega))] at hk
  obtain rfl := Option.some.inj hk
  simp only [bitWrite]
  split <;> split <;> rfl

/-- The COPYs of a `readBytes` that fits have operands that fit (R127). -/
theorem wellFormed_readBytesInstrs {p : Params} {count dest : Nat}
    (h : readBytesFits p count dest = true) :
    ∀ i ∈ readBytesInstrs count dest, i.wellFormed p = true := by
  induction count generalizing dest with
  | zero => simp [readBytesInstrs]
  | succ n ih =>
    have hfit : dest + (n + 1) ≤ 2 ^ (8 * p.contextBytes) := by simpa [readBytesFits] using h
    have hnext : readBytesFits p n (dest + 1) = true := by
      simp [readBytesFits]
      omega
    intro i hi
    rcases List.mem_append.mp hi with hi | hi
    · rw [List.eq_of_mem_replicate hi]; rfl
    · rcases List.mem_cons.mp hi with rfl | hi
      · simp [Instr.wellFormed]
        omega
      · exact ih hnext i hi

theorem hostEffect_appendInstr {op : HostOp} {i : Instr} {s : State} (happ : isAppender op = true)
    (hwf : i.wellFormed s.cfg = true) : HostEffect s op (appendInstr i s).1 := by
  have hop : op ≠ .getData := by rintro rfl; cases happ
  rcases appendInstr_cases i s with ⟨e, h, -⟩ | ⟨hc, hroom, h⟩
  · rw [h]; exact .unchanged hop
  · rw [h, show encode s.cfg i = encodeSeq s.cfg [i] by simp]
    exact .appended [i] happ hc (by simpa using hwf) (by simpa using hroom)

theorem hostEffect_appendSeq {op : HostOp} {is : List Instr} {s : State}
    (happ : isAppender op = true) (hwf : ∀ i ∈ is, i.wellFormed s.cfg = true) :
    HostEffect s op (appendSeq is s).1 := by
  have hop : op ≠ .getData := by rintro rfl; cases happ
  rcases appendSeq_fst_cases is s with h | ⟨js, hjs, hc, hroom, h⟩
  · rw [h]; exact .unchanged hop
  · rw [h]
    exact .appended js happ hc (fun j hj => hwf j (hjs j hj)) hroom

theorem wellFormed_writeBitInstr (p : Params) (v : Nat) : (writeBitInstr v).wellFormed p = true := by
  unfold writeBitInstr
  split <;> rfl

theorem wellFormed_powerBitInstr (p : Params) (v : Nat) : (powerBitInstr v).wellFormed p = true := by
  unfold powerBitInstr
  split <;> rfl

/-- A call has its effect and returns a result, or is refused; it never faults (R110, R112). -/
theorem hostCall_cases (op : HostOp) (s : State) :
    (∃ u r, HostEffect s op u ∧ hostCall op s = answer r u) ∨ ∃ e, hostCall op s = .refused e := by
  unfold hostCall
  split
  · exact .inr ⟨_, rfl⟩
  cases op
  case begin =>
    simp only [hostOpEffect, opBegin]
    split
    · exact .inr ⟨_, rfl⟩
    · next hb => exact .inl ⟨_, _, .begun (by simpa using hb), rfl⟩
  case beginTransaction =>
    simp only [hostOpEffect, opBeginTransaction]
    split
    · exact .inl ⟨_, _, .unchanged nofun, rfl⟩
    · next h =>
      obtain ⟨hf, hst⟩ : s.m.fault = none ∧ s.q.st = .idle := by simpa using h
      exact .inl ⟨_, _, .opened hf hst, rfl⟩
  case commit =>
    simp only [hostOpEffect, opCommit]
    split
    · exact .inl ⟨_, _, .unchanged nofun, rfl⟩
    · next h =>
      obtain ⟨hf, hst⟩ : s.m.fault = none ∧ s.q.st = .building := by simpa using h
      exact .inl ⟨_, _, .committed hf hst, rfl⟩
  case getData => exact .inl ⟨_, _, .drained, rfl⟩
  case inProgress | getLastSearchResult => exact .inl ⟨_, _, .unchanged nofun, rfl⟩
  case handle => exact .inr ⟨_, rfl⟩
  case crc8 =>
    simp only [hostOpEffect, opCrc8]
    split
    · exact .inr ⟨_, rfl⟩
    · exact .inl ⟨_, _, .unchanged nofun, rfl⟩
  case reset | readBit | searchFirst | searchNext | power | unpower =>
    exact .inl ⟨_, _, hostEffect_appendInstr rfl rfl, rfl⟩
  case writeBit => exact .inl ⟨_, _, hostEffect_appendInstr rfl (wellFormed_writeBitInstr ..), rfl⟩
  case writeBitWithPower =>
    exact .inl ⟨_, _, hostEffect_appendInstr rfl (wellFormed_powerBitInstr ..), rfl⟩
  case writeBytes =>
    exact .inl ⟨_, _, hostEffect_appendSeq rfl (wellFormed_writeBytesInstrs _ _ _), rfl⟩
  case readBytes =>
    simp only [hostOpEffect, opReadBytes]
    split
    · next h => exact .inl ⟨_, _, hostEffect_appendSeq rfl (wellFormed_readBytesInstrs h), rfl⟩
    · exact .inr ⟨_, rfl⟩
  case wait =>
    simp only [hostOpEffect, opWait]
    split
    · next h => exact .inl ⟨_, _, hostEffect_appendInstr rfl h, rfl⟩
    · exact .inr ⟨_, rfl⟩
  case registerCallback =>
    simp only [hostOpEffect, opRegisterCallback]
    split
    · next h => exact .inl ⟨_, _, hostEffect_appendInstr rfl h, rfl⟩
    · exact .inr ⟨_, rfl⟩

theorem hostCall_effect {op : HostOp} {s t : State} (h : hostCall op s = .next t) :
    ∃ u r, HostEffect s op u ∧ t = emit (.returned r) u := by
  rcases hostCall_cases op s with ⟨u, r, hu, he⟩ | ⟨e, he⟩
  · exact ⟨u, r, hu, (answer_eq_next.mp (he ▸ h)).symm⟩
  · simp [he] at h

/-- A call that answers on a faulted block has kept the mark and the transaction state (R50, R165). -/
theorem HostEffect.of_faulted {op : HostOp} {s u : State} (h : HostEffect s op u)
    (hb : s.m.begun = true) (hf : s.m.fault ≠ none) : u.m = s.m ∧ u.q.st = s.q.st := by
  cases h with
  | unchanged => exact ⟨rfl, rfl⟩
  | drained => exact ⟨rfl, rfl⟩
  | begun h => simp [hb] at h
  | opened h => exact absurd h hf
  | committed h => exact absurd h hf
  | appended => exact ⟨rfl, rfl⟩

/-- A call that answers on an executing block has at most drained the accumulator (R134, R135). -/
theorem HostEffect.of_executing {op : HostOp} {s u : State} (h : HostEffect s op u)
    (hb : s.m.begun = true) (hx : s.q.st = .executing) :
    u = { s with q.acc := if op = .getData then 0 else s.q.acc } := by
  cases h with
  | unchanged hop => rw [if_neg hop]
  | drained => rfl
  | begun h => simp [hb] at h
  | opened hf hst => simp [hx] at hst
  | committed hf hst => simp [hx] at hst
  | appended is happ hc => simp [cannotAppend, hx] at hc

theorem HostEffect.out {op : HostOp} {s u : State} (h : HostEffect s op u) :
    u.out = s.out ∨ u.out = s.out ++ [.bus .release] := by
  cases h
  case begun => exact .inr rfl
  all_goals exact .inl rfl

theorem hostCall_ne_fault (op : HostOp) (s : State) (e : Fault) : hostCall op s ≠ .fault e := by
  rcases hostCall_cases op s with ⟨u, r, -, he⟩ | ⟨e, he⟩ <;> simp [he, answer]

theorem runNested_ne_fault (ops : List HostOp) (s : State) (e : Fault) : runNested ops s ≠ .fault e := by
  induction ops generalizing s with
  | nil => simp [runNested]
  | cons op ops ih =>
    rw [runNested]
    intro h
    rcases andThen_eq_fault.mp h with h | ⟨t, -, h⟩
    · exact hostCall_ne_fault op s e h
    · exact ih t h

end Sys2Proof.Machine
end

section
/-! PROOFS. What a bus primitive and a search step leave alone (42_bus_primitives.md, 43_search.md), and the statements O30 and
O22. -/

namespace Sys2Proof.Machine

/-! ### Outputs -/

theorem finishedOf_append (o o' : List Output) :
    finishedOf (o ++ o') = finishedOf o ++ finishedOf o' := by
  induction o with
  | nil => rfl
  | cons x o ih => cases x <;> simp [finishedOf, ih]

theorem waitsOf_append (o o' : List Output) : waitsOf (o ++ o') = waitsOf o + waitsOf o' := by
  induction o with
  | nil => simp [waitsOf]
  | cons x o ih =>
    cases x
    case bus a => cases a <;> simp [waitsOf, ih, Nat.add_assoc]
    all_goals simpa [waitsOf] using ih

theorem finished_mem_iff {k : Kind} {o : List Output} : .finished k ∈ o ↔ k ∈ finishedOf o := by
  induction o with
  | nil => simp [finishedOf]
  | cons x o ih => cases x <;> simp [finishedOf, ih]

@[simp] theorem finishedOf_returned (rs : List HostResult) : finishedOf (rs.map .returned) = [] := by
  induction rs with
  | nil => rfl
  | cons r rs ih => exact ih

@[simp] theorem waitsOf_returned (rs : List HostResult) : waitsOf (rs.map .returned) = 0 := by
  induction rs with
  | nil => rfl
  | cons r rs ih => exact ih

/-- Outputs of one primitive: no completion, and waits no longer than the longest (R188). -/
def PrimitiveOutput (p : Params) (o : List Output) : Prop :=
  finishedOf o = [] ∧ waitsOf o ≤ longestWait p

theorem primitiveOutput_nil (p : Params) : PrimitiveOutput p [] := ⟨rfl, Nat.zero_le _⟩

theorem primitiveOutput_slot (p : Params) (b power : Bool) :
    PrimitiveOutput p (slotOutput p b power) := by
  cases b <;> cases power <;>
    simp [PrimitiveOutput, slotOutput, finishedOf, waitsOf, longestWait]

theorem primitiveOutput_read (p : Params) (b : Bool) : PrimitiveOutput p (readOutput p b) := by
  simp [PrimitiveOutput, readOutput, finishedOf, waitsOf, longestWait]
  omega

theorem primitiveOutput_presence (p : Params) (b : Bool) :
    PrimitiveOutput p (presenceOutput p b) := by
  simp [PrimitiveOutput, presenceOutput, finishedOf, waitsOf, longestWait]

/-! ### What the bus primitives and the phases of a search leave alone -/

/-- A bus primitive or a phase of a search changes the result slot, the presence flag, the reset registers, the pin
and the search state, draws from the bus, and emits outputs of one primitive; it changes nothing else. -/
structure BusFrame (s t : State) : Prop where
  cfg : t.cfg = s.cfg
  q : t.q = { s.q with
    presence := t.q.presence, resStatus := t.q.resStatus, resAddr := t.q.resAddr }
  d : t.d = s.d
  p : t.p = { s.p with rstPhase := t.p.rstPhase, rstT0 := t.p.rstT0, rstT1 := t.p.rstT1 }
  m : t.m = s.m
  dest : t.dest = s.dest
  env : t.env = { s.env with bus := t.env.bus, free := t.env.free }
  out : ∃ o, t.out = s.out ++ o ∧ PrimitiveOutput s.cfg o

theorem BusFrame.refl (s : State) : BusFrame s s :=
  ⟨rfl, rfl, rfl, rfl, rfl, rfl, rfl, [], by simp, primitiveOutput_nil _⟩

theorem busFrame_writeSlot (b power : Bool) (s : State) : BusFrame s (writeSlot b power s) := by
  rw [writeSlot_eq]
  refine ⟨rfl, rfl, rfl, rfl, rfl, rfl, ?_, _, rfl, primitiveOutput_slot ..⟩
  dsimp only
  rw [busWritten_env]

theorem busFrame_readSlot (s : State) : BusFrame s (readSlot s).1 := by
  rw [readSlot_eq]
  exact ⟨rfl, rfl, rfl, rfl, rfl, rfl, drawLevel_env .., _, rfl, primitiveOutput_read ..⟩

theorem busFrame_resetRelease (s : State) : BusFrame s (resetRelease s) := by
  rw [resetRelease_eq]
  refine ⟨rfl, rfl, rfl, rfl, rfl, rfl, ?_, _, rfl, primitiveOutput_presence ..⟩
  dsimp only
  rw [drawLevel_env, busReset_env]

theorem busFrame_resetStep (s : State) : BusFrame s (resetStep s).1 := by
  rcases resetStep_cases s with ⟨-, h⟩ | ⟨-, -, h⟩ | ⟨-, -, h⟩ | ⟨-, -, h⟩ | ⟨-, -, h⟩ <;> rw [h]
  · exact ⟨rfl, rfl, rfl, rfl, rfl, rfl, rfl, [.bus .driveLow], rfl, rfl, Nat.zero_le _⟩
  · exact .refl s
  · exact busFrame_resetRelease s
  · exact .refl s
  · exact ⟨rfl, rfl, rfl, rfl, rfl, rfl, rfl, [], by simp, primitiveOutput_nil _⟩

/-- The search state and the result slot are outside the frame. -/
theorem BusFrame.search {s t : State} (h : BusFrame s t) (x : Search) (status : ResultStatus)
    (addr : Rom) : BusFrame s { t with srch := x, q.resStatus := status, q.resAddr := addr } :=
  ⟨h.cfg, by dsimp only; rw [h.q], h.d, h.p, h.m, h.dest, h.env, h.out⟩

theorem busFrame_searchReset (s : State) : BusFrame s (searchReset s).1 := by
  have hr := busFrame_resetStep s
  rcases searchReset_cases s with ⟨-, h⟩ | ⟨-, -, h⟩ | ⟨-, -, h⟩ <;> rw [h]
  · exact hr
  · exact hr.search _ _ _
  · exact hr.search _ _ _

/-- A frame from a state that differs in the search state alone is a frame from the state itself. -/
theorem BusFrame.of_search {s t : State} {x : Search} (h : BusFrame { s with srch := x } t) :
    BusFrame s t := ⟨h.cfg, h.q, h.d, h.p, h.m, h.dest, h.env, h.out⟩

theorem busFrame_searchBegin (start : Bool) (s : State) : BusFrame s (searchBegin start s).1 := by
  rcases searchBegin_cases start s with ⟨-, h⟩ | ⟨-, -, h⟩ | ⟨-, -, h⟩ <;> rw [h]
  · exact .of_search (busFrame_searchReset (searchInit (searchClear s)))
  · exact (BusFrame.refl s).search s.srch _ _
  · exact .of_search (busFrame_searchReset (searchInit s))

theorem busFrame_searchWriteDir (s : State) : BusFrame s (searchWriteDir s).1 := by
  have hw := busFrame_writeSlot s.srch.dir false s
  rw [writeSlot_eq] at hw
  rw [searchWriteDir_eq]
  dsimp only
  split
  · exact hw.search _ _ _
  · rcases searchComplete_cases _ with ⟨-, h⟩ | ⟨-, h⟩ <;> rw [h] <;> exact hw.search _ _ _

theorem busFrame_searchStep (start : Bool) (s : State) : BusFrame s (searchStep start s).1 := by
  unfold searchStep
  have hr := busFrame_readSlot s
  split
  · exact busFrame_searchBegin start s
  · exact busFrame_searchReset s
  · exact (busFrame_writeSlot _ false s).search _ _ _
  · exact hr.search _ _ _
  · unfold searchReadCmp
    dsimp only
    split
    · exact hr.search _ _ _
    · split <;> exact hr.search _ _ _
  · exact busFrame_searchWriteDir s

/-- What O30 asks of the state after a search step: it follows from the frame of the bus primitives. -/
theorem BusFrame.rest {s t : State} (h : BusFrame s t) :
    t.cfg = s.cfg ∧
    (t.q.acc = s.q.acc ∧ t.q.buf = s.q.buf ∧ t.q.wr = s.q.wr ∧ t.q.rd = s.q.rd ∧
      t.q.qend = s.q.qend ∧ t.q.st = s.q.st) ∧
    (t.p.waitStarted = s.p.waitStarted ∧ t.p.waitT0 = s.p.waitT0) ∧
    (t.m = s.m ∧ t.dest = s.dest) ∧
    t.env.time = s.env.time ∧ t.env.calls = s.env.calls ∧
      t.env.handlers = s.env.handlers ∧ t.env.hooks = s.env.hooks := by
  rw [h.q, h.p, h.env]
  exact ⟨h.cfg, ⟨rfl, rfl, rfl, rfl, rfl, rfl⟩, ⟨rfl, rfl⟩, ⟨h.m, h.dest⟩, rfl, rfl, rfl, rfl⟩

/-! ### Retirement -/

/-- The state after a step of a primitive that is done or is not (R150, R158). -/
def retired (k : Kind) (r : State × Bool) : State := if r.2 then complete k r.1 else r.1

theorem retireIf_eq (k : Kind) (r : State × Bool) : retireIf k r = .next (retired k r) := rfl

section
variable (k : Kind) (r : State × Bool)

@[simp] theorem retired_cfg : (retired k r).cfg = r.1.cfg := by unfold retired; split <;> rfl
@[simp] theorem retired_q : (retired k r).q = r.1.q := by unfold retired; split <;> rfl
@[simp] theorem retired_instr : (retired k r).d.instr = r.1.d.instr := by
  unfold retired; split <;> rfl
@[simp] theorem retired_p : (retired k r).p = r.1.p := by unfold retired; split <;> rfl
@[simp] theorem retired_srch : (retired k r).srch = r.1.srch := by unfold retired; split <;> rfl
@[simp] theorem retired_m : (retired k r).m = r.1.m := by unfold retired; split <;> rfl
@[simp] theorem retired_dest : (retired k r).dest = r.1.dest := by unfold retired; split <;> rfl
@[simp] theorem retired_env : (retired k r).env = r.1.env := by unfold retired; split <;> rfl
@[simp] theorem retired_busy : (retired k r).d.busy = (r.1.d.busy && !r.2) := by
  cases h : r.2 <;> simp [retired, h]
@[simp] theorem retired_out :
    (retired k r).out = r.1.out ++ if r.2 then [.finished k] else [] := by
  cases h : r.2 <;> simp [retired, h]

end

/-! ### Search statements -/

/-- Settles O30: a search step is within the frame of the bus primitives, and the re-tag and the completion change
the slot and the outputs alone. -/
theorem searchesLeaveTheRestAlone : Obligations.SearchesLeaveTheRestAlone := by
  rintro s i (rfl | rfl)
  · have hframe := busFrame_searchStep true s
    obtain ⟨hcfg, hq, ⟨hw, hw'⟩, ⟨hm, hdest⟩, henv⟩ := hframe.rest
    refine ⟨_, retireIf_eq .searchNext (retagSearch (searchStep true s).1, (searchStep true s).2), ?_⟩
    simp [hcfg, hq, hw, hw', hm, hdest, henv]
  · have hframe := busFrame_searchStep false s
    obtain ⟨hcfg, hq, ⟨hw, hw'⟩, ⟨hm, hdest⟩, henv⟩ := hframe.rest
    refine ⟨_, retireIf_eq .searchNext (searchStep false s), ?_⟩
    simp [hcfg, hq, hw, hw', hm, hdest, henv, hframe.d]

/-- Where no reset is under way, the reset phase of a search begins one (R224). -/
theorem searchReset_of_phase0 {s : State} (h : s.p.rstPhase = .phase0) :
    searchReset s = (resetStart s, false) := by
  simp [searchReset, resetStep, h]

/-- Settles O22: in SIdle a search step begins a pass, which goes on into phase 0 of the reset. -/
theorem searchStartsAPass : Obligations.SearchStartsAPass := by
  intro s hphase hrst
  have hfirst : searchStep true s = (resetStart (searchInit (searchClear s)), false) := by
    rw [searchStep, hphase]
    exact searchReset_of_phase0 hrst
  have hnext : searchStep false s = searchBegin false s := by rw [searchStep, hphase]
  refine ⟨?_, fun hlast => ?_, fun hlast => ?_⟩
  · rw [exec, execSrchf, hfirst]
    rfl
  · have hbegin : searchBegin false s = searchReset (searchInit s) := by simp [searchBegin, hlast]
    rw [exec, execSrchn, hnext, hbegin, searchReset_of_phase0 (s := searchInit s) hrst]
    rfl
  · have hbegin : searchBegin false s = ({ s with q.resStatus := .notFound }, true) := by
      simp [searchBegin, hlast]
    rw [exec, execSrchn, hnext, hbegin]
    rfl

end Sys2Proof.Machine
end

section
/-! PROOFS. What calls from inside `handle()` and a step of the slot leave alone (40_builder.md R134, 41_dispatcher.md R157,
R158), and the statement O37. -/

namespace Sys2Proof.Machine

/-! ### Calls from inside `handle()` -/

/-- What calls from inside `handle()` change: the accumulator, the inputs, and the results among the outputs (R134). -/
structure Answered (s t : State) : Prop where
  block : t = { s with q.acc := t.q.acc, env := t.env, out := t.out }
  out : ∃ rs : List HostResult, t.out = s.out ++ rs.map Output.returned

theorem Answered.refl (s : State) : Answered s s := ⟨rfl, [], by simp⟩

theorem Answered.answer {s t : State} (h : Answered s t) (r : HostResult) :
    Answered s (emit (.returned r) t) := by
  obtain ⟨hb, rs, ho⟩ := h
  exact ⟨by rw [hb]; rfl, rs ++ [r], by simp [ho]⟩

theorem OnlyDrained.answered {s t : State} (h : OnlyDrained s t) : Answered s t := by
  obtain ⟨-, hb, ho⟩ := h
  exact ⟨by rw [hb], ho⟩

/-- The inputs are outside what is left alone. -/
theorem Answered.of_env {s t : State} {e : Env} (h : Answered { s with env := e } t) : Answered s t :=
  ⟨h.block, h.out⟩

theorem runHandler_answered {s t : State} (hb : s.m.begun = true) (hx : s.q.st = .executing)
    (h : runHandler s = .next t) : Answered s t := by
  unfold runHandler at h
  split at h
  · exact .of_env (runNested_executing (by exact hb) (by exact hx) h).answered
  · simp only [freeHandler] at h
    split at h
    · rw [opGetData, answer_eq_next] at h
      exact h ▸ ⟨rfl, [_], rfl⟩
    · obtain rfl := Host.Outcome.next.inj h
      exact ⟨rfl, [], by simp⟩

theorem runHook_answered {s t : State} (hb : s.m.begun = true) (hx : s.q.st = .executing)
    (h : runHook s = .next t) : Answered s t := by
  unfold runHook at h
  split at h
  · exact .of_env (runNested_executing (by exact hb) (by exact hx) h).answered
  · exact Host.Outcome.next.inj h ▸ .refl s

theorem finishCall_answered {s t : State} (hb : s.m.begun = true) (hx : s.q.st = .executing)
    (h : finishCall s = .next t) : Answered s t := by
  unfold finishCall at h
  split at h
  · exact answer_eq_next.mp h ▸ (Answered.refl s).answer _
  · obtain ⟨u, hu, ht⟩ := andThen_eq_next.mp h
    exact answer_eq_next.mp ht ▸ (runHook_answered hb hx hu).answer _

/-- An allowed call made while a transaction executes returns a result; `getData()` alone drains (R134). -/
theorem hostCall_allowed_eq {op : HostOp} {s : State} (hb : s.m.begun = true)
    (hx : s.q.st = .executing) (hok : allowedNested s.cfg op = true) :
    ∃ r, hostCall op s = answer r { s with q.acc := if op = .getData then 0 else s.q.acc } := by
  obtain ⟨t, ht⟩ := hostCall_allowed hb hok
  obtain ⟨u, r, hu, rfl⟩ := hostCall_effect ht
  obtain rfl := hu.of_executing hb hx
  exact ⟨r, ht⟩

/-- A run of allowed calls returns one result for each, and drains if a `getData()` is among them (R134). -/
theorem runNested_allowed_eq {ops : List HostOp} {s : State} (hb : s.m.begun = true)
    (hx : s.q.st = .executing) (hok : ∀ op ∈ ops, allowedNested s.cfg op = true) :
    ∃ rs : List HostResult, rs.length = ops.length ∧
      runNested ops s = .next { s with
        q.acc := if drains ops then 0 else s.q.acc, out := s.out ++ rs.map Output.returned } := by
  induction ops generalizing s with
  | nil => exact ⟨[], rfl, by simp [runNested, drains]⟩
  | cons op ops ih =>
    obtain ⟨r, hr⟩ := hostCall_allowed_eq hb hx (hok op List.mem_cons_self)
    let u := emit (.returned r) { s with q.acc := if op = .getData then 0 else s.q.acc }
    obtain ⟨rs, hlen, hrs⟩ := ih (s := u) hb hx (fun o ho => hok o (List.mem_cons_of_mem op ho))
    refine ⟨r :: rs, by simp [hlen], ?_⟩
    rw [runNested, hr, answer, andThen_next, hrs]
    by_cases hop : op = .getData
    · simp [u, emit, drains, hop]
    · simp [u, emit, drains, hop, Ne.symm hop]

/-- Settles O37: the end of a call is the hook, when the slot is free and one is listed, and the result. -/
theorem handleEndsBusyAfterAStep : Obligations.HandleEndsBusyAfterAStep := by
  refine fun s => ⟨fun h => ?_, fun ops rest hbusy hhooks hb hx hok => ?_⟩
  · cases hbusy : s.d.busy
    · have hhooks : s.env.hooks = [] := by simpa [hbusy] using h
      simp [finishCall, hbusy, runHook, hhooks, answer, emit]
    · simp [finishCall, hbusy, answer, emit]
  · obtain ⟨rs, hlen, hrs⟩ := runNested_allowed_eq (s := { s with env.hooks := rest }) hb hx hok
    refine ⟨rs, hlen, ?_⟩
    simp [finishCall, hbusy, runHook, hhooks, hrs, answer, emit]

/-! ### What a step of the slot leaves alone -/

/-- `t` follows `s` with the completions `ks` and the waits of one primitive at most among the new outputs (R158, R188). -/
def StepOutput (ks : List Kind) (s t : State) : Prop :=
  ∃ o, t.out = s.out ++ o ∧ finishedOf o = ks ∧ waitsOf o ≤ longestWait s.cfg

/-- A step of the slot, and the end of the call after it: the parameters, the queue with its cursors and the bookkeeping
stay; the slot keeps its instruction but for the re-tag; DEST changes by one COPY at most; the outputs hold at most one
completion, of Nop only if the slot held it, and the waits of one primitive (R158, R160, R164). -/
structure SlotFrame (s t : State) : Prop where
  cfg : t.cfg = s.cfg
  q : t.q = { s.q with
    presence := t.q.presence, acc := t.q.acc, resStatus := t.q.resStatus, resAddr := t.q.resAddr }
  m : t.m = s.m
  busy : t.d.busy = true → s.d.busy = true
  instr : t.d.instr = s.d.instr ∨ (s.d.instr = .instr .srchf ∧ t.d.instr = .instr .srchn)
  dest : t.dest.mem = s.dest.mem ∨
    ∃ c b, c < 2 ^ (8 * s.cfg.contextBytes) ∧ t.dest.mem = memWrite s.dest.mem c b
  out : ∃ ks, StepOutput ks s t ∧ ks.length ≤ 1 ∧ (.nop ∈ ks → s.d.instr = .nop)

/-- A step of one primitive, before the instruction is retired: as `BusFrame`, but for the accumulator of a Read, the
registers of a Wait and the re-tag of a SearchFirst. -/
structure PrimitiveFrame (s t : State) : Prop where
  cfg : t.cfg = s.cfg
  q : t.q = { s.q with
    presence := t.q.presence, acc := t.q.acc, resStatus := t.q.resStatus, resAddr := t.q.resAddr }
  m : t.m = s.m
  busy : t.d.busy = s.d.busy
  instr : t.d.instr = s.d.instr ∨ (s.d.instr = .instr .srchf ∧ t.d.instr = .instr .srchn)
  dest : t.dest = s.dest
  out : ∃ o, t.out = s.out ++ o ∧ PrimitiveOutput s.cfg o

theorem BusFrame.primitive {s t : State} (h : BusFrame s t) : PrimitiveFrame s t :=
  ⟨h.cfg, by rw [h.q], h.m, by rw [h.d], .inl (by rw [h.d]), h.dest, h.out⟩

/-- Retirement adds to a primitive's step the completion alone (R158). -/
theorem slotFrame_of_retireIf {s t : State} {k : Kind} {r : State × Bool} (hk : k ≠ .nop)
    (hf : PrimitiveFrame s r.1) (h : retireIf k r = .next t) : SlotFrame s t := by
  obtain rfl := Host.Outcome.next.inj (retireIf_eq k r ▸ h)
  obtain ⟨o, ho, hfin, hwait⟩ := hf.out
  refine ⟨by simp [hf.cfg], ?_, by simp [hf.m], ?_, by simpa using hf.instr, by simp [hf.dest],
    if r.2 then [k] else [], ⟨o ++ if r.2 then [.finished k] else [], by simp [ho], ?_, ?_⟩, ?_, ?_⟩
  · rw [retired_q]
    exact hf.q
  · rw [retired_busy, hf.busy, Bool.and_eq_true]
    exact And.left
  · cases r.2 <;> simp [finishedOf_append, hfin, finishedOf]
  · cases r.2 <;> simpa [waitsOf_append, waitsOf] using hwait
  · cases r.2 <;> simp
  · cases r.2 <;> simp [hk.symm]

theorem SlotFrame.answered {s u t : State} (h : SlotFrame s u) (ha : Answered u t) : SlotFrame s t := by
  obtain ⟨hblock, rs, hrs⟩ := ha
  obtain ⟨ks, ⟨o, ho, hfin, hwait⟩, hks⟩ := h.out
  refine ⟨by rw [hblock]; exact h.cfg, by rw [hblock, h.q], by rw [hblock]; exact h.m,
    by rw [hblock]; exact h.busy, by rw [hblock]; exact h.instr, by rw [hblock]; exact h.dest,
    ks, ⟨o ++ rs.map .returned, by simp [hrs, ho], by simpa [finishedOf_append] using hfin,
      by simpa [waitsOf_append] using hwait⟩, hks⟩

theorem copy_next {c : Nat} {s t : State} (h : copy c s = .next t) :
    c < 2 ^ (8 * s.cfg.contextBytes) ∧ t = { s with dest.mem := memWrite s.dest.mem c s.q.acc } := by
  unfold copy at h
  split at h
  · cases h
  · split at h
    · cases h
    · exact ⟨by omega, (Host.Outcome.next.inj h).symm⟩

/-- A Callback that answers has copied the accumulator to a DEST byte, or run the host's handler (R184, R185). -/
theorem callbackStep_next {h c : Nat} {s t : State} (hb : s.m.begun = true)
    (hx : s.q.st = .executing) (ht : callbackStep h c s = .next t) :
    (c < 2 ^ (8 * s.cfg.contextBytes) ∧ t = { s with dest.mem := memWrite s.dest.mem c s.q.acc }) ∨
      Answered (emit (.hostCallback h c) s) t := by
  unfold callbackStep at ht
  split at ht
  · exact .inl (copy_next ht)
  · exact .inr (runHandler_answered (by exact hb) (by exact hx) ht)

theorem slotFrame_callback {h c : Nat} {s t : State} (hb : s.m.begun = true)
    (hx : s.q.st = .executing) (ht : execCallback h c s = .next t) : SlotFrame s t := by
  obtain ⟨u, hu, hc⟩ := andThen_eq_next.mp ht
  obtain rfl := Host.Outcome.next.inj hc
  rcases callbackStep_next hb hx hu with ⟨hlt, rfl⟩ | ⟨hblock, rs, hrs⟩
  · exact ⟨rfl, rfl, rfl, by simp, .inl rfl, .inr ⟨c, s.q.acc, hlt, rfl⟩, [.callback],
      ⟨[.finished .callback], rfl, rfl, Nat.zero_le _⟩, Nat.le_refl 1, by simp⟩
  · refine ⟨by rw [hblock]; rfl, by rw [hblock]; rfl, by rw [hblock]; rfl, by simp,
      .inl (by rw [hblock]; rfl), .inl (by rw [hblock]; rfl),
      [.callback], ⟨.hostCallback h c :: rs.map .returned ++ [.finished .callback], by simp [hrs],
        by simp [finishedOf_append, finishedOf], by simp [waitsOf_append, waitsOf]⟩, Nat.le_refl 1,
      by simp⟩

/-- Every case of a Wait's step (R183). -/
theorem waitStep_cases (dur : Nat) (s : State) :
    (s.p.waitStarted = false ∧
      waitStep dur s = ({ s with p.waitT0 := now s, p.waitStarted := true }, false)) ∨
    (s.p.waitStarted = true ∧ elapsed s.cfg (now s) s.p.waitT0 < dur ∧ waitStep dur s = (s, false)) ∨
    (s.p.waitStarted = true ∧ dur ≤ elapsed s.cfg (now s) s.p.waitT0 ∧
      waitStep dur s = ({ s with p.waitStarted := false }, true)) := by
  unfold waitStep
  split
  · next hs =>
    split
    · next hd => exact .inr (.inr ⟨hs, hd, rfl⟩)
    · next hd => exact .inr (.inl ⟨hs, Nat.lt_of_not_le hd, rfl⟩)
  · next hs => exact .inl ⟨by simpa using hs, rfl⟩

theorem primitiveFrame_wait (dur : Nat) (s : State) : PrimitiveFrame s (waitStep dur s).1 := by
  have hframe : ∀ p : Prims, PrimitiveFrame s { s with p := p } := fun p =>
    ⟨rfl, rfl, rfl, rfl, .inl rfl, rfl, [], by simp, primitiveOutput_nil _⟩
  rcases waitStep_cases dur s with ⟨-, h⟩ | ⟨-, -, h⟩ | ⟨-, -, h⟩ <;> rw [h]
  · exact hframe _
  · exact hframe s.p
  · exact hframe _

/-- An action at the pin other than a wait. -/
theorem primitiveFrame_pin {s : State} (pin : Drive) (a : BusAction) (ha : waitsOf [.bus a] = 0) :
    PrimitiveFrame s (emit (.bus a) { s with pin := pin }) :=
  ⟨rfl, rfl, rfl, rfl, .inl rfl, rfl, [.bus a], rfl, rfl, by omega⟩

theorem primitiveFrame_read (s : State) (acc : Byte) :
    PrimitiveFrame s { (readSlot s).1 with q.acc := acc } := by
  obtain ⟨hcfg, hq, hm, hbusy, hinstr, hdest, hout⟩ := (busFrame_readSlot s).primitive
  exact ⟨hcfg, by dsimp only; rw [hq], hm, hbusy, hinstr, hdest, hout⟩

theorem primitiveFrame_retag {s u : State} (hf : BusFrame s u) (hi : s.d.instr = .instr .srchf) :
    PrimitiveFrame s (retagSearch u) := by
  obtain ⟨hcfg, hq, hm, hbusy, hinstr, hdest, hout⟩ := hf.primitive
  exact ⟨hcfg, hq, hm, hbusy, .inr ⟨hi, rfl⟩, hdest, hout⟩

/-- Every instruction but the Callback is one primitive's step that is retired (R157). -/
theorem slotFrame_exec {i : Instr} {s t : State} (hi : s.d.instr = .instr i) (hb : s.m.begun = true)
    (hx : s.q.st = .executing) (h : exec i s = .next t) : SlotFrame s t := by
  cases i
  case callback => exact slotFrame_callback hb hx h
  case reset => exact slotFrame_of_retireIf (by decide) (busFrame_resetStep s).primitive h
  case w0 | w1 | pw0 | pw1 =>
    exact slotFrame_of_retireIf (by decide) (busFrame_writeSlot _ _ s).primitive h
  case read => exact slotFrame_of_retireIf (r := (_, true)) (by decide) (primitiveFrame_read s _) h
  case srchf =>
    exact slotFrame_of_retireIf (by decide) (primitiveFrame_retag (busFrame_searchStep true s) hi) h
  case srchn => exact slotFrame_of_retireIf (by decide) (busFrame_searchStep false s).primitive h
  case power => exact slotFrame_of_retireIf (by decide) (primitiveFrame_pin .high .driveHigh rfl) h
  case unpower => exact slotFrame_of_retireIf (by decide) (primitiveFrame_pin .released .release rfl) h
  case wait dur => exact slotFrame_of_retireIf (by decide) (primitiveFrame_wait dur s) h

theorem slotFrame_nop {s t : State} (hi : s.d.instr = .nop) (h : execNop s = .next t) :
    SlotFrame s t := by
  obtain rfl := Host.Outcome.next.inj h
  exact ⟨rfl, rfl, rfl, by simp, .inl rfl, .inl rfl, [.nop],
    ⟨[.finished .nop], rfl, rfl, Nat.zero_le _⟩, Nat.le_refl 1, fun _ => hi⟩

theorem stepSlot_of_instr {s : State} {i : Instr} (hi : s.d.instr = .instr i) :
    stepSlot s = exec i s := by
  rw [stepSlot, hi]

theorem stepSlot_of_nop {s : State} (hi : s.d.instr = .nop) : stepSlot s = execNop s := by
  rw [stepSlot, hi]

theorem slotFrame_stepSlot {s t : State} (hb : s.m.begun = true) (hx : s.q.st = .executing)
    (h : stepSlot s = .next t) : SlotFrame s t := by
  cases hi : s.d.instr with
  | instr i => exact slotFrame_exec hi hb hx (stepSlot_of_instr hi ▸ h)
  | nop => exact slotFrame_nop hi (stepSlot_of_nop hi ▸ h)

theorem SlotFrame.st {s t : State} (h : SlotFrame s t) : t.q.st = s.q.st := by rw [h.q]

/-- A call that stepped the slot is within the slot's frame, the hook and the result included (R150). -/
theorem slotFrame_stepInFlight {s t : State} (hb : s.m.begun = true) (hx : s.q.st = .executing)
    (h : stepInFlight s = .next t) : SlotFrame s t := by
  obtain ⟨u, hu, ht⟩ := andThen_eq_next.mp h
  have hf := slotFrame_stepSlot hb hx hu
  exact hf.answered (finishCall_answered (by rw [hf.m, hb]) (by rw [hf.st, hx]) ht)

end Sys2Proof.Machine
end

section
/-! PROOFS. What a `handle()` call and a step do (41_dispatcher.md R150 to R165), and the statements O35, O36, O38, O39, O40, O41
and O43. -/

namespace Sys2Proof.Machine

/-! ### What a `handle()` call does -/

/-- The states whose slot a call steps: with an instruction in flight the state itself, else the state after a fetch that
filled the slot (R150, R159). -/
inductive Loaded (s : State) : State → Prop
  | inFlight (hbusy : s.d.busy = true) : Loaded s s
  | fetched (i : Instr) (rest : List Byte) (hbusy : s.d.busy = false) (hlt : s.q.rd < s.q.wr)
      (hd : decode s.cfg (fetchWindow s) = .instr i rest) : Loaded s (fetched i s)
  | nop (hbusy : s.d.busy = false) (hlt : s.q.rd < s.q.wr)
      (hd : decode s.cfg (fetchWindow s) = .truncated) : Loaded s (fetchedNop s)

theorem dispatch_of_loaded {s u : State} (h : Loaded s u) (hf : s.m.fault = none)
    (hx : s.q.st = .executing) : dispatch s = stepInFlight u := by
  cases h with
  | inFlight hbusy => simp [dispatch, hf, hx, hbusy]
  | fetched i rest hbusy hlt hd =>
    simp [dispatch, hf, hx, hbusy, Nat.not_le.mpr hlt, fetch_of_instr hd, afterFetch]
  | nop hbusy hlt hd =>
    simp [dispatch, hf, hx, hbusy, Nat.not_le.mpr hlt, fetch_of_truncated hd, afterFetch]

theorem dispatch_of_reservedTag (s : State) (hf : s.m.fault = none) (hx : s.q.st = .executing)
    (hbusy : s.d.busy = false) (hlt : s.q.rd < s.q.wr)
    (hd : decode s.cfg (fetchWindow s) = .reservedTag) :
    dispatch s = answer .hIdle (raiseIllegalTag s) := by
  simp [dispatch, hf, hx, hbusy, Nat.not_le.mpr hlt, fetch_of_reservedTag hd, afterFetch]

/-- A faulted block, and one that does not execute, answers HIdle (R151, R165). -/
theorem dispatch_of_quiet (s : State) (h : s.m.fault ≠ none ∨ s.q.st ≠ .executing) :
    dispatch s = answer .hIdle s := by
  rcases dispatch_cases s with ⟨-, hd⟩ | ⟨hf, hx, -⟩ | ⟨hf, hx, -⟩ | ⟨hf, hx, -⟩
  · exact hd
  all_goals rcases h with h | h
  all_goals contradiction

/-- The whole of a call that reaches the dispatcher (R150): HIdle at once, the end of the transaction, the fault, or a step
of the slot. -/
theorem dispatch_outcome (s : State) :
    dispatch s = answer .hIdle s ∨
    (s.d.busy = false ∧ s.q.wr ≤ s.q.rd ∧ s.q.st = .executing ∧
      dispatch s = answer .hIdle { s with q.st := .idle }) ∨
    (s.m.fault = none ∧ s.q.rd < s.q.wr ∧ decode s.cfg (fetchWindow s) = .reservedTag ∧
      dispatch s = answer .hIdle (raiseIllegalTag s)) ∨
    (s.m.fault = none ∧ s.q.st = .executing ∧ ∃ u, Loaded s u ∧ dispatch s = stepInFlight u) := by
  rcases dispatch_cases s with ⟨-, h⟩ | ⟨hf, hx, hbusy, -⟩ | ⟨-, hx, hbusy, hle, h⟩ |
    ⟨hf, hx, hbusy, hlt, -⟩
  · exact .inl h
  · exact .inr (.inr (.inr ⟨hf, hx, s, .inFlight hbusy, dispatch_of_loaded (.inFlight hbusy) hf hx⟩))
  · exact .inr (.inl ⟨hbusy, hle, hx, h⟩)
  · rcases fetch_cases hlt with ⟨i, rest, hd, -⟩ | ⟨hd, -⟩ | ⟨hd, -⟩
    · have hl := Loaded.fetched i rest hbusy hlt hd
      exact .inr (.inr (.inr ⟨hf, hx, _, hl, dispatch_of_loaded hl hf hx⟩))
    · have hl := Loaded.nop hbusy hlt hd
      exact .inr (.inr (.inr ⟨hf, hx, _, hl, dispatch_of_loaded hl hf hx⟩))
    · exact .inr (.inr (.inl ⟨hf, hlt, hd, dispatch_of_reservedTag s hf hx hbusy hlt hd⟩))

theorem Loaded.keeps {s u : State} (h : Loaded s u) :
    u.cfg = s.cfg ∧ u.q = { s.q with rd := u.q.rd } ∧ u.m = s.m ∧ u.out = s.out := by
  cases h <;> exact ⟨rfl, rfl, rfl, rfl⟩

theorem Loaded.slotFrame {s u t : State} (hu : Loaded s u) (hb : s.m.begun = true)
    (hx : s.q.st = .executing) (h : stepInFlight u = .next t) : SlotFrame u t := by
  obtain ⟨-, hq, hm, -⟩ := hu.keeps
  exact slotFrame_stepInFlight (by rw [hm, hb]) (by rw [hq]; exact hx) h

/-! ### A step is a host call or reaches the dispatcher -/

theorem topCall_handle {s : State} {time : Nat} (hb : s.m.begun = true) (htime : s.env.time ≤ time) :
    topCall (.handle time) s = dispatch { s with env.time := time } := by
  simp [topCall, handleCall, hb, Nat.not_lt.mpr htime]

theorem step_handle {s : State} {time : Nat} {later : List HostOp} (hb : s.m.begun = true)
    (hcalls : s.env.calls = .handle time :: later) (htime : s.env.time ≤ time) :
    step s = dispatch { s with env.time := time, env.calls := later } := by
  rw [step, hostStep, hcalls]
  exact topCall_handle (s := { s with env.calls := later }) hb htime

theorem step_poll {s : State} (hb : s.m.begun = true) (hcalls : s.env.calls = []) :
    step s = dispatch { s with
      env.time := s.env.time + Config.freeAdvance s.env.free, env.free := s.env.free + 1 } := by
  rw [step, hostStep, hcalls]
  simp [pollCall, hb]

/-- A step is a host call, a call that reaches the dispatcher, or a refusal, on the state with other inputs. -/
theorem step_outcome (s : State) : ∃ e : Env,
    (∃ op, s.env.calls.head? = some op ∧ step s = hostCall op { s with env := e }) ∨
    (s.m.begun = true ∧ step s = dispatch { s with env := e }) ∨ ∃ r, step s = .refused r := by
  cases hb : s.m.begun <;> rcases step_cases s with ⟨op, rest, hcalls, h⟩ | ⟨hcalls, h⟩
  · rcases topCall_cases op { s with env.calls := rest } with ⟨time, rfl, ht⟩ | ⟨-, ht⟩
    · exact ⟨s.env, .inr (.inr ⟨.notBegun, by simp [h, ht, handleCall, hb]⟩)⟩
    · exact ⟨_, .inl ⟨op, by simp [hcalls], h.trans ht⟩⟩
  · exact ⟨s.env, .inr (.inr ⟨.notBegun, by simp [h, pollCall, hb]⟩)⟩
  · rcases topCall_cases op { s with env.calls := rest } with ⟨time, rfl, ht⟩ | ⟨-, ht⟩
    · by_cases htime : s.env.time ≤ time
      · exact ⟨_, .inr (.inl ⟨rfl, step_handle hb hcalls htime⟩)⟩
      · exact ⟨s.env, .inr (.inr ⟨.clockWentBackwards,
          by simp [h, ht, handleCall, hb, Nat.lt_of_not_le htime]⟩)⟩
    · exact ⟨_, .inl ⟨op, by simp [hcalls], h.trans ht⟩⟩
  · exact ⟨_, .inr (.inl ⟨rfl, step_poll hb hcalls⟩)⟩

/-! ### The statements about a `handle()` call -/

/-- Settles O35: the fetch fills the slot with `i`, and the same call steps it. -/
theorem stepRunsTheDecodedInstruction : Obligations.StepRunsTheDecodedInstruction := by
  intro s i rest hb hf hx hbusy hlt hd
  refine ⟨fun time later hcalls htime => ?_, fun hcalls => ?_⟩
  · have hl := Loaded.fetched (s := { s with env.time := time, env.calls := later }) i rest hbusy hlt hd
    rw [step_handle hb hcalls htime, dispatch_of_loaded hl hf hx]
    rfl
  · have hl := Loaded.fetched (s := { s with
      env.time := s.env.time + Config.freeAdvance s.env.free, env.free := s.env.free + 1 })
      i rest hbusy hlt hd
    rw [step_poll hb hcalls, dispatch_of_loaded hl hf hx]
    rfl

/-- Settles O36: with a busy slot the call is a step of it, which keeps the queue and the slot's instruction. -/
theorem inFlightInstructionIsSteppedNotReplaced :
    Obligations.InFlightInstructionIsSteppedNotReplaced := by
  intro s time later hb hf hx hbusy hcalls htime
  have hl := Loaded.inFlight (s := { s with env.time := time, env.calls := later }) hbusy
  have hstep := (step_handle hb hcalls htime).trans (dispatch_of_loaded hl hf hx)
  refine ⟨fun i hi => ?_, fun t ht => ?_⟩
  · rw [hstep, stepInFlight, stepSlot_of_instr (s := { s with env.time := time, env.calls := later }) hi]
  · have hframe := slotFrame_stepInFlight (by exact hb) (by exact hx) (hstep ▸ ht)
    refine ⟨?_, ?_, hframe.instr⟩ <;> rw [hframe.q]

/-- Settles O39: the dispatcher looks at the transaction state before anything else. -/
theorem handleOutsideExecutingChangesNothing :
    Obligations.HandleOutsideExecutingChangesNothing := by
  intro s time hb htime hst
  have hx : s.q.st ≠ .executing := by rcases hst with h | h <;> simp [h]
  rw [topCall_handle hb htime, dispatch_of_quiet { s with env.time := time } (.inr hx)]
  rfl

/-- Settles O40: a truncated instruction fills the slot with Nop, which completes at once; a reserved tag is met by the
fetch, which leaves the slot free. -/
theorem truncatedIsNopAndReservedIsFault : Obligations.TruncatedIsNopAndReservedIsFault := by
  intro s time hb hf hx hbusy hlt htime
  refine ⟨fun hd hhooks => ?_, fun htag => ?_⟩
  · have hl := Loaded.nop (s := { s with env.time := time }) hbusy hlt hd
    rw [topCall_handle hb htime, dispatch_of_loaded hl hf hx, stepInFlight, stepSlot_of_nop rfl, execNop,
      retireIf_done, andThen_next]
    simp [finishCall, runHook, hhooks, answer, emit, complete, fetchedNop]
  · have hd : decode s.cfg (fetchWindow s) = .reservedTag := by
      rw [fetchWindow_eq_cons hlt]
      exact decode_of_reservedTag htag
    rw [topCall_handle hb htime, dispatch_of_reservedTag { s with env.time := time } hf hx hbusy hlt hd]
    rfl

/-! ### The statements about every step -/

/-- Settles O41: the mark is looked at before anything else, by `handle()` and by every operation with an error code. -/
theorem faultMarkIsNeverCleared : Obligations.FaultMarkIsNeverCleared := by
  intro s hb hf
  have hne : s.m.fault ≠ none := by simp [hf]
  refine ⟨fun time htime => ?_, fun op hop hok => ?_, fun t ht => ?_⟩
  · rw [topCall_handle hb htime, dispatch_of_quiet { s with env.time := time } (.inl hne)]
    rfl
  · rcases hop with happ | rfl | rfl
    · exact topCall_appender_wrongState hb (by simp [cannotAppend, hf]) happ hok
    · rw [topCall_of_begun (op := .beginTransaction) hb nofun]
      simp [hostOpEffect, opBeginTransaction, hf, answer, emit]
    · rw [topCall_of_begun (op := .commit) hb nofun]
      simp [hostOpEffect, opCommit, hf, answer, emit]
  · obtain ⟨e, ⟨op, -, h⟩ | ⟨-, h⟩ | ⟨r, h⟩⟩ := step_outcome s
    · obtain ⟨u, r, hu, rfl⟩ := hostCall_effect (h ▸ ht)
      exact hu.of_faulted hb hne
    · rw [h, dispatch_of_quiet { s with env := e } (.inl hne), answer_eq_next] at ht
      exact ht ▸ ⟨rfl, rfl⟩
    · simp [h] at ht

/-- Settles O38: a host call keeps Executing, and so do the other ways a `handle()` call can end. -/
theorem onlyADrainedQueueEndsATransaction : Obligations.OnlyADrainedQueueEndsATransaction := by
  refine ⟨fun s time hb hf hx hbusy hend htime =>
    topCall_handle_drained hb hf hx hbusy hend htime, fun s t hb ht hx hidle => ?_⟩
  obtain ⟨e, ⟨op, -, h⟩ | ⟨-, h⟩ | ⟨r, h⟩⟩ := step_outcome s
  · obtain ⟨u, r, hu, rfl⟩ := hostCall_effect (h ▸ ht)
    rw [emit_q, hu.of_executing hb hx] at hidle
    simp [hx] at hidle
  · rw [h] at ht
    rcases dispatch_outcome { s with env := e } with hd | ⟨hbusy, hle, -⟩ | ⟨-, -, -, hd⟩ |
      ⟨-, -, u, hu, hd⟩
    · rw [hd, answer_eq_next] at ht
      simp [← ht, hx] at hidle
    · exact ⟨hbusy, hle⟩
    · rw [hd, answer_eq_next] at ht
      simp [← ht, hx] at hidle
    · have hst := (hu.slotFrame hb hx (hd ▸ ht)).st
      rw [hu.keeps.2.1] at hst
      simp [hst, hx] at hidle
  · simp [h] at ht

theorem stepOutput_of_answer {s u t : State} {r : HostResult} (h : answer r u = .next t)
    (ho : u.out = s.out ∨ u.out = s.out ++ [.bus .release]) : StepOutput [] s t := by
  obtain rfl := answer_eq_next.mp h
  rcases ho with ho | ho
  · exact ⟨[.returned r], by simp [ho], rfl, Nat.zero_le _⟩
  · exact ⟨[.bus .release, .returned r], by simp [ho], rfl, Nat.zero_le _⟩

/-- A host call waits for nothing and completes nothing; a `handle()` call steps the slot once at most (R158, R164). -/
theorem step_output {s t : State} (ht : step s = .next t) :
    ∃ ks, StepOutput ks s t ∧ ks.length ≤ 1 ∧
      (.nop ∈ ks → s.q.st = .executing ∧ ∃ e u, Loaded { s with env := e } u ∧ u.d.instr = .nop) := by
  obtain ⟨e, ⟨op, -, h⟩ | ⟨hb, h⟩ | ⟨r, h⟩⟩ := step_outcome s
  · obtain ⟨u, r, hu, rfl⟩ := hostCall_effect (h ▸ ht)
    exact ⟨[], stepOutput_of_answer rfl hu.out, Nat.zero_le 1, nofun⟩
  · rw [h] at ht
    rcases dispatch_outcome { s with env := e } with hd | ⟨-, -, -, hd⟩ | ⟨-, -, -, hd⟩ |
      ⟨-, hx, u, hu, hd⟩
    · exact ⟨[], stepOutput_of_answer (hd.symm.trans ht) (.inl rfl), Nat.zero_le 1, nofun⟩
    · exact ⟨[], stepOutput_of_answer (hd.symm.trans ht) (.inl rfl), Nat.zero_le 1, nofun⟩
    · exact ⟨[], stepOutput_of_answer (hd.symm.trans ht) (.inl rfl), Nat.zero_le 1, nofun⟩
    · obtain ⟨hcfg, -, -, hout⟩ := hu.keeps
      obtain ⟨ks, ⟨o, ho, hfin, hwait⟩, hlen, hnop⟩ := (hu.slotFrame hb hx (hd ▸ ht)).out
      exact ⟨ks, ⟨o, by rw [ho, hout], hfin, by rwa [hcfg] at hwait⟩, hlen,
        fun hk => ⟨hx, e, u, hu, hnop hk⟩⟩
  · simp [h] at ht

/-- Settles O43: the completions and the waits of a step are those of one step of the slot. -/
theorem oneStepIsBounded : Obligations.OneStepIsBounded := by
  intro s t ht
  obtain ⟨ks, ⟨o, ho, hfin, hwait⟩, hlen, -⟩ := step_output ht
  exact ⟨o, ho, hfin ▸ hlen, hwait⟩

end Sys2Proof.Machine
end

section
/-! PROOFS. The invariants of 10_state.md R54 over a step of the slot. -/

namespace Sys2Proof.Machine

/-- Clause (h) of R54. -/
def CursorMask (x : Search) : Prop :=
  ∃ k, k < 8 ∧ x.mask = 1 <<< k ∧ x.bitPos = 8 * x.byteIdx + k + 1

theorem cursorMask_nextCursor {x : Search} (h : CursorMask x) : CursorMask (nextCursor x) := by
  obtain ⟨k, hk, hm, hpos⟩ := h
  rw [nextCursor_eq hk hm]
  by_cases h7 : k = 7
  · exact ⟨0, by decide, by simp [h7], by simp [h7]; omega⟩
  · exact ⟨k + 1, by omega, by simp [h7], by simp [h7]; omega⟩

theorem resetStep_srch (s : State) : (resetStep s).1.srch = s.srch := by
  rcases resetStep_cases s with ⟨-, h⟩ | ⟨-, -, h⟩ | ⟨-, -, h⟩ | ⟨-, -, h⟩ | ⟨-, -, h⟩ <;> rw [h]
  · rfl
  · rw [resetRelease_eq]

/-- A reset that is done is back in phase 0 (R172). -/
theorem resetStep_done {s : State} (hdone : (resetStep s).2 = true) :
    (resetStep s).1.p.rstPhase = .phase0 := by
  rcases resetStep_cases s with ⟨-, h⟩ | ⟨-, -, h⟩ | ⟨-, -, h⟩ | ⟨-, -, h⟩ | ⟨-, -, h⟩ <;>
    rw [h] at hdone ⊢ <;> cases hdone

/-- What the invariants ask of the search state and the reset while a search is in flight (R54 (f), (h)). -/
structure SearchSound (s : State) : Prop where
  reset : s.p.rstPhase ≠ .phase0 → s.srch.phase = .sReset
  cursor : CursorMask s.srch

/-- A search step leaves such a state, with no pass in progress when it is done (R233). -/
def SearchStepSound (r : State × Bool) : Prop :=
  SearchSound r.1 ∧ (r.2 = true → r.1.srch.phase = .sIdle)

theorem searchSound_of_phase0 {s : State} (h : s.p.rstPhase = .phase0) (hc : CursorMask s.srch) :
    SearchSound s := ⟨fun hne => absurd h hne, hc⟩

theorem searchReset_sound {s : State} (hphase : s.srch.phase = .sReset) (hc : CursorMask s.srch) :
    SearchStepSound (searchReset s) := by
  have hsrch := resetStep_srch s
  have hcursor : CursorMask (resetStep s).1.srch := hsrch ▸ hc
  rcases searchReset_cases s with ⟨-, h⟩ | ⟨hdone, -, h⟩ | ⟨hdone, -, h⟩ <;> rw [h]
  · exact ⟨⟨fun _ => by rw [hsrch, hphase], hcursor⟩, nofun⟩
  · exact ⟨searchSound_of_phase0 (resetStep_done hdone) hcursor, nofun⟩
  · exact ⟨searchSound_of_phase0 (resetStep_done hdone) hcursor, fun _ => rfl⟩

theorem cursorMask_searchInit (s : State) : CursorMask (searchInit s).srch :=
  ⟨0, by decide, rfl, rfl⟩

theorem searchBegin_sound (start : Bool) {s : State} (hphase : s.srch.phase = .sIdle)
    (h : SearchSound s) : SearchStepSound (searchBegin start s) := by
  rcases searchBegin_cases start s with ⟨-, he⟩ | ⟨-, -, he⟩ | ⟨-, -, he⟩ <;> rw [he]
  · exact searchReset_sound rfl (cursorMask_searchInit _)
  · exact ⟨⟨h.reset, h.cursor⟩, fun _ => hphase⟩
  · exact searchReset_sound rfl (cursorMask_searchInit _)

theorem searchReadCmp_sound {s : State} (h : s.p.rstPhase = .phase0) (hc : CursorMask s.srch) :
    SearchStepSound (searchReadCmp s) := by
  rw [searchReadCmp_eq]
  dsimp only
  split
  · exact ⟨searchSound_of_phase0 h hc, fun _ => rfl⟩
  · split
    · exact ⟨searchSound_of_phase0 h hc, nofun⟩
    · refine ⟨searchSound_of_phase0 h ?_, nofun⟩
      rw [choose_eq]
      exact hc

theorem searchWriteDir_sound {s : State} (h : s.p.rstPhase = .phase0) (hc : CursorMask s.srch) :
    SearchStepSound (searchWriteDir s) := by
  have hnext := cursorMask_nextCursor (x := { s.srch with
    rom := setCursorBit s.srch.rom s.srch.byteIdx s.srch.mask s.srch.dir }) hc
  rw [searchWriteDir_eq]
  dsimp only
  split
  · exact ⟨searchSound_of_phase0 h hnext, nofun⟩
  · rcases searchComplete_cases _ with ⟨-, he⟩ | ⟨-, he⟩ <;> rw [he] <;>
      exact ⟨searchSound_of_phase0 h hnext, fun _ => rfl⟩

/-- Every phase but SReset leaves the reset alone, and every phase keeps the cursors in step. -/
theorem searchStep_sound (start : Bool) {s : State} (h : SearchSound s) :
    SearchStepSound (searchStep start s) := by
  have hquiet : s.srch.phase ≠ .sReset → s.p.rstPhase = .phase0 := fun hne =>
    Classical.byContradiction fun hc => hne (h.reset hc)
  unfold searchStep
  split <;> rename_i hphase
  · exact searchBegin_sound start hphase h
  · exact searchReset_sound hphase h.cursor
  · rw [searchCmd_eq]
    exact ⟨searchSound_of_phase0 (hquiet (by simp [hphase])) h.cursor, nofun⟩
  · rw [searchReadId_eq]
    exact ⟨searchSound_of_phase0 (hquiet (by simp [hphase])) h.cursor, nofun⟩
  · exact searchReadCmp_sound (hquiet (by simp [hphase])) h.cursor
  · exact searchWriteDir_sound (hquiet (by simp [hphase])) h.cursor

/-- The clauses (e) to (h) of R54. -/
structure SlotInv (s : State) : Prop where
  search_in_flight : s.srch.phase ≠ .sIdle → s.d.busy = true ∧ s.d.instr.isSearch
  reset_in_flight : s.p.rstPhase ≠ .phase0 →
    s.d.busy = true ∧
      (s.d.instr = .instr .reset ∨ (s.d.instr.isSearch ∧ s.srch.phase = .sReset))
  wait_in_flight : s.p.waitStarted = true → s.d.busy = true ∧ s.d.instr.isWait
  cursor_mask : CursorMask s.srch

theorem slotInv_of_quiet {s : State} (hr : s.p.rstPhase = .phase0) (hw : s.p.waitStarted = false)
    (hs : s.srch.phase = .sIdle) (hc : CursorMask s.srch) : SlotInv s :=
  ⟨fun h => absurd hs h, fun h => absurd hr h, fun h => by simp [hw] at h, hc⟩

/-- On an executing block the invariants are the cursors and the clauses about the slot. -/
theorem inv_of_slotInv {s : State} (hx : s.q.st = .executing)
    (hcur : s.q.rd ≤ s.q.wr ∧ s.q.wr ≤ s.q.qend ∧ s.q.qend = s.cfg.cap) (h : SlotInv s) : Inv s where
  idle_quiet hst := by simp [hx] at hst
  building_quiet hst := by simp [hx] at hst
  cursors := hcur
  busy_executing _ := hx
  search_in_flight := h.search_in_flight
  reset_in_flight := h.reset_in_flight
  wait_in_flight := h.wait_in_flight
  cursor_mask := h.cursor_mask

theorem slotInv_of_search {s : State} (hsound : SearchSound s) (hw : s.p.waitStarted = false)
    (hfly : s.srch.phase ≠ .sIdle → s.d.busy = true ∧ s.d.instr.isSearch) : SlotInv s where
  search_in_flight := hfly
  reset_in_flight hc := by
    have hphase := hsound.reset hc
    obtain ⟨hbusy, hsearch⟩ := hfly (by simp [hphase])
    exact ⟨hbusy, .inr ⟨hsearch, hphase⟩⟩
  wait_in_flight hc := by simp [hw] at hc
  cursor_mask := hsound.cursor

section
variable {s : State} (h : Inv s) (hbusy : s.d.busy = true)

include h

/-- An instruction that leaves the timing registers and the search state alone, and needs neither. -/
theorem Inv.slotInv_of_same {i : Instr} {t : State} (hi : s.d.instr = .instr i) (hr : i ≠ .reset)
    (hs : ¬(InFlight.instr i).isSearch) (hw : ¬(InFlight.instr i).isWait) (hp : t.p = s.p)
    (hsrch : t.srch = s.srch) : SlotInv t := by
  obtain ⟨hrst, hphase⟩ := h.quiet hi hr hs
  exact slotInv_of_quiet (by rw [hp, hrst]) (by rw [hp, h.not_waiting hi hw]) (by rw [hsrch, hphase])
    (hsrch ▸ h.cursor_mask)

include hbusy

theorem Inv.slotInv_reset (hi : s.d.instr = .instr .reset) :
    SlotInv (retired .reset (resetStep s)) := by
  have hf := busFrame_resetStep s
  have hphase : s.srch.phase = .sIdle := Classical.byContradiction fun hc => by
    simpa [hi, InFlight.isSearch] using (h.search_in_flight hc).2
  have hwait := h.not_waiting hi (by simp [InFlight.isWait])
  refine ⟨?_, fun hrst => ?_, ?_, ?_⟩
  · simp [resetStep_srch, hphase]
  · rw [retired_p] at hrst
    have hdone : (resetStep s).2 = false := by
      cases hd : (resetStep s).2
      · rfl
      · exact absurd (resetStep_done hd) hrst
    simp [hf.d, hbusy, hdone, hi]
  · rw [retired_p, hf.p, hwait]
    nofun
  · rw [retired_srch, resetStep_srch]
    exact h.cursor_mask

theorem Inv.slotInv_wait {dur : Nat} (hi : s.d.instr = .instr (.wait dur)) :
    SlotInv (retired .wait (waitStep dur s)) := by
  obtain ⟨hrst, hphase⟩ := h.quiet hi (by simp) (by simp [InFlight.isSearch])
  rcases waitStep_cases dur s with ⟨-, he⟩ | ⟨-, -, he⟩ | ⟨-, -, he⟩ <;> rw [he]
  · exact ⟨fun hc => absurd hphase hc, fun hc => absurd hrst hc, fun _ => ⟨hbusy, dur, hi⟩, h.cursor_mask⟩
  · exact ⟨h.search_in_flight, h.reset_in_flight, h.wait_in_flight, h.cursor_mask⟩
  · exact slotInv_of_quiet hrst rfl hphase h.cursor_mask

/-- A search step, with the slot re-tagged or left. -/
theorem Inv.slotInv_search (start : Bool) {f : InFlight} (hi : s.d.instr.isSearch) (hf : f.isSearch) :
    SlotInv (retired .searchNext
      ({ (searchStep start s).1 with d.instr := f }, (searchStep start s).2)) := by
  have hframe := busFrame_searchStep start s
  have hwait : s.p.waitStarted = false := by
    cases hw : s.p.waitStarted
    · rfl
    · obtain ⟨dur, hd⟩ := (h.wait_in_flight hw).2
      simp [hd, InFlight.isSearch] at hi
  have hsound : SearchSound s := ⟨fun hc => (h.reset_in_flight hc).2.elim
    (fun he => by simp [he, InFlight.isSearch] at hi) And.right, h.cursor_mask⟩
  obtain ⟨⟨hreset, hcursor⟩, hdone⟩ := searchStep_sound start hsound
  refine slotInv_of_search ⟨?_, ?_⟩ ?_ fun hne => ⟨?_, ?_⟩
  · simpa using hreset
  · simpa using hcursor
  · rw [retired_p, hframe.p, hwait]
  · rw [retired_srch] at hne
    have hrun : (searchStep start s).2 = false := by simpa using fun hd => hne (hdone hd)
    simp [hframe.d, hbusy, hrun]
  · simpa using hf

/-- Of the timing registers and the search state, each instruction keeps what R54 says of the slot. -/
theorem Inv.slotInv_exec {i : Instr} {t : State} (hi : s.d.instr = .instr i) (hb : s.m.begun = true)
    (hx : s.q.st = .executing) (ht : exec i s = .next t) : SlotInv t := by
  have hsame : i ≠ .reset ∧ ¬(InFlight.instr i).isSearch ∧ ¬(InFlight.instr i).isWait →
      t.p = s.p → t.srch = s.srch → SlotInv t := fun ⟨hr, hs, hw⟩ => h.slotInv_of_same hi hr hs hw
  cases i
  case callback =>
    obtain ⟨u, hu, hc⟩ := andThen_eq_next.mp ht
    obtain rfl := Host.Outcome.next.inj hc
    have hu' : u.p = s.p ∧ u.srch = s.srch := by
      rcases callbackStep_next hb hx hu with ⟨-, rfl⟩ | ha
      · exact ⟨rfl, rfl⟩
      · rw [ha.block]
        exact ⟨rfl, rfl⟩
    exact hsame (by simp [InFlight.isSearch, InFlight.isWait]) hu'.1 hu'.2
  all_goals obtain rfl := Host.Outcome.next.inj ht
  case reset => exact h.slotInv_reset hbusy hi
  case wait => exact h.slotInv_wait hbusy hi
  case srchf => exact h.slotInv_search hbusy true (.inl hi) (.inr rfl)
  case srchn =>
    have hsearch : (searchStep false s).1.d.instr.isSearch := by
      rw [(busFrame_searchStep false s).d]
      exact .inr hi
    exact h.slotInv_search hbusy false (.inr hi) hsearch
  case w0 | w1 | pw0 | pw1 =>
    refine hsame (by simp [InFlight.isSearch, InFlight.isWait]) ?_ ?_ <;>
      simp [writeSlot_eq]
  case read =>
    refine hsame (by simp [InFlight.isSearch, InFlight.isWait]) ?_ ?_ <;>
      simp [readSlot_eq]
  case power | unpower =>
    exact hsame (by simp [InFlight.isSearch, InFlight.isWait]) rfl rfl

end

/-- A step of an instruction in flight, and the end of the call, keep the invariants. -/
theorem Inv.of_stepInFlight {i : Instr} {s t : State} (h : Inv s) (hbusy : s.d.busy = true)
    (hi : s.d.instr = .instr i) (hb : s.m.begun = true) (hx : s.q.st = .executing)
    (ht : stepInFlight s = .next t) : Inv t := by
  obtain ⟨u, hu, hfin⟩ := andThen_eq_next.mp ht
  have hf := slotFrame_stepSlot hb hx hu
  rw [stepSlot_of_instr hi] at hu
  have hinv : Inv u := inv_of_slotInv (hf.st.trans hx) (by rw [hf.q, hf.cfg]; exact h.cursors)
    (h.slotInv_exec hbusy hi hb hx hu)
  have ha := finishCall_answered (by rw [hf.m, hb]) (hf.st.trans hx) hfin
  refine hinv.congr ?_ ⟨?_, ?_, ?_, ?_⟩ ?_ ?_ ?_ <;> rw [ha.block]

/-- A fetch of an instruction that ends at or below the write cursor keeps the invariants (R152). -/
theorem Inv.fetched {i : Instr} {s : State} (h : Inv s) (hbusy : s.d.busy = false)
    (hx : s.q.st = .executing) (hle : s.q.rd + encodedLength s.cfg i ≤ s.q.wr) : Inv (fetched i s) := by
  obtain ⟨hrst, hwait, hphase⟩ := h.idle_slot hbusy
  exact inv_of_slotInv hx ⟨hle, h.cursors.2⟩ (slotInv_of_quiet hrst hwait hphase h.cursor_mask)

end Sys2Proof.Machine
end

section
/-! PROOFS. Built blocks stay built (30_encoding.md R85 to R87), and the statement O58. -/

namespace Sys2Proof.Machine

/-! ### Whole queues (30_encoding.md R85) -/

/-- A whole queue with bytes left begins with a well-formed instruction, and is whole after its fetch. -/
theorem QueueWhole.head {s : State} (h : QueueWhole s) (hlt : s.q.rd < s.q.wr) :
    ∃ i rest, i.wellFormed s.cfg = true ∧ decode s.cfg (fetchWindow s) = .instr i rest ∧
      s.q.rd + encodedLength s.cfg i ≤ s.q.wr ∧ QueueWhole (fetched i s) := by
  obtain ⟨is, hwf, his⟩ := h
  cases is with
  | nil =>
    have hlen := congrArg List.length his
    simp only [List.flatMap_nil, List.length_nil, queueRun_length] at hlen
    omega
  | cons i is =>
    rw [List.flatMap_cons] at his
    have hi := encode_length s.cfg i
    have hlen := congrArg List.length his
    rw [List.length_append, queueRun_length, hi] at hlen
    have hwant : (encode s.cfg i).length ≤ fetchWant s := by
      have hmax := (encodedLength_bounds s.cfg i).2
      simp only [fetchWant]
      omega
    have hle : fetchWant s ≤ s.q.wr - s.q.rd := Nat.min_le_left _ _
    have hwindow : fetchWindow s = encode s.cfg i ++
        (is.flatMap (encode s.cfg)).take (fetchWant s - (encode s.cfg i).length) := by
      rw [fetchWindow, ← queueRun_take s.q.buf s.q.rd hle, ← his,
        List.take_append, List.take_of_length_le hwant]
    refine ⟨i, _, hwf i List.mem_cons_self, hwindow ▸ decode_encode_append (hwf i List.mem_cons_self) _,
      by omega, is, fun j hj => hwf j (List.mem_cons_of_mem i hj), ?_⟩
    have hdrop := congrArg (List.drop (encodedLength s.cfg i)) his
    rw [List.drop_left' hi, queueRun_drop _ _ (by omega)] at hdrop
    rw [fetched_q, fetched_cfg, hdrop, Nat.sub_sub]

theorem queueWhole_of_drained {s : State} (h : s.q.wr ≤ s.q.rd) : QueueWhole s :=
  ⟨[], by simp, by simp [Nat.sub_eq_zero_of_le h]⟩

/-- An append of well-formed instructions keeps a queue whole (R75, R114). -/
theorem QueueWhole.appended {s : State} {is : List Instr} (h : QueueWhole s) (hle : s.q.rd ≤ s.q.wr)
    (hwf : ∀ i ∈ is, i.wellFormed s.cfg = true) : QueueWhole (appended (encodeSeq s.cfg is) s) := by
  obtain ⟨js, hjs, hrun⟩ := h
  refine ⟨js ++ is, fun i hi => (List.mem_append.mp hi).elim (hjs i) (hwf i), ?_⟩
  simp only [Machine.appended, List.flatMap_append]
  rw [Nat.sub_add_comm hle, queueRun_add, Nat.add_sub_cancel' hle, encodeSeq, queueRun_memWriteBytes, hrun]
  congr 1
  refine queueRun_congr fun x hx hx' => (memRead_memWriteBytes_outside _ _ _ ?_).symm
  omega

/-! ### Built blocks -/

/-- `MemoryInv` reads the two memories, the queue's end and the width of a context. -/
theorem MemoryInv.congr {s t : State} (h : MemoryInv s) (hcfg : t.cfg = s.cfg)
    (hbuf : t.q.buf = s.q.buf) (hend : t.q.qend = s.q.qend) (hdest : t.dest.mem = s.dest.mem) :
    MemoryInv t := by
  constructor <;> simp only [hcfg, hbuf, hend, hdest]
  · exact h.buf_wf
  · exact h.buf_inside
  · exact h.dest_wf
  · exact h.dest_inside

/-- `Built` reads the parameters, the queue but for its flags and results, the slot, the timing registers, the search state,
the mark and DEST. -/
theorem Built.congr {s t : State} (h : Built s) (hcfg : t.cfg = s.cfg)
    (hq : t.q.buf = s.q.buf ∧ t.q.wr = s.q.wr ∧ t.q.rd = s.q.rd ∧ t.q.qend = s.q.qend ∧ t.q.st = s.q.st)
    (hd : t.d = s.d) (hp : t.p = s.p) (hs : t.srch = s.srch) (hm : t.m = s.m)
    (hdest : t.dest = s.dest) : Built t := by
  obtain ⟨hbuf, hwr, hrd, hend, hst⟩ := hq
  refine ⟨h.inv.congr hcfg ⟨hwr, hrd, hend, hst⟩ hd hp hs,
    h.mem.congr hcfg hbuf hend (congrArg Dest.mem hdest), ?_, ?_, ?_, ?_⟩
  · unfold QueueWhole
    rw [hcfg, hbuf, hwr, hrd]
    exact h.whole
  · unfold SlotWellFormed
    rw [hcfg, hd]
    exact h.slot
  · rw [hd]
    exact h.no_nop
  · rw [hm]
    exact h.no_fault

theorem Built.emit {s : State} (h : Built s) (o : Output) : Built (emit o s) :=
  h.congr rfl ⟨rfl, rfl, rfl, rfl, rfl⟩ rfl rfl rfl rfl rfl

theorem Built.env {s : State} (h : Built s) (e : Env) : Built { s with env := e } :=
  h.congr rfl ⟨rfl, rfl, rfl, rfl, rfl⟩ rfl rfl rfl rfl rfl

/-- With a free slot and nothing under way, the invariants are the cursors and clause (h). -/
theorem inv_of_free {s : State} (hbusy : s.d.busy = false)
    (hquiet : s.p.rstPhase = .phase0 ∧ s.p.waitStarted = false ∧ s.srch.phase = .sIdle)
    (hmask : CursorMask s.srch)
    (hcur : s.q.rd ≤ s.q.wr ∧ s.q.wr ≤ s.q.qend ∧ s.q.qend = s.cfg.cap)
    (hrd : s.q.st = .building → s.q.rd = 0) : Inv s where
  idle_quiet _ := ⟨hbusy, hquiet⟩
  building_quiet hst := ⟨hbusy, hrd hst⟩
  cursors := hcur
  busy_executing hc := by simp [hbusy] at hc
  search_in_flight hc := absurd hquiet.2.2 hc
  reset_in_flight hc := absurd hquiet.1 hc
  wait_in_flight hc := by simp [hquiet] at hc
  cursor_mask := hmask

/-- A free slot asks nothing of `Built` but the invariants, the memories, the queue and the mark. -/
theorem built_of_free {s : State} (hbusy : s.d.busy = false) (hinv : Inv s) (hmem : MemoryInv s)
    (hwhole : QueueWhole s) (hf : s.m.fault = none) : Built s where
  inv := hinv
  mem := hmem
  whole := hwhole
  slot _ _ hc := by simp [hbusy] at hc
  no_nop hc := by simp [hbusy] at hc
  no_fault := hf

/-- The end of a transaction (R153). -/
theorem Built.idle {s : State} (h : Built s) (hbusy : s.d.busy = false) :
    Built { s with q.st := .idle } :=
  built_of_free hbusy
    (inv_of_free hbusy (h.inv.idle_slot hbusy) h.inv.cursor_mask h.inv.cursors nofun)
    (h.mem.congr rfl rfl rfl rfl) h.whole h.no_fault

/-- `begin()` leaves an empty queue (R55, R111). -/
theorem Built.blockReset {s : State} (h : Built s) : Built (release s.blockReset) := by
  have hmask : CursorMask Search.reset := ⟨0, by decide, rfl, rfl⟩
  have hmem : MemoryInv (release s.blockReset) :=
    ⟨List.Pairwise.nil, fun c hc => absurd hc List.not_mem_nil, h.mem.dest_wf, h.mem.dest_inside⟩
  exact built_of_free rfl
    (inv_of_free rfl ⟨rfl, rfl, rfl⟩ hmask ⟨Nat.le_refl _, Nat.zero_le _, rfl⟩ nofun) hmem
    (queueWhole_of_drained (Nat.le_refl _)) rfl

/-- `beginTransaction()` opens an empty queue (R113). -/
theorem Built.opened {s : State} (h : Built s) (hst : s.q.st = .idle) :
    Built { s with q.wr := 0, q.rd := 0, q.presence := false, q.st := .building, d.busy := false } := by
  obtain ⟨-, hquiet⟩ := h.inv.idle_quiet hst
  obtain ⟨-, -, hcap⟩ := h.inv.cursors
  exact built_of_free rfl
    (inv_of_free rfl hquiet h.inv.cursor_mask ⟨Nat.le_refl _, Nat.zero_le _, hcap⟩ fun _ => rfl)
    (h.mem.congr rfl rfl rfl rfl) (queueWhole_of_drained (Nat.le_refl _)) h.no_fault

/-- `commit()` keeps the queue (R129). -/
theorem Built.committed {s : State} (h : Built s) (hst : s.q.st = .building) :
    Built { s with q.st := .executing } := by
  obtain ⟨hbusy, -⟩ := h.inv.building_quiet hst
  exact built_of_free hbusy
    (inv_of_free hbusy (h.inv.idle_slot hbusy) h.inv.cursor_mask h.inv.cursors nofun)
    (h.mem.congr rfl rfl rfl rfl) h.whole h.no_fault

/-- The appenders keep the queue whole and inside its capacity (R114). -/
theorem Built.appended {s : State} {is : List Instr} (h : Built s) (hst : s.q.st = .building)
    (hwf : ∀ i ∈ is, i.wellFormed s.cfg = true)
    (hroom : s.q.wr + (encodeSeq s.cfg is).length ≤ s.q.qend) :
    Built (appended (encodeSeq s.cfg is) s) := by
  obtain ⟨hle, -, hcap⟩ := h.inv.cursors
  obtain ⟨hbusy, hrd⟩ := h.inv.building_quiet hst
  have hinside : ∀ c ∈ memWriteBytes s.q.buf s.q.wr (encodeSeq s.cfg is), c.1 < s.q.qend := fun c hc =>
    (mem_of_mem_memWriteBytes hc).elim (fun hc => Nat.lt_of_lt_of_le hc.2 hroom) (h.mem.buf_inside c)
  exact built_of_free hbusy
    (inv_of_free hbusy (h.inv.idle_slot hbusy) h.inv.cursor_mask
      ⟨Nat.le_add_right_of_le hle, hroom, hcap⟩ fun _ => hrd)
    ⟨memWriteBytes_wf h.mem.buf_wf _ _, hinside, h.mem.dest_wf, h.mem.dest_inside⟩
    (h.whole.appended hle hwf) h.no_fault

/-- A host call keeps a built block. -/
theorem HostEffect.built {op : HostOp} {s u : State} (he : HostEffect s op u) (h : Built s) :
    Built u := by
  cases he with
  | unchanged => exact h
  | drained => exact h.congr rfl ⟨rfl, rfl, rfl, rfl, rfl⟩ rfl rfl rfl rfl rfl
  | begun => exact h.blockReset
  | opened _ hst => exact h.opened hst
  | committed _ hst => exact h.committed hst
  | appended is _ hc hwf hroom => exact h.appended (cannotAppend_eq_false.mp hc).2 hwf hroom

/-! ### A call that steps the slot -/

/-- A fetch meets a well-formed instruction, so what the slot holds is one (R85, R86). -/
theorem Loaded.built {s u : State} (hu : Loaded s u) (h : Built s) (hx : s.q.st = .executing) :
    Built u ∧ u.d.busy = true := by
  cases hu with
  | inFlight hbusy => exact ⟨h, hbusy⟩
  | fetched i rest hbusy hlt hd =>
    obtain ⟨j, _, hwf, hd', hle, hwhole⟩ := h.whole.head hlt
    obtain ⟨rfl, -⟩ := Decoded.instr.inj (hd.symm.trans hd')
    refine ⟨⟨h.inv.fetched hbusy hx hle, h.mem.congr rfl rfl rfl rfl,
      hwhole, fun k hk _ => ?_, nofun, h.no_fault⟩, rfl⟩
    obtain rfl : i = k := InFlight.instr.inj hk
    exact hwf
  | nop hbusy hlt hd =>
    obtain ⟨i, rest, -, hd', -⟩ := h.whole.head hlt
    simp [hd] at hd'

theorem SlotFrame.memoryInv {s t : State} (hf : SlotFrame s t) (h : MemoryInv s) : MemoryInv t := by
  have hbuf : t.q.buf = s.q.buf ∧ t.q.qend = s.q.qend := by
    rw [hf.q]
    exact ⟨rfl, rfl⟩
  have hdest : t.dest.mem.wf ∧ ∀ c ∈ t.dest.mem, c.1 < 2 ^ (8 * s.cfg.contextBytes) := by
    rcases hf.dest with he | ⟨c, b, hc, he⟩ <;> rw [he]
    · exact ⟨h.dest_wf, h.dest_inside⟩
    · refine ⟨memWrite_wf h.dest_wf c b, fun x hx => ?_⟩
      rcases mem_of_mem_memWrite hx with rfl | hx
      · exact hc
      · exact h.dest_inside x hx
  refine ⟨hbuf.1 ▸ h.buf_wf, ?_, hdest.1, ?_⟩
  · rw [hbuf.1, hbuf.2]
    exact h.buf_inside
  · rw [hf.cfg]
    exact hdest.2

/-- A step of a built block's slot, and the end of the call, keep it built. -/
theorem Built.of_stepInFlight {s t : State} (h : Built s) (hbusy : s.d.busy = true)
    (hb : s.m.begun = true) (hx : s.q.st = .executing) (ht : stepInFlight s = .next t) : Built t := by
  have hf := slotFrame_stepInFlight hb hx ht
  cases hi : s.d.instr with
  | nop => exact absurd hi (h.no_nop hbusy)
  | instr i =>
    refine ⟨h.inv.of_stepInFlight hbusy hi hb hx ht, hf.memoryInv h.mem, ?_, fun j hj _ => ?_, fun _ hn => ?_, ?_⟩
    · unfold QueueWhole
      rw [hf.q, hf.cfg]
      exact h.whole
    · rw [hf.cfg]
      rcases hf.instr with he | ⟨-, he⟩
      · exact h.slot j (he.symm.trans hj) hbusy
      · obtain rfl : Instr.srchn = j := InFlight.instr.inj (he.symm.trans hj)
        rfl
    · rcases hf.instr with he | ⟨-, he⟩
      · exact h.no_nop hbusy (he.symm.trans hn)
      · simp [he] at hn
    · rw [hf.m]
      exact h.no_fault

/-- A well-formed instruction does not fault: only a COPY could, with a context no encoding holds (R62). -/
theorem exec_ne_fault {i : Instr} {s : State} (hwf : i.wellFormed s.cfg = true) (e : Fault) :
    exec i s ≠ .fault e := by
  cases i
  case callback h c =>
    have hc : c < 2 ^ (8 * s.cfg.contextBytes) := by
      simp only [Instr.wellFormed, Bool.and_eq_true, decide_eq_true_eq] at hwf
      exact hwf.2
    have hstep : callbackStep h c s ≠ .fault e := by
      unfold callbackStep
      split
      · unfold copy
        rw [if_neg (Nat.not_le.mpr hc)]
        split <;> nofun
      · unfold runHandler
        split
        · exact runNested_ne_fault _ _ e
        · unfold freeHandler
          dsimp only
          split <;> nofun
    intro hfault
    rcases andThen_eq_fault.mp hfault with hfault | ⟨t, -, hfault⟩
    · exact hstep hfault
    · cases hfault
  all_goals exact fun hfault => nomatch hfault

theorem finishCall_ne_fault (s : State) (e : Fault) : finishCall s ≠ .fault e := by
  unfold finishCall
  split
  · nofun
  · intro h
    rcases andThen_eq_fault.mp h with h | ⟨t, -, h⟩
    · unfold runHook at h
      split at h
      · exact runNested_ne_fault _ _ e h
      · cases h
    · cases h

theorem Built.stepInFlight_ne_fault {s : State} (h : Built s) (hbusy : s.d.busy = true) (e : Fault) :
    stepInFlight s ≠ .fault e := by
  intro hfault
  rcases andThen_eq_fault.mp hfault with hfault | ⟨t, -, hfault⟩
  · cases hi : s.d.instr with
    | nop => exact h.no_nop hbusy hi
    | instr i => exact exec_ne_fault (h.slot i hi hbusy) e (stepSlot_of_instr hi ▸ hfault)
  · exact finishCall_ne_fault t e hfault

/-! ### Every step -/

/-- A fetch of a built block meets no reserved tag (R87). -/
theorem Built.not_reservedTag {s : State} (h : Built s) (hlt : s.q.rd < s.q.wr) :
    decode s.cfg (fetchWindow s) ≠ .reservedTag := by
  obtain ⟨i, rest, -, hd, -⟩ := h.whole.head hlt
  simp [hd]

theorem Built.of_dispatch {s t : State} (h : Built s) (hb : s.m.begun = true) (ht : dispatch s = .next t) :
    Built t := by
  rcases dispatch_outcome s with hd | ⟨hbusy, -, -, hd⟩ | ⟨-, hlt, hd, -⟩ | ⟨-, hx, u, hu, hd⟩
  · exact answer_eq_next.mp (hd ▸ ht) ▸ h.emit _
  · exact answer_eq_next.mp (hd ▸ ht) ▸ (h.idle hbusy).emit _
  · exact absurd hd (h.not_reservedTag hlt)
  · obtain ⟨hbuilt, hbusy⟩ := hu.built h hx
    obtain ⟨-, hq, hm, -⟩ := hu.keeps
    exact hbuilt.of_stepInFlight hbusy (by rw [hm, hb]) (by rw [hq]; exact hx) (hd ▸ ht)

theorem Built.dispatch_ne_fault {s : State} (h : Built s) (e : Fault) : dispatch s ≠ .fault e := by
  rcases dispatch_outcome s with hd | ⟨-, -, -, hd⟩ | ⟨-, -, -, hd⟩ | ⟨-, hx, u, hu, hd⟩ <;> rw [hd]
  · nofun
  · nofun
  · nofun
  · obtain ⟨hbuilt, hbusy⟩ := hu.built h hx
    exact hbuilt.stepInFlight_ne_fault hbusy e

theorem Built.of_step {s t : State} (h : Built s) (ht : step s = .next t) : Built t := by
  obtain ⟨e, ⟨op, -, he⟩ | ⟨hb, he⟩ | ⟨r, he⟩⟩ := step_outcome s
  · obtain ⟨u, r, hu, rfl⟩ := hostCall_effect (he ▸ ht)
    exact (hu.built (h.env e)).emit _
  · exact (h.env e).of_dispatch hb (he ▸ ht)
  · simp [he] at ht

theorem Built.step_ne_fault {s : State} (h : Built s) (e : Fault) : step s ≠ .fault e := by
  obtain ⟨env, ⟨op, -, he⟩ | ⟨-, he⟩ | ⟨r, he⟩⟩ := step_outcome s <;> rw [he]
  · exact hostCall_ne_fault op _ e
  · exact (h.env env).dispatch_ne_fault e
  · nofun

/-- Settles O58: what the appenders write is whole, so every fetch meets a well-formed instruction, and no step of one
faults or leaves Nop in the slot. -/
theorem builtQueuesNeverFault : Obligations.BuiltQueuesNeverFault := by
  refine fun s h => ⟨fun hlt => ?_, h.step_ne_fault, fun t ht => ⟨h.of_step ht, fun o ho hnop => ?_⟩⟩
  · obtain ⟨i, rest, hwf, hd, -⟩ := h.whole.head hlt
    exact ⟨i, rest, hwf, hd⟩
  · obtain ⟨ks, ⟨o', ho', hfin, -⟩, -, hks⟩ := step_output ht
    obtain rfl : o = o' := List.append_cancel_left (ho.symm.trans ho')
    obtain ⟨hx, e, u, hu, hi⟩ := hks (hfin ▸ finished_mem_iff.mp hnop)
    obtain ⟨hbuilt, hbusy⟩ := hu.built (h.env e) hx
    exact hbuilt.no_nop hbusy hi

end Sys2Proof.Machine
end

section
/-! PROOFS. What Write0, Write1, Power, Unpower and Read answer (42_bus_primitives.md R174 to R182), and the statements O8, O10
and O12. -/

namespace Sys2Proof.Machine

/-! ### Write slots (42_bus_primitives.md R174 to R178) -/

/-- A write slot run as an instruction of its own completes in the same call. -/
theorem retireIf_writeSlot (k : Kind) (b power : Bool) (s : State) :
    retireIf k (writeSlot b power s, true) =
      .next { s with
        pin := if power then .high else .released
        d.busy := false
        env := busWritten s.cfg b s.env
        out := s.out ++ (slotOutput s.cfg b power ++ [.finished k]) } := by
  rw [retireIf_done, writeSlot_eq]
  simp [complete, emit]

/-- Settles O8: each write is its slot without power, retired in the call that runs it. -/
theorem writesDriveTheirSlotAndRelease : Obligations.WritesDriveTheirSlotAndRelease :=
  fun s => ⟨rfl, rfl, retireIf_writeSlot .write0 false false s, retireIf_writeSlot .write1 true false s⟩

/-! ### Power and Unpower (42_bus_primitives.md R181, R182) -/

/-- Power drives the line high and completes (R181). -/
theorem exec_power (s : State) :
    exec .power s = .next { s with
      pin := .high, d.busy := false, out := s.out ++ [.bus .driveHigh, .finished .power] } := by
  rw [exec, execPower, retireIf_done]
  simp [complete, driveHigh, emit]

/-- Unpower releases the line and completes (R182). -/
theorem exec_unpower (s : State) :
    exec .unpower s = .next { s with
      pin := .released, d.busy := false, out := s.out ++ [.bus .release, .finished .unpower] } := by
  rw [exec, execUnpower, retireIf_done]
  simp [complete, release, emit]

/-- Settles O10: one bus action and the completion event, in the call that runs the instruction. -/
theorem powerAndUnpowerSetTheLine : Obligations.PowerAndUnpowerSetTheLine :=
  fun s => ⟨rfl, rfl, exec_power s, exec_unpower s⟩

/-! ### Read (42_bus_primitives.md R179, R180) -/

/-- Read runs the read slot, folds the sampled bit into the accumulator and completes (R180). -/
theorem exec_read (s : State) :
    exec .read s = .next { s with
      q.acc := foldBit s.q.acc (drawLevel s.env).1
      pin := .released, d.busy := false, env := (drawLevel s.env).2
      out := s.out ++ readOutput s.cfg (drawLevel s.env).1 ++ [.finished .read] } := by
  rw [exec, execRead, readSlot_eq, retireIf_done]
  rfl

theorem isBus_of_mem_readOutput {p : Params} {b : Bool} {x : Output} (h : x ∈ readOutput p b) :
    x.isBus = true := by
  simp only [readOutput, List.mem_cons, List.not_mem_nil, or_false] at h
  rcases h with rfl | rfl | rfl | rfl | rfl | rfl <;> rfl

/-- Settles O12: the outputs before the completion event are those of the read slot, all bus actions. -/
theorem readFoldsTheSampledBit : Obligations.ReadFoldsTheSampledBit :=
  fun s => ⟨rfl, readOutput s.cfg (drawLevel s.env).1, fun _ => isBus_of_mem_readOutput, exec_read s⟩

end Sys2Proof.Machine
end

section
/-! PROOFS. The reset phase of a search (43_search.md R224), that no step reads the family-discrepancy position (R235), and the
statements O23 and O32. -/

namespace Sys2Proof.Machine

/-! ### The reset phase -/

theorem exec_srchn (s : State) : exec .srchn s = .next (retired .searchNext (searchStep false s)) := rfl

/-- Settles O23: the reset is busy, done with presence, or done without. -/
theorem searchResetAbortsWithoutPresence : Obligations.SearchResetAbortsWithoutPresence := by
  intro s hphase
  have hexec : exec .srchn s = .next (retired .searchNext (searchReset s)) := by
    rw [exec_srchn, searchStep, hphase]
  rw [hexec]
  refine ⟨fun hbusy => ?_, fun hdone hpres => ?_, fun hdone hpres => ?_⟩
  · simp [searchReset, hbusy, retired]
  · simp [searchReset, hdone, hpres, retired]
  · simp [searchReset, hdone, hpres, retired, complete, emit, searchEnd]

/-! ### Answers that differ in the family-discrepancy position alone -/

/-- The state with another family-discrepancy position (R41). -/
def setLfd (v : Nat) (s : State) : State := { s with srch.lfd := v }

section
variable (v : Nat) (s : State)

@[simp] theorem setLfd_cfg : (setLfd v s).cfg = s.cfg := rfl
@[simp] theorem setLfd_q : (setLfd v s).q = s.q := rfl
@[simp] theorem setLfd_d : (setLfd v s).d = s.d := rfl
@[simp] theorem setLfd_p : (setLfd v s).p = s.p := rfl
@[simp] theorem setLfd_srch : (setLfd v s).srch = { s.srch with lfd := v } := rfl
@[simp] theorem setLfd_env : (setLfd v s).env = s.env := rfl
@[simp] theorem setLfd_now : now (setLfd v s) = now s := rfl
@[simp] theorem setLfd_cannotAppend : cannotAppend (setLfd v s) = cannotAppend s := rfl
@[simp] theorem setLfd_fetchWindow : fetchWindow (setLfd v s) = fetchWindow s := rfl

end

/-- Answers that differ in the family-discrepancy position of the next state alone. -/
inductive SameButLfd : Result → Result → Prop
  | next (s : State) (v : Nat) : SameButLfd (.next s) (.next (setLfd v s))
  | fault (e : Fault) : SameButLfd (.fault e) (.fault e)
  | refused (e : Refusal) : SameButLfd (.refused e) (.refused e)

/-- An operation whose answer, but for the family-discrepancy position in it, does not depend on that position. -/
def Dormant (f : State → Result) : Prop := ∀ s v, SameButLfd (f s) (f (setLfd v s))

theorem SameButLfd.andThen {r r' : Result} {f : State → Result} (h : SameButLfd r r')
    (hf : Dormant f) : SameButLfd (andThen r f) (andThen r' f) := by
  cases h with
  | next s v => exact hf s v
  | fault e => exact .fault e
  | refused e => exact .refused e

theorem SameButLfd.ite {c : Prop} [Decidable c] {a b a' b' : Result} (ha : SameButLfd a a')
    (hb : SameButLfd b b') : SameButLfd (if c then a else b) (if c then a' else b') := by
  split
  · exact ha
  · exact hb

theorem dormant_answer (r : HostResult) : Dormant (answer r) := fun s v => .next (emit (.returned r) s) v

/-! ### Host calls -/

theorem appendBytes_setLfd (bytes : List Byte) (s : State) (v : Nat) :
    appendBytes bytes (setLfd v s) = (setLfd v (appendBytes bytes s).1, (appendBytes bytes s).2) := by
  unfold appendBytes
  rw [setLfd_cannotAppend, setLfd_q]
  split
  · rfl
  · split <;> rfl

theorem appendSeq_setLfd (is : List Instr) (s : State) (v : Nat) :
    appendSeq is (setLfd v s) = (setLfd v (appendSeq is s).1, (appendSeq is s).2) := by
  induction is generalizing s with
  | nil => rfl
  | cons i is ih =>
    have hi : appendInstr i (setLfd v s) = (setLfd v (appendInstr i s).1, (appendInstr i s).2) :=
      appendBytes_setLfd (encode s.cfg i) s v
    rw [appendSeq, appendSeq, hi]
    obtain ⟨t, e⟩ := appendInstr i s
    cases e
    case ok => exact ih t
    all_goals rfl

theorem dormant_appendInstr (i : Instr) : Dormant fun s => answerCode (appendInstr i s) := fun s v => by
  have h : appendInstr i (setLfd v s) = (setLfd v (appendInstr i s).1, (appendInstr i s).2) :=
    appendBytes_setLfd (encode s.cfg i) s v
  dsimp only
  rw [h]
  exact dormant_answer _ _ v

theorem dormant_appendSeq (is : List Instr) : Dormant fun s => answerCode (appendSeq is s) := fun s v => by
  dsimp only
  rw [appendSeq_setLfd]
  exact dormant_answer _ _ v

theorem dormant_hostOpEffect (op : HostOp) : Dormant (hostOpEffect op) := fun s v => by
  cases op
  case begin =>
    exact .ite (.refused _) (.next (emit _ (release s.blockReset)) Search.reset.lfd)
  case beginTransaction | commit => exact .ite (dormant_answer _ s v) (.next (emit _ _) v)
  case reset | writeBit | writeBitWithPower | readBit | searchFirst | searchNext | power | unpower =>
    exact dormant_appendInstr _ s v
  case writeBytes => exact dormant_appendSeq _ s v
  case wait | registerCallback => exact .ite (dormant_appendInstr _ s v) (.refused _)
  case readBytes => exact .ite (dormant_appendSeq _ s v) (.refused _)
  case crc8 => exact .ite (.refused _) (dormant_answer _ s v)
  case inProgress | getLastSearchResult => exact dormant_answer _ s v
  case getData => exact .next (emit _ _) v
  case handle => exact .refused _

theorem dormant_hostCall (op : HostOp) : Dormant (hostCall op) := fun s v =>
  .ite (.refused _) (dormant_hostOpEffect op s v)

theorem dormant_runNested (ops : List HostOp) : Dormant (runNested ops) := by
  induction ops with
  | nil => exact fun s v => .next s v
  | cons op ops ih => exact fun s v => (dormant_hostCall op s v).andThen ih

/-! ### Primitives and the search -/

/-- A primitive whose step, but for the family-discrepancy position after it, does not depend on that position. -/
def DormantStep (f : State → State × Bool) : Prop :=
  ∀ s v, ∃ w, f (setLfd v s) = (setLfd w (f s).1, (f s).2)

theorem DormantStep.retireIf {f : State → State × Bool} (h : DormantStep f) (k : Kind) :
    Dormant fun s => retireIf k (f s) := fun s v => by
  obtain ⟨w, hw⟩ := h s v
  have hr : retired k (f (setLfd v s)) = setLfd w (retired k (f s)) := by
    rw [hw]
    unfold retired
    split <;> rfl
  dsimp only
  rw [retireIf_eq, retireIf_eq, hr]
  exact .next _ w

theorem dormantStep_reset : DormantStep resetStep := fun s v => by
  refine ⟨v, ?_⟩
  unfold resetStep
  rw [setLfd_p, setLfd_cfg, setLfd_now]
  split
  · rfl
  · split <;> rfl
  · split <;> rfl

theorem dormantStep_searchReset : DormantStep searchReset := fun s v => by
  obtain ⟨w, hw⟩ := dormantStep_reset s v
  refine ⟨w, ?_⟩
  simp only [searchReset, hw, setLfd_q]
  split
  · split <;> rfl
  · rfl

/-- A start scan clears the position, and no pass reads it at its beginning (R223). -/
theorem dormantStep_searchBegin (start : Bool) : DormantStep (searchBegin start) := fun s v => by
  unfold searchBegin
  split
  · exact ⟨_, rfl⟩
  · rw [setLfd_srch]
    split
    · exact ⟨v, rfl⟩
    · exact dormantStep_searchReset (searchInit s) v

/-- `RecordZero()` writes the position; the direction does not depend on it (R228, R229). -/
theorem dormantStep_searchReadCmp : DormantStep searchReadCmp := fun s v => by
  obtain ⟨w, hw⟩ : ∃ w, choose (setLfd v s).srch = { choose s.srch with lfd := w } := by
    rw [choose_eq, choose_eq]
    exact ⟨_, rfl⟩
  have hid : (setLfd v s).srch.idBit = s.srch.idBit := rfl
  rw [searchReadCmp_eq, searchReadCmp_eq, hw, hid, setLfd_env]
  dsimp only
  split
  · exact ⟨v, rfl⟩
  · split
    · exact ⟨v, rfl⟩
    · exact ⟨w, rfl⟩

theorem searchComplete_setLfd (s : State) (v : Nat) :
    searchComplete (setLfd v s) = setLfd v (searchComplete s) := by
  have hrom : (setLfd v s).srch.rom = s.srch.rom := rfl
  unfold searchComplete
  rw [hrom]
  dsimp only
  split <;> rfl

/-- The state after a direction write, before the pass goes on or ends (R230). -/
def dirWritten (s : State) : State :=
  { s with
    pin := .released
    env := busWritten s.cfg s.srch.dir s.env
    out := s.out ++ slotOutput s.cfg s.srch.dir false
    srch := nextCursor { s.srch with
      rom := setCursorBit s.srch.rom s.srch.byteIdx s.srch.mask s.srch.dir } }

/-- A direction write goes on to the next position, or completes the pass (R230). -/
theorem searchWriteDir_eq_dirWritten (s : State) :
    searchWriteDir s =
      if (dirWritten s).srch.byteIdx < 8 then ({ dirWritten s with srch.phase := .sReadId }, false)
      else (searchComplete (dirWritten s), true) := searchWriteDir_eq s

theorem nextCursor_lfd (x : Search) (v : Nat) :
    nextCursor { x with lfd := v } = { nextCursor x with lfd := v } := by
  unfold nextCursor
  dsimp only
  split <;> rfl

theorem dirWritten_setLfd (s : State) (v : Nat) : dirWritten (setLfd v s) = setLfd v (dirWritten s) := by
  have hnext := nextCursor_lfd { s.srch with
    rom := setCursorBit s.srch.rom s.srch.byteIdx s.srch.mask s.srch.dir } v
  exact congrArg (fun x => { dirWritten s with srch := x }) hnext

theorem dormantStep_searchWriteDir : DormantStep searchWriteDir := fun s v => by
  refine ⟨v, ?_⟩
  rw [searchWriteDir_eq_dirWritten, searchWriteDir_eq_dirWritten, dirWritten_setLfd, setLfd_srch,
    searchComplete_setLfd]
  split <;> rfl

theorem dormantStep_search (start : Bool) : DormantStep (searchStep start) := fun s v => by
  simp only [searchStep, setLfd_srch]
  split
  · exact dormantStep_searchBegin start s v
  · exact dormantStep_searchReset s v
  · exact ⟨v, by rw [searchCmd_eq, searchCmd_eq]; rfl⟩
  · exact ⟨v, by rw [searchReadId_eq, searchReadId_eq]; rfl⟩
  · exact dormantStep_searchReadCmp s v
  · exact dormantStep_searchWriteDir s v

theorem dormantStep_wait (dur : Nat) : DormantStep (waitStep dur) := fun s v => by
  refine ⟨v, ?_⟩
  unfold waitStep
  rw [setLfd_p, setLfd_cfg, setLfd_now]
  split
  · split <;> rfl
  · rfl

/-! ### The slot and the dispatcher -/

theorem dormant_copy (c : Nat) : Dormant (copy c) := fun s v =>
  .ite (.fault _) (.ite (.refused _) (.next { s with dest.mem := memWrite s.dest.mem c s.q.acc } v))

theorem dormant_runHandler : Dormant runHandler := fun s v => by
  simp only [runHandler, setLfd_env]
  split
  · exact dormant_runNested _ { s with env.handlers := _ } v
  · exact .ite (.next (emit _ _) v) (.next { s with env.free := s.env.free + 1 } v)

theorem dormant_callback (h c : Nat) : Dormant (execCallback h c) := fun s v =>
  SameButLfd.andThen (.ite (dormant_copy c s v) (dormant_runHandler (emit (.hostCallback h c) s) v))
    fun t w => .next (complete .callback t) w

theorem dormant_exec (i : Instr) : Dormant (exec i) := fun s v => by
  cases i
  case reset => exact dormantStep_reset.retireIf .reset s v
  case wait dur => exact (dormantStep_wait dur).retireIf .wait s v
  case srchf =>
    have hretag : DormantStep fun s => (retagSearch (searchStep true s).1, (searchStep true s).2) :=
      fun s v => (dormantStep_search true s v).imp fun w hw => by dsimp only; rw [hw]; rfl
    exact hretag.retireIf .searchNext s v
  case srchn => exact (dormantStep_search false).retireIf .searchNext s v
  case callback h c => exact dormant_callback h c s v
  case w0 | w1 | pw0 | pw1 => exact .next (complete _ (writeSlot _ _ s)) v
  case read => exact .next (complete .read { (readSlot s).1 with q.acc := _ }) v
  case power | unpower => exact .next (complete _ (emit _ _)) v

theorem dormant_stepSlot : Dormant stepSlot := fun s v => by
  simp only [stepSlot, setLfd_d]
  split
  · exact dormant_exec _ s v
  · exact .next (complete .nop s) v

theorem dormant_runHook : Dormant runHook := fun s v => by
  simp only [runHook, setLfd_env]
  split
  · exact dormant_runNested _ { s with env.hooks := _ } v
  · exact .next s v

theorem dormant_finishCall : Dormant finishCall := fun s v =>
  .ite (dormant_answer _ s v) ((dormant_runHook s v).andThen (dormant_answer _))

theorem dormant_stepInFlight : Dormant stepInFlight := fun s v =>
  (dormant_stepSlot s v).andThen dormant_finishCall

theorem fetch_setLfd (s : State) (v : Nat) : fetch (setLfd v s) = setLfd v (fetch s) := by
  simp only [fetch, setLfd_cfg, setLfd_fetchWindow]
  split <;> rfl

theorem dormant_afterFetch : Dormant afterFetch := fun s v =>
  .ite (dormant_answer _ s v) (dormant_stepInFlight s v)

theorem dormant_dispatch : Dormant dispatch := fun s v => by
  have hfetch : SameButLfd (afterFetch (fetch s)) (afterFetch (fetch (setLfd v s))) :=
    fetch_setLfd s v ▸ dormant_afterFetch (fetch s) v
  exact .ite (dormant_answer _ s v) (.ite (dormant_answer _ s v) (.ite (dormant_stepInFlight s v)
    (.ite (dormant_answer _ { s with q.st := .idle } v) hfetch)))

/-! ### Every step -/

theorem dormant_topCall (op : HostOp) : Dormant (topCall op) := fun s v => by
  cases op
  case handle time =>
    exact .ite (.refused _) (.ite (.refused _) (dormant_dispatch { s with env.time := time } v))
  all_goals exact dormant_hostCall _ s v

theorem dormant_step : Dormant step := fun s v => by
  simp only [step, hostStep, setLfd_env]
  split
  · exact dormant_topCall _ { s with env.calls := _ } v
  · exact .ite (.refused _) (dormant_dispatch { s with
      env.time := s.env.time + Config.freeAdvance s.env.free, env.free := s.env.free + 1 } v)

/-- Settles O32: every operation a step is made of is dormant, so the step is. -/
theorem familyDiscrepancyIsDormant : Obligations.FamilyDiscrepancyIsDormant := by
  intro s v
  have h : SameButLfd (step s) (step { s with srch.lfd := v }) := dormant_step s v
  generalize step s = r, step { s with srch.lfd := v } = r' at h ⊢
  cases h with
  | next t w => exact ⟨w, rfl⟩
  | fault e => rfl
  | refused e => rfl

end Sys2Proof.Machine
end

section
/-! PROOFS. The device side of a search pass (43_search.md R227 to R234, log 4): which devices still take part at each bit
position, and what they leave on the line. -/

namespace Sys2Proof.Machine

/-! ### ROM codes as 64 bits -/

/-- A ROM code is its 64 bits (R66). -/
theorem rom_ext {a b : Rom} (h : ∀ n, 1 ≤ n → n ≤ 64 → romBit a n = romBit b n) : a = b := by
  have hbyte : ∀ (r : Rom) {i : Nat} (hi : i < 8), romByte r i = r[i] := fun r i hi => by
    simp [romByte, List.getD_eq_getElem?_getD, hi]
  refine Vector.ext fun i hi => BitVec.eq_of_getLsbD_eq fun j hj => ?_
  have hbit := h (8 * i + j + 1) (by omega) (by omega)
  rwa [romBit, romBit, show (8 * i + j + 1 - 1) / 8 = i by omega,
    show (8 * i + j + 1 - 1) % 8 = j by omega, hbyte a hi, hbyte b hi] at hbit

/-- Two different ROM codes have a first position at which they differ. -/
theorem exists_first_difference {a b : Rom} (h : a ≠ b) :
    ∃ p, 1 ≤ p ∧ p ≤ 64 ∧ romBit a p ≠ romBit b p ∧
      ∀ n, 1 ≤ n → n < p → romBit a n = romBit b n := by
  have hex : ∃ n, 1 ≤ n ∧ n ≤ 64 ∧ romBit a n ≠ romBit b n := by
    by_contra hc
    exact h (rom_ext fun n h1 h2 => Classical.byContradiction fun hn => hc ⟨n, h1, h2, hn⟩)
  obtain ⟨h1, h2, hne⟩ := Nat.find_spec hex
  exact ⟨Nat.find hex, h1, h2, hne, fun n hn hlt =>
    Classical.byContradiction fun hc => Nat.find_min hex hlt ⟨hn, by omega, hc⟩⟩

/-! ### The devices that still take part -/

/-- The devices that still take part after `k` direction bits of the ROM code `c` (R234). -/
def taking (ds : List Device) (c : Rom) : Nat → List Device
  | 0 => ds
  | k + 1 => (taking ds c k).filter fun d => romBit d.rom (k + 1) == romBit c (k + 1)

/-- They are those whose bits so far are those of `c`. -/
theorem mem_taking {ds : List Device} {c : Rom} {k : Nat} {d : Device} :
    d ∈ taking ds c k ↔ d ∈ ds ∧ ∀ n, 1 ≤ n → n ≤ k → romBit d.rom n = romBit c n := by
  induction k with
  | zero =>
    refine ⟨fun h => ⟨h, fun n h1 h2 => by omega⟩, And.left⟩
  | succ k ih =>
    rw [taking, List.mem_filter, ih, beq_iff_eq]
    constructor
    · rintro ⟨⟨hd, hbits⟩, hbit⟩
      refine ⟨hd, fun n h1 h2 => ?_⟩
      rcases Nat.lt_or_eq_of_le h2 with hlt | rfl
      · exact hbits n h1 (by omega)
      · exact hbit
    · rintro ⟨hd, hbits⟩
      exact ⟨⟨hd, fun n h1 h2 => hbits n h1 (by omega)⟩, hbits _ (by omega) le_rfl⟩

/-- The course of a pass: the devices on the bus, the ROM code that is found, the resume point, and the one position at which
devices that still take part differ (0: at none). -/
structure Route where
  devices : List Device
  target : Rom
  resume : Nat
  split : Nat

namespace Route

variable (r : Route)

/-- The devices that still take part after `k` bits. -/
abbrev taking (k : Nat) : List Device := Machine.taking r.devices r.target k

/-- The last zero recorded after `k` bits (R229). -/
def zero (k : Nat) : Nat := if r.split ≤ k ∧ romBit r.target r.split = false then r.split else 0

/-- The pass takes this course: the devices that take part agree except at the split, where the resume point gives the
target's bit (R228). -/
structure Valid : Prop where
  target_mem : ∃ d ∈ r.devices, d.rom = r.target
  family : romByte r.target 0 ≠ 0
  agree : ∀ k < 64, k + 1 ≠ r.split → ∀ d ∈ r.taking k,
    romBit d.rom (k + 1) = romBit r.target (k + 1)
  differ : ∀ k, k + 1 = r.split → ∃ d ∈ r.taking k, romBit d.rom (k + 1) ≠ romBit r.target (k + 1)
  resume_eq : r.resume = if romBit r.target r.split then r.split else 0

end Route

namespace Route.Valid

variable {r : Route} (h : r.Valid)
include h

/-- The device that is found takes part to the end. -/
theorem exists_target (k : Nat) : ∃ d ∈ r.taking k, d.rom = r.target := by
  obtain ⟨d, hd, hrom⟩ := h.target_mem
  exact ⟨d, mem_taking.mpr ⟨hd, fun _ _ _ => by rw [hrom]⟩, hrom⟩

/-- Where the devices agree, the line reads the target's bit and then its complement (R13, R227). -/
theorem reads_of_agree {k : Nat} (hk : k < 64) (hs : k + 1 ≠ r.split) :
    ((r.taking k).all fun d => romBit d.rom (k + 1)) = romBit r.target (k + 1) ∧
      ((r.taking k).all fun d => !romBit d.rom (k + 1)) = !romBit r.target (k + 1) := by
  obtain ⟨d, hd, -⟩ := h.exists_target k
  have hagree := h.agree k hk hs
  cases hx : romBit r.target (k + 1)
  · exact ⟨List.all_eq_false.mpr ⟨d, hd, by simp [hagree d hd, hx]⟩,
      List.all_eq_true.mpr fun e he => by simp [hagree e he, hx]⟩
  · exact ⟨List.all_eq_true.mpr fun e he => by simp [hagree e he, hx],
      List.all_eq_false.mpr ⟨d, hd, by simp [hagree d hd, hx]⟩⟩

/-- At the split both reads are low (R13, R227). -/
theorem reads_of_split {k : Nat} (hs : k + 1 = r.split) :
    ((r.taking k).all fun d => romBit d.rom (k + 1)) = false ∧
      ((r.taking k).all fun d => !romBit d.rom (k + 1)) = false := by
  obtain ⟨d, hd, hrom⟩ := h.exists_target k
  obtain ⟨e, he, hne⟩ := h.differ k hs
  rw [← hrom] at hne
  cases hx : romBit d.rom (k + 1)
  · exact ⟨List.all_eq_false.mpr ⟨d, hd, by simp [hx]⟩,
      List.all_eq_false.mpr ⟨e, he, by simpa [hx] using hne⟩⟩
  · exact ⟨List.all_eq_false.mpr ⟨e, he, by simpa [hx] using hne⟩,
      List.all_eq_false.mpr ⟨d, hd, by simp [hx]⟩⟩

end Route.Valid

/-- A pass among devices with one of two ROM codes that first differ at `p` finds the one the resume point selects. -/
theorem Route.valid_of_two {ds : List Device} {c e : Rom} {p : Nat} (hp : 1 ≤ p)
    (hds : ∀ d ∈ ds, d.rom = c ∨ d.rom = e) (hc : ∃ d ∈ ds, d.rom = c) (he : ∃ d ∈ ds, d.rom = e)
    (hfamily : romByte c 0 ≠ 0) (hne : romBit c p ≠ romBit e p)
    (hmin : ∀ n, 1 ≤ n → n < p → romBit c n = romBit e n) :
    Route.Valid { devices := ds, target := c, resume := if romBit c p then p else 0, split := p } where
  target_mem := hc
  family := hfamily
  agree k _ hk d hd := by
    obtain ⟨hd, hbits⟩ := mem_taking.mp hd
    rcases hds d hd with h | h <;> rw [h]
    rcases Nat.lt_or_gt_of_ne hk with hlt | hgt
    · exact (hmin _ (by omega) hlt).symm
    · exact absurd (h ▸ hbits p hp (by dsimp only at hgt; omega)) hne.symm
  differ k hk := by
    obtain ⟨d, hd, rfl⟩ := he
    have hbefore : ∀ n, 1 ≤ n → n ≤ k → romBit d.rom n = romBit c n := fun n h1 h2 =>
      (hmin n h1 (by dsimp only at hk; omega)).symm
    exact ⟨d, mem_taking.mpr ⟨hd, hbefore⟩, hk ▸ hne.symm⟩
  resume_eq := rfl

end Sys2Proof.Machine
end

section
/-! PROOFS. A host that polls, call by call (41_dispatcher.md R150 to R159): what one call of it does when it fetches the
next instruction, and while a search is in flight. -/

namespace Sys2Proof.Machine

/-! ### Runs of calls -/

theorem steps_add (m n : Nat) (s : State) : steps (m + n) s = andThen (steps m s) (steps n) := by
  induction m generalizing s with
  | zero => rw [Nat.zero_add]; rfl
  | succ m ih =>
    rw [Nat.succ_add, steps, steps, andThen_assoc]
    exact congrArg (andThen (step s)) (funext ih)

/-- After `n` calls the state meets `P`. -/
def Leads (n : Nat) (s : State) (P : State → Prop) : Prop := ∃ t, steps n s = .next t ∧ P t

theorem Leads.of_step {s t : State} {P : State → Prop} (h : step s = .next t) (ht : P t) : Leads 1 s P :=
  ⟨t, by rw [steps, h]; rfl, ht⟩

theorem Leads.trans {m n : Nat} {s : State} {P Q : State → Prop} (h : Leads m s P)
    (hPQ : ∀ t, P t → Leads n t Q) : Leads (m + n) s Q := by
  obtain ⟨t, ht, hP⟩ := h
  obtain ⟨u, hu, hQ⟩ := hPQ t hP
  exact ⟨u, by rw [steps_add, ht]; exact hu, hQ⟩

theorem Leads.mono {n : Nat} {s : State} {P Q : State → Prop} (h : Leads n s P) (hPQ : ∀ t, P t → Q t) :
    Leads n s Q := h.imp fun t ht => ⟨ht.1, hPQ t ht.2⟩

theorem pollsFrom_succ (t n : Nat) : pollsFrom t (n + 1) = .handle t :: pollsFrom (t + 480) n := by
  simp only [pollsFrom, List.range_succ_eq_map, List.map_cons, List.map_map]
  congr 2
  funext k
  simp only [Function.comp_apply, HostOp.handle.injEq]
  omega

/-! ### A polled block -/

/-- A block with R7's parameters that executes this queue, read up to `rd`, and is to be polled `n` times, first after `gap` µs
and then 480 µs apart. -/
structure Polled (gap : Nat) (queue : List Byte) (rd n : Nat) (s : State) : Prop where
  cfg : s.cfg = Params.default
  m : s.m = { fault := none, begun := true }
  st : s.q.st = .executing
  buf : s.q.buf = memWriteBytes [] 0 queue
  wr : s.q.wr = queue.length
  rd : s.q.rd = rd
  hooks : s.env.hooks = []
  calls : s.env.calls = pollsFrom (s.env.time + gap) n

/-- The state at the next of these polls, `n` left after it. -/
def atPoll (gap n : Nat) (s : State) : State :=
  { s with
    env.time := s.env.time + gap
    env.calls := pollsFrom (s.env.time + gap + 480) n }

namespace Polled

variable {gap rd n : Nat} {queue : List Byte} {s : State}

theorem emit (h : Polled gap queue rd n s) (o : Output) : Polled gap queue rd n (emit o s) :=
  ⟨h.cfg, h.m, h.st, h.buf, h.wr, h.rd, h.hooks, h.calls⟩

/-- A search step keeps all of this (R52, R236). -/
theorem exec {i : Instr} {t : State} (h : Polled gap queue rd n s) (hi : i = .srchf ∨ i = .srchn)
    (ht : exec i s = .next t) : Polled gap queue rd n t := by
  obtain ⟨u, hu, hcfg, ⟨-, hbuf, hwr, hrd, -, hst⟩, -, -, hm, -, htime, hcalls, -, hhooks, -⟩ :=
    searchesLeaveTheRestAlone s i hi
  obtain rfl := Host.Outcome.next.inj (hu.symm.trans ht)
  exact ⟨hcfg.trans h.cfg, hm.trans h.m, hst.trans h.st, hbuf.trans h.buf, hwr.trans h.wr, hrd.trans h.rd,
    hhooks.trans h.hooks, by rw [hcalls, htime, h.calls]⟩

theorem atPoll (h : Polled gap queue rd (n + 1) s) : Polled 480 queue rd n (atPoll gap n s) :=
  ⟨h.cfg, h.m, h.st, h.buf, h.wr, h.rd, h.hooks, rfl⟩

theorem begun (h : Polled gap queue rd n s) : s.m.begun = true := by rw [h.m]

theorem no_fault (h : Polled gap queue rd n s) : s.m.fault = none := by rw [h.m]

theorem calls_eq_cons (h : Polled gap queue rd (n + 1) s) :
    s.env.calls = .handle (s.env.time + gap) :: pollsFrom (s.env.time + gap + 480) n := by
  rw [h.calls, pollsFrom_succ]

/-- A call whose step answers `u` returns HBusy from it. -/
theorem leads_of_exec {s' u : State} {i : Instr} {P : State → Prop} (h : Polled 480 queue rd n s')
    (hi : i = .srchf ∨ i = .srchn) (hstep : step s = andThen (Machine.exec i s') finishCall)
    (hu : Machine.exec i s' = .next u) (hP : P (Machine.emit (.returned .hBusy) u)) :
    Leads 1 s fun v => Polled 480 queue rd n v ∧ P v := by
  have hpolled := h.exec hi hu
  have hfin : finishCall u = .next (Machine.emit (.returned .hBusy) u) :=
    (handleEndsBusyAfterAStep u).1 (.inr hpolled.hooks)
  exact .of_step (by rw [hstep, hu, andThen_next, hfin]) ⟨hpolled.emit _, hP⟩

/-- With a free slot, a call fetches the one-byte instruction that is next and steps it (R152). -/
theorem fetch {i : Instr} {tag : Byte} (h : Polled gap queue rd (n + 1) s) (hbusy : s.d.busy = false)
    (htag : queue[rd]? = some tag)
    (hdecode : ∀ rest, decode Params.default (tag :: rest) = .instr i rest)
    (hlen : encodedLength Params.default i = 1) :
    Polled 480 queue (rd + 1) n (fetched i (Machine.atPoll gap n s)) ∧
    step s = andThen (Machine.exec i (fetched i (Machine.atPoll gap n s))) finishCall := by
  obtain ⟨hlt, hget⟩ := List.getElem?_eq_some_iff.mp htag
  have hbyte : queueByte s.q.buf s.q.rd = tag := by
    have hread := memRead_memWriteBytes_inside [] 0 queue hlt
    rw [h.buf, h.rd]
    exact queueByte_of_memRead (by simpa [hget] using hread)
  have hd := fetchWindow_eq_cons (s := s) (by rw [h.rd, h.wr]; exact hlt)
  rw [hbyte] at hd
  have hrd : s.q.rd + encodedLength s.cfg i = rd + 1 := by rw [h.rd, h.cfg, hlen]
  exact ⟨⟨h.cfg, h.m, h.st, h.buf, h.wr, hrd, h.hooks, rfl⟩,
    (stepRunsTheDecodedInstruction s i _ h.begun h.no_fault h.st hbusy (by rw [h.rd, h.wr]; exact hlt)
      (by rw [h.cfg, hd]; exact hdecode _)).1 _ _ h.calls_eq_cons (Nat.le_add_right _ _)⟩

end Polled

/-- A polled block with a search in flight. -/
structure Searching (queue : List Byte) (rd n : Nat) (s : State) : Prop where
  polled : Polled 480 queue rd n s
  slot : s.d = { busy := true, instr := .instr .srchn }

namespace Searching

variable {rd n : Nat} {queue : List Byte} {s u : State} {P : State → Prop}

theorem step_eq (h : Searching queue rd (n + 1) s) :
    step s = andThen (exec .srchn (atPoll 480 n s)) finishCall :=
  (inFlightInstructionIsSteppedNotReplaced s (s.env.time + 480) _ h.polled.begun h.polled.no_fault h.polled.st
    (by rw [h.slot]) h.polled.calls_eq_cons (Nat.le_add_right _ _)).1 .srchn (by rw [h.slot])

/-- A call that does not complete the search. -/
theorem leads_of_busy (h : Searching queue rd (n + 1) s) (hu : searchStep false (atPoll 480 n s) = (u, false))
    (hP : P (emit (.returned .hBusy) u)) : Leads 1 s fun v => Searching queue rd n v ∧ P v := by
  have hexec : exec .srchn (atPoll 480 n s) = .next u := by rw [exec_srchn, hu]; rfl
  have hd : u.d = s.d := by
    have hframe := (busFrame_searchStep false (atPoll 480 n s)).d
    rwa [hu] at hframe
  exact (h.polled.atPoll.leads_of_exec (.inr rfl) h.step_eq hexec
    (P := fun v => v.d = { busy := true, instr := .instr .srchn } ∧ P v) ⟨hd.trans h.slot, hP⟩).mono
    fun v ⟨hv, hslot, hPv⟩ => ⟨⟨hv, hslot⟩, hPv⟩

/-- A call that completes it. -/
theorem leads_of_done (h : Searching queue rd (n + 1) s) (hu : searchStep false (atPoll 480 n s) = (u, true))
    (hP : P (emit (.returned .hBusy) (complete .searchNext u))) :
    Leads 1 s fun v => Polled 480 queue rd n v ∧ P v := by
  have hexec : exec .srchn (atPoll 480 n s) = .next (complete .searchNext u) := by rw [exec_srchn, hu]; rfl
  exact h.polled.atPoll.leads_of_exec (.inr rfl) h.step_eq hexec hP

end Searching

end Sys2Proof.Machine
end

section
/-! PROOFS. One pass of the search among the devices of R234, call by call (43_search.md R223 to R231), and the statement O34. -/

namespace Sys2Proof.Machine

/-! ### The devices between and within the slots -/

/-- The bus of R234 with these devices, of which `active` take part. -/
def searchBus (ds active : List Device) (phase : BusPhase) : BusEnv :=
  .devices { devices := ds, active := active, phase := phase, replies := [] }

section
variable {ds active : List Device} {e : Env}

theorem drawLevel_idBit {n : Nat} (h : e.bus = searchBus ds active (.search n .idBit)) :
    drawLevel e =
      (active.all fun d => romBit d.rom n, { e with bus := searchBus ds active (.search n .cmpBit) }) := by
  simp [drawLevel, h, searchBus, devicesSample]

theorem drawLevel_cmpBit {n : Nat} (h : e.bus = searchBus ds active (.search n .cmpBit)) :
    drawLevel e =
      (active.all fun d => !romBit d.rom n, { e with bus := searchBus ds active (.search n .dirBit) }) := by
  simp [drawLevel, h, searchBus, devicesSample]

/-- After a reset pulse every device answers, and waits for a command. -/
theorem drawLevel_busReset {phase : BusPhase} (h : e.bus = searchBus ds active phase) (hne : ds ≠ []) :
    drawLevel (busReset e) = (false, { e with bus := searchBus ds [] (.command []) }) := by
  simp [drawLevel, busReset, h, searchBus, devicesReset, devicesSample, hne]

theorem busWritten_command {p : Params} {x : Bool} {bits : List Bool}
    (h : e.bus = searchBus ds active (.command bits)) (hlen : bits.length < 7) :
    busWritten p x e = { e with bus := searchBus ds active (.command (bits ++ [x])) } := by
  simp [busWritten, h, searchBus, devicesWritten, hlen]

/-- With the eighth bit of the search command every device takes part. -/
theorem busWritten_lastCommand {p : Params} {x : Bool} {bits : List Bool}
    (h : e.bus = searchBus ds active (.command bits)) (hbits : bits ++ [x] = byteBits p.cmdSearch) :
    busWritten p x e = { e with bus := searchBus ds ds (.search 1 .idBit) } := by
  have hlen : bits.length = 7 := by simpa [byteBits] using congrArg List.length hbits
  simp [busWritten, h, searchBus, devicesWritten, hlen, devicesCommand, hbits]

/-- With a direction bit the devices that differ drop out. -/
theorem busWritten_dirBit {p : Params} {x : Bool} {n : Nat}
    (h : e.bus = searchBus ds active (.search n .dirBit)) :
    busWritten p x e = { e with
      bus := searchBus ds (active.filter fun d => romBit d.rom n == x)
        (if n < 64 then .search (n + 1) .idBit else .quiet) } := by
  simp [busWritten, h, searchBus, devicesWritten]

end

/-! ### The search state within a pass -/

/-- The cursors stand at bit `k + 1`, the bits before it are the target's, and the zeros of the first `j` bits are recorded. -/
structure Route.At (r : Route) (k j : Nat) (x : Search) : Prop where
  bitPos : x.bitPos = k + 1
  byteIdx : x.byteIdx = k / 8
  mask : x.mask = 1 <<< (k % 8)
  rom : ∀ n, 1 ≤ n → n ≤ k → romBit x.rom n = romBit r.target n
  ld : x.ld = r.resume
  lastDevice : x.lastDevice = false
  lastZero : x.lastZero = r.zero j

namespace Route.At

variable {r : Route} {k j : Nat} {x : Search}

/-- The phase, the command cursor and the two bits in hand are no part of it. -/
theorem of_rest (h : r.At k j x) (phase : SearchPhase) (cmdI : Nat) (idBit dir : Bool) :
    r.At k j { x with phase := phase, cmdI := cmdI, idBit := idBit, dir := dir } :=
  ⟨h.bitPos, h.byteIdx, h.mask, h.rom, h.ld, h.lastDevice, h.lastZero⟩

/-- A direction write stores the target's bit and moves the cursors to the next position (R230). -/
theorem nextCursor (h : r.At k j x) (hk : k < 64) (hdir : x.dir = romBit r.target (k + 1)) :
    r.At (k + 1) j (nextCursor { x with rom := setCursorBit x.rom x.byteIdx x.mask x.dir }) := by
  have hlt : k % 8 < 8 := Nat.mod_lt k (by decide)
  have hrom : ∀ n, 1 ≤ n → n ≤ k + 1 →
      romBit (setCursorBit x.rom x.byteIdx x.mask x.dir) n = romBit r.target n := fun n h1 h2 => by
    rw [romBit_setCursorBit _ _ hlt h.mask h1 (by omega), h.byteIdx, Nat.div_add_mod, hdir]
    split
    · next heq => rw [heq]
    · exact h.rom n h1 (by omega)
  rw [nextCursor_eq (x := { x with rom := setCursorBit x.rom x.byteIdx x.mask x.dir }) hlt h.mask]
  refine ⟨by rw [h.bitPos], ?_, ?_, hrom, h.ld, h.lastDevice, h.lastZero⟩
  · dsimp only
    rw [h.byteIdx]
    split <;> omega
  · dsimp only
    split
    · rw [show (k + 1) % 8 = 0 by omega]; rfl
    · rw [show (k + 1) % 8 = k % 8 + 1 by omega]

/-- Off the split nothing is recorded. -/
theorem skip (h : r.At k k x) (hs : k + 1 ≠ r.split) : r.At k (k + 1) x := by
  have hle : r.split ≤ k ↔ r.split ≤ k + 1 := by omega
  exact { h with lastZero := h.lastZero.trans (by simp only [zero, hle]) }

/-- At the split the direction is the target's bit, and a zero is recorded (R228, R229). -/
theorem choose (h : r.At k k x) (hr : r.Valid) (hs : k + 1 = r.split) :
    r.At k (k + 1) (choose x) ∧ (choose x).dir = romBit r.target (k + 1) := by
  have hdir : chooseDir x = romBit r.target (k + 1) := by
    rw [chooseDir, h.ld, h.bitPos, hr.resume_eq, hs]
    cases romBit r.target r.split <;> simp
    omega
  have hz : r.zero k = 0 := if_neg (by omega)
  rw [choose_eq, hdir]
  refine ⟨⟨h.bitPos, h.byteIdx, h.mask, h.rom, h.ld, h.lastDevice, ?_⟩, rfl⟩
  dsimp only
  rw [h.lastZero, hz, h.bitPos, zero, hs]
  cases romBit r.target r.split <;> simp

/-- After bit 64 the working address is the target. -/
theorem rom_eq (h : r.At 64 j x) : x.rom = r.target := rom_ext h.rom

end Route.At

/-! ### The calls of a pass -/

/-- Where a pass stands. -/
structure Route.Stage (r : Route) (phase : SearchPhase) (rst : RstPhase) (k j : Nat) (bus : BusEnv)
    (s : State) : Prop where
  phase : s.srch.phase = phase
  rst : s.p.rstPhase = rst
  at_bit : r.At k j s.srch
  bus : s.env.bus = bus

/-- A poll comes 480 µs after the last one. -/
theorem elapsed_atPoll {s : State} (n : Nat) (hcfg : s.cfg = Params.default) :
    elapsed s.cfg (now (atPoll 480 n s)) (now s) = 480 := by
  have h := elapsed_eq s.cfg (Nat.le_add_right s.env.time 480)
  rw [Nat.add_sub_cancel_left] at h
  have h480 : 480 % 2 ^ s.cfg.clockBits = 480 := by rw [hcfg]; decide
  exact h.trans h480

/-- One more bit of a byte, least significant first (R65). -/
theorem take_byteBits (b : Byte) {i : Nat} (hi : i < 8) :
    (byteBits b).take i ++ [b.getLsbD i] = (byteBits b).take (i + 1) := by
  have hlen : i < (byteBits b).length := by simpa [byteBits] using hi
  rw [← List.take_append_getElem hlen]
  simp [byteBits]

section
variable (r : Route) (s : State)

/-- The reset pulse has begun (R172). -/
abbrev Route.Pulse : Prop :=
  (∃ active phase, r.Stage .sReset .phase1 0 0 (searchBus r.devices active phase) s) ∧
    s.srch.cmdI = 0 ∧ s.p.rstT0 = now s

/-- After `i` bits of the search command (R225). -/
abbrev Route.Command (phase : SearchPhase) (rst : RstPhase) (i : Nat) : Prop :=
  r.Stage phase rst 0 0
    (searchBus r.devices [] (.command ((byteBits Params.default.cmdSearch).take i))) s ∧ s.srch.cmdI = i

/-- Before this slot of bit `k + 1`, with the zeros of the first `j` bits recorded (R226 to R230). -/
abbrev Route.Bit (phase : SearchPhase) (slot : BitSlot) (k j : Nat) : Prop :=
  r.Stage phase .phase0 k j (searchBus r.devices (r.taking k) (.search (k + 1) slot)) s

end

section
variable {r : Route} (hr : r.Valid) {queue : List Byte} {rd n : Nat} {s : State}
  (h : Searching queue rd (n + 1) s)
include h

include hr in
/-- The end of the reset pulse: every device answers (R172). -/
theorem Route.leads_pulse (hs : r.Pulse s) :
    Leads 1 s fun v => Searching queue rd n v ∧ r.Command v .sReset .phase2 0 ∧
      v.p.rstT1 = now v ∧ v.q.presence = true := by
  obtain ⟨⟨active, phase, hs⟩, hcmd, ht⟩ := hs
  have hcfg := h.polled.cfg
  have hne : r.devices ≠ [] := by
    obtain ⟨d, hd, -⟩ := hr.target_mem
    exact List.ne_nil_of_mem hd
  have hdraw := drawLevel_busReset (e := (atPoll 480 n s).env) hs.bus hne
  have hover : s.cfg.tRstLow ≤ elapsed s.cfg (now (atPoll 480 n s)) s.p.rstT0 := by
    rw [ht, elapsed_atPoll n hcfg, hcfg]
    decide
  have hreset : resetStep (atPoll 480 n s) = (resetRelease (atPoll 480 n s), false) := by
    rw [resetStep, show (atPoll 480 n s).p.rstPhase = .phase1 from hs.rst]
    exact if_pos hover
  have hu : searchStep false (atPoll 480 n s) = (resetRelease (atPoll 480 n s), false) := by
    rw [searchStep, show (atPoll 480 n s).srch.phase = .sReset from hs.phase]
    simp [searchReset, hreset]
  rw [resetRelease_eq, hdraw] at hu
  exact h.leads_of_busy hu ⟨⟨⟨hs.phase, rfl, hs.at_bit, rfl⟩, hcmd⟩, rfl, rfl⟩

/-- The end of the recovery, with presence (R172, R224). -/
theorem Route.leads_recovery (hs : r.Command s .sReset .phase2 0) (ht : s.p.rstT1 = now s)
    (hpres : s.q.presence = true) :
    Leads 1 s fun v => Searching queue rd n v ∧ r.Command v .sCmd .phase0 0 := by
  obtain ⟨hs, hcmd⟩ := hs
  have hcfg := h.polled.cfg
  have hover : s.cfg.tRstRec ≤ elapsed s.cfg (now (atPoll 480 n s)) s.p.rstT1 := by
    rw [ht, elapsed_atPoll n hcfg, hcfg]
    decide
  have hreset : resetStep (atPoll 480 n s) = ({ atPoll 480 n s with p.rstPhase := .phase0 }, true) := by
    rw [resetStep, show (atPoll 480 n s).p.rstPhase = .phase2 from hs.rst]
    exact if_pos hover
  have hu : searchStep false (atPoll 480 n s) =
      ({ atPoll 480 n s with p.rstPhase := .phase0, srch.phase := .sCmd }, false) := by
    rw [searchStep, show (atPoll 480 n s).srch.phase = .sReset from hs.phase]
    simp [searchReset, hreset, show (atPoll 480 n s).q.presence = true from hpres]
  exact h.leads_of_busy hu ⟨⟨rfl, rfl, hs.at_bit.of_rest _ _ _ _, hs.bus⟩, hcmd⟩

/-- The step that writes command bit `i` (R225). -/
theorem Route.Command.searchStep_eq {i : Nat} (hs : r.Command s .sCmd .phase0 i) :
    searchStep false (atPoll 480 n s) = ({ atPoll 480 n s with
      pin := .released
      env := busWritten Params.default (Params.default.cmdSearch.getLsbD i) (atPoll 480 n s).env
      out := s.out ++ slotOutput Params.default (Params.default.cmdSearch.getLsbD i) false
      srch.cmdI := i + 1
      srch.phase := if i + 1 = 8 then .sReadId else .sCmd }, false) := by
  have hphase : (atPoll 480 n s).srch.phase = .sCmd := hs.1.phase
  have hcmd : (atPoll 480 n s).srch.cmdI = i := hs.2
  have hcfg : (atPoll 480 n s).cfg = Params.default := h.polled.cfg
  have hu : searchStep false (atPoll 480 n s) = searchCmd (atPoll 480 n s) := by rw [searchStep, hphase]
  rw [hu, searchCmd_eq]
  dsimp only
  rw [hphase, hcmd, hcfg]
  rfl

/-- One of the first seven command bits. -/
theorem Route.leads_command {i : Nat} (hi : i < 7) (hs : r.Command s .sCmd .phase0 i) :
    Leads 1 s fun v => Searching queue rd n v ∧ r.Command v .sCmd .phase0 (i + 1) := by
  have hu := Route.Command.searchStep_eq h hs
  obtain ⟨hs, hcmd⟩ := hs
  rw [busWritten_command (e := (atPoll 480 n s).env) hs.bus (by simp [byteBits]; omega),
    take_byteBits _ (by omega), if_neg (by omega)] at hu
  exact h.leads_of_busy hu ⟨⟨rfl, hs.rst, hs.at_bit.of_rest _ _ _ _, rfl⟩, rfl⟩

/-- The eighth: the bits of the ROM code begin. -/
theorem Route.leads_lastCommand (hs : r.Command s .sCmd .phase0 7) :
    Leads 1 s fun v => Searching queue rd n v ∧ r.Bit v .sReadId .idBit 0 0 := by
  have hu := Route.Command.searchStep_eq h hs
  obtain ⟨hs, hcmd⟩ := hs
  rw [busWritten_lastCommand (e := (atPoll 480 n s).env) hs.bus (take_byteBits _ (by decide)),
    if_pos rfl] at hu
  exact h.leads_of_busy hu ⟨rfl, hs.rst, hs.at_bit.of_rest _ _ _ _, rfl⟩

/-- The read of the bit (R226). -/
theorem Route.leads_readId {k : Nat} (hs : r.Bit s .sReadId .idBit k k) :
    Leads 1 s fun v => Searching queue rd n v ∧ r.Bit v .sReadCmp .cmpBit k k ∧
      v.srch.idBit = (r.taking k).all fun d => romBit d.rom (k + 1) := by
  have hu : searchStep false (atPoll 480 n s) = searchReadId (atPoll 480 n s) := by
    rw [searchStep, show (atPoll 480 n s).srch.phase = .sReadId from hs.phase]
  rw [searchReadId_eq, drawLevel_idBit (e := (atPoll 480 n s).env) hs.bus] at hu
  exact h.leads_of_busy hu ⟨⟨rfl, hs.rst, hs.at_bit.of_rest _ _ _ _, rfl⟩, rfl⟩

include hr in
/-- The read of the complement: the direction is the target's bit, by agreement or at the split (R227, R228). -/
theorem Route.leads_readCmp {k : Nat} (hk : k < 64) (hs : r.Bit s .sReadCmp .cmpBit k k)
    (hid : s.srch.idBit = (r.taking k).all fun d => romBit d.rom (k + 1)) :
    Leads 1 s fun v => Searching queue rd n v ∧ r.Bit v .sWriteDir .dirBit k (k + 1) ∧
      v.srch.dir = romBit r.target (k + 1) := by
  have hu : searchStep false (atPoll 480 n s) = searchReadCmp (atPoll 480 n s) := by
    rw [searchStep, show (atPoll 480 n s).srch.phase = .sReadCmp from hs.phase]
  rw [searchReadCmp_eq, drawLevel_cmpBit (e := (atPoll 480 n s).env) hs.bus,
    show (atPoll 480 n s).srch.idBit = _ from hid] at hu
  by_cases hsplit : k + 1 = r.split
  · obtain ⟨hid, hcmp⟩ := hr.reads_of_split hsplit
    obtain ⟨hat, hdir⟩ := hs.at_bit.choose hr hsplit
    rw [hid, hcmp] at hu
    exact h.leads_of_busy hu ⟨⟨rfl, hs.rst, hat.of_rest _ _ _ _, rfl⟩, hdir⟩
  · obtain ⟨hid, hcmp⟩ := hr.reads_of_agree hk hsplit
    have hat := hs.at_bit.skip hsplit
    cases hx : romBit r.target (k + 1) <;> rw [hid, hcmp, hx] at hu <;>
      exact h.leads_of_busy hu ⟨⟨rfl, hs.rst, hat.of_rest _ _ _ _, rfl⟩, rfl⟩

/-- The direction write: on to the next position (R230). -/
theorem Route.leads_writeDir {k : Nat} (hk : k < 63) (hs : r.Bit s .sWriteDir .dirBit k (k + 1))
    (hdir : s.srch.dir = romBit r.target (k + 1)) :
    Leads 1 s fun v => Searching queue rd n v ∧ r.Bit v .sReadId .idBit (k + 1) (k + 1) := by
  have hat : r.At (k + 1) (k + 1) (dirWritten (atPoll 480 n s)).srch :=
    hs.at_bit.nextCursor (by omega) hdir
  have hlt : (dirWritten (atPoll 480 n s)).srch.byteIdx < 8 := by rw [hat.byteIdx]; omega
  have hu : searchStep false (atPoll 480 n s) = searchWriteDir (atPoll 480 n s) := by
    rw [searchStep, show (atPoll 480 n s).srch.phase = .sWriteDir from hs.phase]
  rw [searchWriteDir_eq_dirWritten, if_pos hlt] at hu
  refine h.leads_of_busy hu ⟨rfl, hs.rst, hat.of_rest _ _ _ _, ?_⟩
  have hbus := busWritten_dirBit (p := s.cfg) (x := s.srch.dir) (e := (atPoll 480 n s).env) hs.bus
  refine (congrArg Env.bus hbus).trans ?_
  rw [hdir, if_pos (by omega)]
  rfl

end

/-- Between passes: the slot is free, and the search has this resume point and this exhausted flag. -/
structure Ready (ds : List Device) (ld : Nat) (last : Bool) (s : State) : Prop where
  free : s.d.busy = false
  idle : s.srch.phase = .sIdle
  rst : s.p.rstPhase = .phase0
  ld : s.srch.ld = ld
  lastDevice : s.srch.lastDevice = last
  bus : ∃ active phase, s.env.bus = searchBus ds active phase

/-- After a pass that found its target (R231). -/
structure Route.Found (r : Route) (s : State) : Prop where
  ready : Ready r.devices (r.zero 64) (r.zero 64 == 0) s
  status : s.q.resStatus = .found
  addr : s.q.resAddr = r.target

/-- Calls that take a search from each of `N` points to the next take it from the first to any of these. -/
theorem Searching.iterate {N m rd : Nat} {queue : List Byte} {Q : Nat → State → Prop}
    (hQ : ∀ i < N, ∀ n s, Searching queue rd (n + m) s → Q i s →
      Leads m s fun v => Searching queue rd n v ∧ Q (i + 1) v)
    {n i : Nat} {s : State} (hi : i ≤ N) (h : Searching queue rd (n + m * i) s) (h0 : Q 0 s) :
    Leads (m * i) s fun v => Searching queue rd n v ∧ Q i v := by
  induction i generalizing n with
  | zero => exact ⟨s, rfl, h, h0⟩
  | succ i ih =>
    have hlead := ih (n := n + m) (by omega) (by rwa [Nat.add_assoc, Nat.add_comm m, ← Nat.mul_succ])
    exact hlead.trans fun v ⟨hv, hq⟩ => hQ i hi n v hv hq

section
variable {r : Route} (hr : r.Valid) {queue : List Byte} {rd n : Nat} {s : State}
include hr

/-- The last direction write: the pass is complete, and the target is published (R230, R231). -/
theorem Route.leads_lastWriteDir (h : Searching queue rd (n + 1) s) (hs : r.Bit s .sWriteDir .dirBit 63 64)
    (hdir : s.srch.dir = romBit r.target 64) :
    Leads 1 s fun v => Polled 480 queue rd n v ∧ r.Found v := by
  have hat : r.At 64 64 (dirWritten (atPoll 480 n s)).srch := hs.at_bit.nextCursor (by decide) hdir
  have hge : ¬(dirWritten (atPoll 480 n s)).srch.byteIdx < 8 := by rw [hat.byteIdx]; decide
  have hu : searchStep false (atPoll 480 n s) = searchWriteDir (atPoll 480 n s) := by
    rw [searchStep, show (atPoll 480 n s).srch.phase = .sWriteDir from hs.phase]
  rw [searchWriteDir_eq_dirWritten, if_neg hge] at hu
  rcases searchComplete_cases (dirWritten (atPoll 480 n s)) with ⟨h0, -⟩ | ⟨-, he⟩
  · exact absurd (hat.rom_eq ▸ h0) hr.family
  · rw [he, hat.lastZero, hat.lastDevice, hat.rom_eq] at hu
    have hbus := busWritten_dirBit (p := s.cfg) (x := s.srch.dir) (e := (atPoll 480 n s).env) hs.bus
    exact h.leads_of_done hu ⟨⟨rfl, rfl, hs.rst, rfl, rfl, _, _, congrArg Env.bus hbus⟩, rfl, rfl⟩

/-- The two reads of a bit position. -/
theorem Route.leads_pair {k : Nat} (hk : k < 64) (h : Searching queue rd (n + 2) s)
    (hs : r.Bit s .sReadId .idBit k k) :
    Leads 2 s fun v => Searching queue rd n v ∧ r.Bit v .sWriteDir .dirBit k (k + 1) ∧
      v.srch.dir = romBit r.target (k + 1) :=
  (Route.leads_readId (n := n + 1) h hs).trans fun _ ⟨h, hs, hid⟩ => Route.leads_readCmp hr h hk hs hid

/-- One bit position: two reads and a direction write. -/
theorem Route.leads_bit {k : Nat} (hk : k < 63) (h : Searching queue rd (n + 3) s)
    (hs : r.Bit s .sReadId .idBit k k) :
    Leads 3 s fun v => Searching queue rd n v ∧ r.Bit v .sReadId .idBit (k + 1) (k + 1) :=
  (Route.leads_pair hr (n := n + 1) (by omega) h hs).trans fun _ ⟨h, hs, hdir⟩ =>
    Route.leads_writeDir h hk hs hdir

/-- The last bit position. -/
theorem Route.leads_lastBit (h : Searching queue rd (n + 3) s) (hs : r.Bit s .sReadId .idBit 63 63) :
    Leads 3 s fun v => Polled 480 queue rd n v ∧ r.Found v :=
  (Route.leads_pair hr (n := n + 1) (by decide) h hs).trans fun _ ⟨h, hs, hdir⟩ =>
    Route.leads_lastWriteDir hr h hs hdir

/-- A pass, after the call that begins it, finds its target: reset, command, and the 64 bits. -/
theorem Route.leads_found (h : Searching queue rd (n + 202) s) (hs : r.Pulse s) :
    Leads 202 s fun v => Polled 480 queue rd n v ∧ r.Found v := by
  have hreset := (Route.leads_pulse hr (n := n + 201) h hs).trans fun _ ⟨h, hs, ht, hpres⟩ =>
    Route.leads_recovery (n := n + 200) h hs ht hpres
  have hcommand := hreset.trans fun _ ⟨h, hs⟩ =>
    Searching.iterate (n := n + 193) (m := 1) (N := 7) (Q := fun i s => r.Command s .sCmd .phase0 i)
      (fun _ hi _ _ h hs => Route.leads_command h hi hs) le_rfl h hs
  have hbegin := hcommand.trans fun _ ⟨h, hs⟩ => Route.leads_lastCommand (n := n + 192) h hs
  have hbits := hbegin.trans fun _ ⟨h, hs⟩ =>
    Searching.iterate (n := n + 3) (m := 3) (N := 63) (Q := fun k s => r.Bit s .sReadId .idBit k k)
      (fun _ hk _ _ h hs => Route.leads_bit hr hk h hs) le_rfl h hs
  exact hbits.trans fun _ ⟨h, hs⟩ => Route.leads_lastBit hr h hs

end

/-! ### From the fetch to the end of the scan -/

/-- The state of the search at the beginning of a pass (R223). -/
theorem Route.at_zero (r : Route) {x : Search} (hpos : x.bitPos = 1) (hbyte : x.byteIdx = 0)
    (hmask : x.mask = 1) (hzero : x.lastZero = 0) (hld : x.ld = r.resume) (hlast : x.lastDevice = false) : r.At 0 0 x where
  bitPos := hpos
  byteIdx := hbyte
  mask := hmask
  rom n h1 h2 := by omega
  ld := hld
  lastDevice := hlast
  lastZero := by
    rw [hzero, zero]
    split <;> omega

section
variable {r : Route} (hr : r.Valid) {gap rd n : Nat} {queue : List Byte} {s : State}
include hr

/-- A call that begins a pass, and the 202 after it, find the target. -/
theorem Route.leads_found_of_exec {i : Instr} {s' u : State} (h : Polled 480 queue rd (n + 202) s')
    (hi : i = .srchf ∨ i = .srchn) (hstep : step s = andThen (exec i s') finishCall)
    (hu : exec i s' = .next u) (hslot : u.d = { busy := true, instr := .instr .srchn }) (hs : r.Pulse u) :
    Leads 203 s fun v => Polled 480 queue rd n v ∧ r.Found v := by
  obtain ⟨⟨active, phase, hs⟩, hcmd, ht⟩ := hs
  have hpulse : r.Pulse (emit (.returned .hBusy) u) :=
    ⟨⟨active, phase, hs.phase, hs.rst, hs.at_bit, hs.bus⟩, hcmd, ht⟩
  exact (h.leads_of_exec hi hstep hu (P := fun v => v.d = { busy := true, instr := .instr .srchn } ∧ r.Pulse v)
    ⟨hslot, hpulse⟩).trans fun _ ⟨hv, hslot, hs⟩ => Route.leads_found hr ⟨hv, hslot⟩ hs

/-- SearchFirst finds the target of a route that resumes nowhere (R223). -/
theorem Route.leads_searchFirst {ld : Nat} {last : Bool} (hready : Ready r.devices ld last s)
    (h : Polled gap queue rd (n + 203) s) (htag : queue[rd]? = some 0x06) (hresume : r.resume = 0) :
    Leads 203 s fun v => Polled 480 queue (rd + 1) n v ∧ r.Found v := by
  obtain ⟨hfetched, hstep⟩ := h.fetch (n := n + 202) hready.free htag (fun _ => rfl) rfl
  obtain ⟨hexec, -⟩ := searchStartsAPass (fetched .srchf (atPoll gap (n + 202) s)) hready.idle hready.rst
  obtain ⟨active, phase, hbus⟩ := hready.bus
  exact Route.leads_found_of_exec hr hfetched (.inl rfl) hstep hexec rfl
    ⟨⟨active, phase, rfl, rfl, r.at_zero rfl rfl rfl rfl hresume.symm rfl, hbus⟩, rfl, rfl⟩

/-- SearchNext finds the target of a route that resumes where the last pass left off (R223). -/
theorem Route.leads_searchNext (hready : Ready r.devices r.resume false s) (h : Polled gap queue rd (n + 203) s)
    (htag : queue[rd]? = some 0x07) :
    Leads 203 s fun v => Polled 480 queue (rd + 1) n v ∧ r.Found v := by
  obtain ⟨hfetched, hstep⟩ := h.fetch (n := n + 202) hready.free htag (fun _ => rfl) rfl
  obtain ⟨-, hexec, -⟩ := searchStartsAPass (fetched .srchn (atPoll gap (n + 202) s)) hready.idle hready.rst
  obtain ⟨active, phase, hbus⟩ := hready.bus
  exact Route.leads_found_of_exec hr hfetched (.inr rfl) hstep (hexec hready.lastDevice) rfl
    ⟨⟨active, phase, rfl, rfl, r.at_zero rfl rfl rfl rfl hready.ld hready.lastDevice, hbus⟩, rfl, rfl⟩

end

/-- SearchNext on an exhausted scan ends in one call, without a bus action (R223, D14). -/
theorem Ready.leads_exhausted {ds : List Device} {gap rd n ld : Nat} {queue : List Byte} {s : State}
    (hready : Ready ds ld true s) (h : Polled gap queue rd (n + 1) s) (htag : queue[rd]? = some 0x07) :
    Leads 1 s fun v => v.q.resStatus = .notFound ∧
      v.out = s.out ++ [.finished .searchNext, .returned .hBusy] := by
  obtain ⟨hfetched, hstep⟩ := h.fetch hready.free htag (fun _ => rfl) rfl
  obtain ⟨-, -, hexec⟩ := searchStartsAPass (fetched .srchn (atPoll gap n s)) hready.idle hready.rst
  exact (hfetched.leads_of_exec (.inr rfl) hstep (hexec hready.lastDevice)
    (P := fun v => v.q.resStatus = .notFound ∧
      v.out = s.out ++ [Output.finished .searchNext, Output.returned .hBusy])
    ⟨rfl, List.append_assoc s.out [_] [_]⟩).mono fun _ => And.right

theorem polled_bench (ds : List Device) (queue : List Byte) (n : Nat) :
    Polled 0 queue 0 n (bench ds queue n) := ⟨rfl, rfl, rfl, rfl, rfl, rfl, rfl, rfl⟩

theorem ready_bench (ds : List Device) (queue : List Byte) (n : Nat) :
    Ready ds 0 false (bench ds queue n) := ⟨rfl, rfl, rfl, rfl, rfl, [], .quiet, rfl⟩

/-- Two ROM codes on the bus that first differ at `p`: the one with a 0 there is found first, then the other, and the scan is
exhausted (R239). -/
theorem two_devices_found_in_order {ds : List Device} {c e : Rom} {p : Nat} (hp : 1 ≤ p) (hp' : p ≤ 64)
    (hds : ∀ d ∈ ds, d.rom = c ∨ d.rom = e) (hc : ∃ d ∈ ds, d.rom = c) (he : ∃ d ∈ ds, d.rom = e)
    (hcfamily : romByte c 0 ≠ 0) (hefamily : romByte e 0 ≠ 0)
    (hc0 : romBit c p = false) (he1 : romBit e p = true)
    (hmin : ∀ n, 1 ≤ n → n < p → romBit c n = romBit e n) :
    ∃ t1 t2 t3, steps 203 (bench ds [0x06, 0x07, 0x07] 407) = .next t1 ∧
      steps 203 t1 = .next t2 ∧ steps 1 t2 = .next t3 ∧
      t1.q.resStatus = .found ∧ t2.q.resStatus = .found ∧ (t1.q.resAddr = c ∧ t2.q.resAddr = e) ∧
      t1.srch.lastDevice = false ∧ t2.srch.lastDevice = true ∧
      t3.q.resStatus = .notFound ∧ t3.out = t2.out ++ [.finished .searchNext, .returned .hBusy] := by
  have hfirst := Route.valid_of_two hp hds hc he hcfamily (by simp [hc0, he1]) hmin
  have hnext := Route.valid_of_two hp (fun d hd => (hds d hd).symm) he hc hefamily (by simp [hc0, he1])
    fun n h1 h2 => (hmin n h1 h2).symm
  have hne : (p == 0) = false := by simp; omega
  rw [hc0] at hfirst
  rw [he1] at hnext
  obtain ⟨t1, h1, hpoll1, hready1, hstatus1, haddr1⟩ := Route.leads_searchFirst hfirst (n := 204)
    (ready_bench ds [0x06, 0x07, 0x07] 407) (polled_bench ds _ 407) rfl rfl
  simp only [Route.zero, hc0, hp', and_self, if_true, hne] at hready1
  obtain ⟨t2, h2, hpoll2, hready2, hstatus2, haddr2⟩ := Route.leads_searchNext hnext (n := 1) hready1 hpoll1 rfl
  simp only [Route.zero, he1, Bool.true_eq_false, and_false, if_false, beq_self_eq_true] at hready2
  obtain ⟨t3, h3, hend⟩ := hready2.leads_exhausted (n := 0) hpoll2 rfl
  exact ⟨t1, t2, t3, h1, h2, h3, hstatus1, hstatus2, ⟨haddr1, haddr2⟩, hready1.lastDevice,
    hready2.lastDevice, hend⟩

/-- Settles O34: the two ROM codes have a first position at which they differ; the pass that takes the 0 there comes first. -/
theorem twoDevicesAreEnumeratedOnceEach : Obligations.TwoDevicesAreEnumeratedOnceEach := by
  intro a b hab hafamily hbfamily
  obtain ⟨p, hp, hp', hne, hmin⟩ := exists_first_difference hab
  have ha : ∃ d ∈ [Device.mk a false, ⟨b, false⟩], d.rom = a := ⟨⟨a, false⟩, by simp⟩
  have hb : ∃ d ∈ [Device.mk a false, ⟨b, false⟩], d.rom = b := ⟨⟨b, false⟩, by simp⟩
  have hds : ∀ d ∈ [Device.mk a false, ⟨b, false⟩], d.rom = a ∨ d.rom = b := by simp
  cases hbit : romBit a p
  · have hbit' : romBit b p = true := by simpa [hbit] using hne.symm
    obtain ⟨t1, t2, t3, h1, h2, h3, hs1, hs2, haddr, hrest⟩ :=
      two_devices_found_in_order hp hp' hds ha hb hafamily hbfamily hbit hbit' hmin
    exact ⟨t1, t2, t3, h1, h2, h3, hs1, hs2, .inl haddr, hrest⟩
  · have hbit' : romBit b p = false := by simpa [hbit] using hne.symm
    obtain ⟨t1, t2, t3, h1, h2, h3, hs1, hs2, haddr, hrest⟩ :=
      two_devices_found_in_order hp hp' (fun d hd => (hds d hd).symm) hb ha hbfamily hafamily hbit' hbit
        fun n h1 h2 => (hmin n h1 h2).symm
    exact ⟨t1, t2, t3, h1, h2, h3, hs1, hs2, .inr haddr, hrest⟩

end Sys2Proof.Machine
end

section
/-! PROOFS. Decoding and encoding are inverse to each other (30_encoding.md R80 to R84), and the statements O1, O2 and O4. -/

namespace Sys2Proof

/-- Settles O1: the encoding keeps the tag and the bytes of each operand, and an operand that fits is the value of its bytes. -/
theorem decodeOfEncodeIsTheInstruction : Obligations.DecodeOfEncodeIsTheInstruction :=
  fun _ _ rest hwf => decode_encode_append hwf rest

/-- The first `n` bytes of a string are the bytes of their value, which fits `n` bytes (R64, R82). -/
theorem leBytes_leValue_take {bs : List Byte} {n : Nat} (h : n ≤ bs.length) :
    leBytes n (leValue (bs.take n)) = bs.take n ∧ leValue (bs.take n) < 2 ^ (8 * n) := by
  have hlen : (bs.take n).length = n := List.length_take_of_le h
  have hbytes := leBytes_leValue (bs.take n)
  have hlt := leValue_lt (bs.take n)
  rw [hlen] at hbytes hlt
  exact ⟨hbytes, hlt⟩

/-- The bytes of a Wait's payload that decodes are its encoding's (R82). -/
theorem encode_of_decodeWait {p : Params} {bs rest : List Byte} {i : Instr}
    (h : decodeWait p bs = .instr i rest) : i.wellFormed p = true ∧ 0x0A :: bs = encode p i ++ rest := by
  unfold decodeWait at h
  split at h
  · cases h
  · next hlen =>
    obtain ⟨rfl, rfl⟩ := Decoded.instr.inj h
    obtain ⟨hbytes, hlt⟩ := leBytes_leValue_take (Nat.le_of_not_lt hlen)
    exact ⟨by simpa [Instr.wellFormed] using hlt, by simp [encode, hbytes]⟩

/-- The bytes of a Callback's payload that decodes are its encoding's (R82). -/
theorem encode_of_decodeCallback {p : Params} {bs rest : List Byte} {i : Instr}
    (h : decodeCallback p bs = .instr i rest) : i.wellFormed p = true ∧ 0x0B :: bs = encode p i ++ rest := by
  unfold decodeCallback at h
  split at h
  · cases h
  · next hlen =>
    obtain ⟨rfl, rfl⟩ := Decoded.instr.inj h
    obtain ⟨hhandler, hh⟩ := leBytes_leValue_take (bs := bs) (n := p.handlerBytes) (by omega)
    obtain ⟨hcontext, hc⟩ := leBytes_leValue_take (bs := bs.drop p.handlerBytes) (n := p.contextBytes)
      (by rw [List.length_drop]; omega)
    refine ⟨by simpa [Instr.wellFormed] using ⟨hh, hc⟩, ?_⟩
    rw [encode, hhandler, hcontext, ← List.drop_drop, List.cons_append, List.append_assoc,
      List.take_append_drop, List.take_append_drop]

/-- Bytes that decode are the encoding of a well-formed instruction and the bytes left (R81, R82). -/
theorem encode_of_decode {p : Params} {bytes rest : List Byte} {i : Instr}
    (h : decode p bytes = .instr i rest) : i.wellFormed p = true ∧ bytes = encode p i ++ rest := by
  cases bytes with
  | nil => cases h
  | cons tag bs =>
    have htag : ∀ {n : Nat} (hn : n < 2 ^ 8), tag.toNat = n → tag = BitVec.ofNat 8 n := fun hn ht =>
      BitVec.eq_of_toNat_eq (by rw [ht, BitVec.toNat_ofNat, Nat.mod_eq_of_lt hn])
    rw [decode] at h
    split at h <;> rename_i ht
    case h_11 => exact htag (by decide) ht ▸ encode_of_decodeWait h
    case h_12 => exact htag (by decide) ht ▸ encode_of_decodeCallback h
    case h_13 => cases h
    all_goals
      obtain ⟨rfl, rfl⟩ := Decoded.instr.inj h
      rw [htag (by decide) ht]
      exact ⟨rfl, rfl⟩

/-- Settles O2: the tag names the instruction, and the payload's bytes are the bytes of the operands' values. -/
theorem encodeOfDecodeIsTheBytes : Obligations.EncodeOfDecodeIsTheBytes :=
  fun _ _ _ _ => encode_of_decode

/-- A decoded instruction is no longer than the bytes it was decoded from. -/
theorem encodedLength_le_of_decode {p : Params} {bytes rest : List Byte} {i : Instr}
    (h : decode p bytes = .instr i rest) : encodedLength p i ≤ bytes.length := by
  rw [(encode_of_decode h).2, List.length_append, encode_length]
  exact Nat.le_add_right _ _

/-- Settles O4: seven closed byte strings, each decoded by evaluation. -/
theorem specWordsDecode : Obligations.SpecWordsDecode := by
  unfold Obligations.SpecWordsDecode
  decide

end Sys2Proof
end

section
/-! PROOFS. Everything a step can do (00_scope.md R10, 41_dispatcher.md R150), that no step breaks the invariants of
10_state.md R54 and the field ranges, and the statements O7 and O56. -/

namespace Sys2Proof.Machine

/-! ### What a step does -/

/-- The inputs a step is left with before the block acts hold the same scripts of handlers and hooks (log 5, log 6). -/
def SameScripts (e e' : Env) : Prop := e'.handlers = e.handlers ∧ e'.hooks = e.hooks

/-- What a step that answers has done, on the state with other inputs (R10, R150): a host call; HIdle at once; the end of the
transaction; the fault; or a step of the slot. -/
inductive StepEffect (s : State) : State → Prop
  | host {e : Env} {op : HostOp} {u : State} (r : HostResult) (he : SameScripts s.env e)
      (hop : s.env.calls.head? = some op) (hu : HostEffect { s with env := e } op u) :
      StepEffect s (emit (.returned r) u)
  | quiet (e : Env) : StepEffect s (emit (.returned .hIdle) { s with env := e })
  | drained (e : Env) (hbusy : s.d.busy = false) (hx : s.q.st = .executing) :
      StepEffect s (emit (.returned .hIdle) { s with env := e, q.st := .idle })
  | faulted (e : Env) : StepEffect s (emit (.returned .hIdle) (raiseIllegalTag { s with env := e }))
  | stepped {e : Env} {u t : State} (he : SameScripts s.env e) (hb : s.m.begun = true)
      (hx : s.q.st = .executing) (hu : Loaded { s with env := e } u) (ht : stepInFlight u = .next t) :
      StepEffect s t

theorem stepEffect_of_dispatch {s t : State} {e : Env} (he : SameScripts s.env e) (hb : s.m.begun = true)
    (ht : dispatch { s with env := e } = .next t) : StepEffect s t := by
  rcases dispatch_outcome { s with env := e } with hd | ⟨hbusy, -, hx, hd⟩ | ⟨-, -, -, hd⟩ |
    ⟨-, hx, u, hu, hd⟩
  · exact answer_eq_next.mp (hd ▸ ht) ▸ .quiet e
  · exact answer_eq_next.mp (hd ▸ ht) ▸ .drained e hbusy hx
  · exact answer_eq_next.mp (hd ▸ ht) ▸ .faulted e
  · exact .stepped he hb hx hu (hd ▸ ht)

theorem step_effect {s t : State} (ht : step s = .next t) : StepEffect s t := by
  rcases step_cases s with ⟨op, rest, hcalls, h⟩ | ⟨-, h⟩ <;> rw [h] at ht
  · rcases topCall_cases op { s with env.calls := rest } with ⟨time, rfl, htop⟩ | ⟨-, htop⟩ <;>
      rw [htop] at ht
    · unfold handleCall at ht
      split at ht
      · cases ht
      · next hb =>
        split at ht
        · cases ht
        · exact stepEffect_of_dispatch (by exact ⟨rfl, rfl⟩) (by simpa using hb) ht
    · obtain ⟨u, r, hu, rfl⟩ := hostCall_effect ht
      exact .host r (by exact ⟨rfl, rfl⟩) (by simp [hcalls]) hu
  · unfold pollCall at ht
    split at ht
    · cases ht
    · next hb => exact stepEffect_of_dispatch (by exact ⟨rfl, rfl⟩) (by simpa using hb) ht

/-! ### The invariants (a) to (h) -/

/-- `begin()` leaves the block at rest (R55, R111). -/
theorem inv_blockReset (s : State) : Inv (release s.blockReset) :=
  inv_of_free rfl ⟨rfl, rfl, rfl⟩ ⟨0, by decide, rfl, rfl⟩ ⟨Nat.le_refl _, Nat.zero_le _, rfl⟩ nofun

/-- A host call keeps the invariants. -/
theorem HostEffect.inv {op : HostOp} {s u : State} (he : HostEffect s op u) (h : Inv s) : Inv u := by
  obtain ⟨hle, hroom, hcap⟩ := h.cursors
  cases he with
  | unchanged => exact h
  | drained => exact h.congr rfl ⟨rfl, rfl, rfl, rfl⟩ rfl rfl rfl
  | begun => exact inv_blockReset s
  | opened _ hst =>
    exact inv_of_free rfl (h.idle_quiet hst).2 h.cursor_mask ⟨Nat.le_refl _, Nat.zero_le _, hcap⟩ fun _ => rfl
  | committed _ hst =>
    obtain ⟨hbusy, -⟩ := h.building_quiet hst
    exact inv_of_free hbusy (h.idle_slot hbusy) h.cursor_mask h.cursors nofun
  | appended is _ hc _ hfit =>
    obtain ⟨hbusy, hrd⟩ := h.building_quiet (cannotAppend_eq_false.mp hc).2
    exact inv_of_free hbusy (h.idle_slot hbusy) h.cursor_mask
      ⟨Nat.le_add_right_of_le hle, hfit, hcap⟩ fun _ => hrd

/-- A fetch keeps the invariants: what it decodes lies below the write cursor (R152, R155). -/
theorem Loaded.inv {s u : State} (hu : Loaded s u) (h : Inv s) (hx : s.q.st = .executing) :
    Inv u ∧ u.d.busy = true := by
  cases hu with
  | inFlight hbusy => exact ⟨h, hbusy⟩
  | fetched i rest hbusy hlt hd =>
    have hlen := encodedLength_le_of_decode hd
    rw [fetchWindow, queueRun_length, fetchWant] at hlen
    exact ⟨h.fetched hbusy hx (by omega), rfl⟩
  | nop hbusy hlt hd =>
    obtain ⟨hrst, hwait, hphase⟩ := h.idle_slot hbusy
    exact ⟨inv_of_slotInv hx ⟨Nat.le_refl _, h.cursors.2⟩
      (slotInv_of_quiet hrst hwait hphase h.cursor_mask), rfl⟩

/-- While Nop is in flight nothing else is under way (R54 (e), (f), (g)). -/
theorem Inv.quiet_of_nop {s : State} (h : Inv s) (hi : s.d.instr = .nop) :
    s.p.rstPhase = .phase0 ∧ s.p.waitStarted = false ∧ s.srch.phase = .sIdle := by
  refine ⟨Classical.byContradiction fun hc => ?_, ?_, Classical.byContradiction fun hc => ?_⟩
  · simpa [hi, InFlight.isSearch] using (h.reset_in_flight hc).2
  · cases hs : s.p.waitStarted
    · rfl
    · simpa [hi, InFlight.isWait] using (h.wait_in_flight hs).2
  · simpa [hi, InFlight.isSearch] using (h.search_in_flight hc).2

/-- A step of the slot keeps the clauses about it, whatever the slot holds. -/
theorem Inv.slotInv_stepSlot {s t : State} (h : Inv s) (hbusy : s.d.busy = true) (hb : s.m.begun = true)
    (hx : s.q.st = .executing) (ht : stepSlot s = .next t) : SlotInv t := by
  cases hi : s.d.instr with
  | instr i => exact h.slotInv_exec hbusy hi hb hx (stepSlot_of_instr hi ▸ ht)
  | nop =>
    rw [stepSlot_of_nop hi] at ht
    obtain rfl := Host.Outcome.next.inj ht
    obtain ⟨hrst, hwait, hphase⟩ := h.quiet_of_nop hi
    exact slotInv_of_quiet hrst hwait hphase h.cursor_mask

theorem Inv.stepSlot {s t : State} (h : Inv s) (hbusy : s.d.busy = true) (hb : s.m.begun = true)
    (hx : s.q.st = .executing) (ht : stepSlot s = .next t) : Inv t := by
  have hf := slotFrame_stepSlot hb hx ht
  exact inv_of_slotInv (hf.st.trans hx) (by rw [hf.q, hf.cfg]; exact h.cursors)
    (h.slotInv_stepSlot hbusy hb hx ht)

/-! ### The ranges of the timing registers and the line -/

/-- The ranges of R33, R34 and R36, and the line during a reset (R172). -/
structure TimerRanges (s : State) : Prop where
  rstT0 : s.p.rstT0 < 2 ^ s.cfg.clockBits
  rstT1 : s.p.rstT1 < 2 ^ s.cfg.clockBits
  waitT0 : s.p.waitT0 < 2 ^ s.cfg.clockBits
  pin_phase1 : s.p.rstPhase = .phase1 → s.pin = .low
  pin_phase2 : s.p.rstPhase = .phase2 → s.pin = .released

theorem TimerRanges.congr {s t : State} (h : TimerRanges s) (hcfg : t.cfg = s.cfg) (hp : t.p = s.p)
    (hpin : t.pin = s.pin) : TimerRanges t := by
  constructor <;> simp only [hcfg, hp, hpin]
  · exact h.rstT0
  · exact h.rstT1
  · exact h.waitT0
  · exact h.pin_phase1
  · exact h.pin_phase2

/-- While no reset is under way the line may be anything. -/
theorem TimerRanges.of_phase0 {s t : State} (h : TimerRanges s) (hcfg : t.cfg = s.cfg) (hp : t.p = s.p)
    (h0 : s.p.rstPhase = .phase0) : TimerRanges t := by
  constructor <;> simp only [hcfg, hp]
  · exact h.rstT0
  · exact h.rstT1
  · exact h.waitT0
  · simp [h0]
  · simp [h0]

/-- The reset primitive holds the line low in phase 1 and released in phase 2 (R172). -/
theorem TimerRanges.resetStep {s : State} (h : TimerRanges s) : TimerRanges (resetStep s).1 := by
  rcases resetStep_cases s with ⟨-, he⟩ | ⟨-, -, he⟩ | ⟨-, -, he⟩ | ⟨-, -, he⟩ | ⟨-, -, he⟩ <;> rw [he]
  · rw [resetStart_eq]
    exact ⟨now_lt s, h.rstT1, h.waitT0, fun _ => rfl, nofun⟩
  · exact h
  · rw [resetRelease_eq]
    exact ⟨h.rstT0, now_lt s, h.waitT0, nofun, fun _ => rfl⟩
  · exact h
  · exact ⟨h.rstT0, h.rstT1, h.waitT0, nofun, nofun⟩

theorem TimerRanges.searchReset {s : State} (h : TimerRanges s) : TimerRanges (searchReset s).1 := by
  have hr := h.resetStep
  rcases searchReset_cases s with ⟨-, he⟩ | ⟨-, -, he⟩ | ⟨-, -, he⟩ <;> rw [he]
  · exact hr
  · exact hr.congr rfl rfl rfl
  · exact hr.congr rfl rfl rfl

theorem TimerRanges.searchBegin (start : Bool) {s : State} (h : TimerRanges s) :
    TimerRanges (searchBegin start s).1 := by
  rcases searchBegin_cases start s with ⟨-, he⟩ | ⟨-, -, he⟩ | ⟨-, -, he⟩ <;> rw [he]
  · exact TimerRanges.searchReset (h.congr rfl rfl rfl)
  · exact h.congr rfl rfl rfl
  · exact TimerRanges.searchReset (h.congr rfl rfl rfl)

/-- After its reset phase a search leaves the timing registers alone. -/
theorem TimerRanges.searchStep (start : Bool) {s : State} (h : TimerRanges s) (hs : SearchSound s) :
    TimerRanges (searchStep start s).1 := by
  have h0 : s.srch.phase ≠ .sReset → s.p.rstPhase = .phase0 := fun hne =>
    Classical.byContradiction fun hc => hne (hs.reset hc)
  unfold Machine.searchStep
  split <;> rename_i hphase
  · exact h.searchBegin start
  · exact h.searchReset
  · rw [searchCmd_eq]
    exact h.of_phase0 rfl rfl (h0 (by simp [hphase]))
  · rw [searchReadId_eq]
    exact h.of_phase0 rfl rfl (h0 (by simp [hphase]))
  · rw [searchReadCmp_eq]
    dsimp only
    split
    · exact h.of_phase0 rfl rfl (h0 (by simp [hphase]))
    · split <;> exact h.of_phase0 rfl rfl (h0 (by simp [hphase]))
  · rw [searchWriteDir_eq]
    dsimp only
    split
    · exact h.of_phase0 rfl rfl (h0 (by simp [hphase]))
    · rcases searchComplete_cases _ with ⟨-, he⟩ | ⟨-, he⟩ <;> rw [he] <;>
        exact h.of_phase0 rfl rfl (h0 (by simp [hphase]))

theorem TimerRanges.waitStep (dur : Nat) {s : State} (h : TimerRanges s) :
    TimerRanges (waitStep dur s).1 := by
  rcases waitStep_cases dur s with ⟨-, he⟩ | ⟨-, -, he⟩ | ⟨-, -, he⟩ <;> rw [he]
  · exact ⟨h.rstT0, h.rstT1, now_lt s, h.pin_phase1, h.pin_phase2⟩
  · exact h
  · exact ⟨h.rstT0, h.rstT1, h.waitT0, h.pin_phase1, h.pin_phase2⟩

/-! ### The ranges of the search state -/

/-- The ranges of R40, R41, R43, R44, R46 and R47, with what a pass in progress adds. -/
structure SearchRanges (x : Search) : Prop where
  ld : x.ld ≤ 64
  lfd : x.lfd ≤ 8
  bitPos : 1 ≤ x.bitPos ∧ x.bitPos ≤ 65
  byteIdx : x.byteIdx ≤ 8
  lastZero : x.lastZero ≤ 64
  cmdI : x.cmdI ≤ 8
  byteIdx_inPass : x.phase.inPass → x.byteIdx < 8
  cmdI_beforeBits : x.phase.beforeBits → x.cmdI < 8

theorem ranges_iff {s : State} : Ranges s ↔ TimerRanges s ∧ SearchRanges s.srch := by
  constructor
  · exact fun h => ⟨⟨h.rstT0, h.rstT1, h.waitT0, h.pin_phase1, h.pin_phase2⟩, h.ld, h.lfd, h.bitPos, h.byteIdx,
      h.lastZero, h.cmdI, h.byteIdx_inPass, h.cmdI_beforeBits⟩
  · exact fun ⟨h, hx⟩ => ⟨h.rstT0, h.rstT1, h.waitT0, hx.ld, hx.lfd, hx.bitPos, hx.byteIdx, hx.lastZero, hx.cmdI,
      hx.byteIdx_inPass, hx.cmdI_beforeBits, h.pin_phase1, h.pin_phase2⟩

section
variable {x : Search} (h : SearchRanges x)
include h

/-- With no pass in progress the cursors may stand past the last bit. -/
theorem SearchRanges.idle : SearchRanges { x with phase := .sIdle } :=
  { h with byteIdx_inPass := fun hc => absurd rfl hc, cmdI_beforeBits := by simp [SearchPhase.beforeBits] }

/-- A pass that goes on past its command. -/
theorem SearchRanges.after_command {f : SearchPhase} (hp : x.phase.inPass) (hf : ¬f.beforeBits)
    (idBit dir : Bool) : SearchRanges { x with phase := f, idBit := idBit, dir := dir } :=
  { h with byteIdx_inPass := fun _ => h.byteIdx_inPass hp, cmdI_beforeBits := fun hc => absurd hc hf }

theorem SearchRanges.clear : SearchRanges { x with rom := Rom.zero, ld := 0, lfd := 0, lastDevice := false } :=
  { h with ld := Nat.zero_le _, lfd := Nat.zero_le _ }

theorem SearchRanges.init : SearchRanges
    { x with bitPos := 1, byteIdx := 0, mask := 0x01, lastZero := 0, cmdI := 0, phase := .sReset } where
  ld := h.ld
  lfd := h.lfd
  bitPos := ⟨Nat.le_refl 1, Nat.le_add_left 1 64⟩
  byteIdx := Nat.zero_le _
  lastZero := Nat.zero_le _
  cmdI := Nat.zero_le _
  byteIdx_inPass _ := Nat.zero_lt_succ 7
  cmdI_beforeBits _ := Nat.zero_lt_succ 7

/-- In a pass the cursors stand at one of the 64 bits (R54 (h)). -/
theorem SearchRanges.bitPos_le (hc : CursorMask x) (hp : x.phase.inPass) : x.bitPos ≤ 64 := by
  obtain ⟨k, hk, -, hpos⟩ := hc
  have hbyte := h.byteIdx_inPass hp
  omega

/-- A choice records a position within the 64 bits, and within the family byte as such (R229). -/
theorem SearchRanges.choose (hc : CursorMask x) (hp : x.phase.inPass) : SearchRanges (choose x) := by
  have hpos := h.bitPos_le hc hp
  have hzero := h.lastZero
  have hlfd := h.lfd
  rw [choose_eq]
  refine { h with lfd := ?_, lastZero := ?_ } <;> dsimp only <;> split <;> omega

/-- The cursors after a direction write (R230). -/
theorem SearchRanges.nextCursor (hc : CursorMask x) (hp : x.phase.inPass) :
    SearchRanges { nextCursor x with phase := .sIdle } ∧
      ((nextCursor x).byteIdx < 8 → SearchRanges { nextCursor x with phase := .sReadId }) := by
  have hpos := h.bitPos_le hc hp
  have hbyte := h.byteIdx_inPass hp
  obtain ⟨k, hk, hm, -⟩ := hc
  rw [nextCursor_eq hk hm]
  have hidle : SearchRanges { x with
      bitPos := x.bitPos + 1
      byteIdx := if k = 7 then x.byteIdx + 1 else x.byteIdx
      mask := if k = 7 then 0x01 else 1 <<< (k + 1)
      phase := .sIdle } :=
    { h.idle with bitPos := ⟨Nat.le_add_left 1 _, Nat.succ_le_succ hpos⟩, byteIdx := by dsimp only; split <;> omega,
                  byteIdx_inPass := fun hc => absurd rfl hc }
  exact ⟨hidle, fun hlt => { hidle with byteIdx_inPass := fun _ => hlt, cmdI_beforeBits := by simp [SearchPhase.beforeBits] }⟩

end

theorem searchRanges_searchReset {s : State} (h : SearchRanges s.srch) (hphase : s.srch.phase = .sReset) :
    SearchRanges (searchReset s).1.srch := by
  have hsrch := resetStep_srch s
  have hcmd : s.srch.cmdI < 8 := h.cmdI_beforeBits (.inl hphase)
  have hbyte : s.srch.byteIdx < 8 := h.byteIdx_inPass (by simp [hphase, SearchPhase.inPass])
  rcases searchReset_cases s with ⟨-, he⟩ | ⟨-, -, he⟩ | ⟨-, -, he⟩ <;> rw [he]
  · exact hsrch ▸ h
  · simp only [hsrch]
    exact { h with byteIdx_inPass := fun _ => hbyte, cmdI_beforeBits := fun _ => hcmd }
  · rw [searchEnd_srch, hsrch]
    exact h.idle

theorem searchRanges_searchBegin (start : Bool) {s : State} (h : SearchRanges s.srch) :
    SearchRanges (searchBegin start s).1.srch := by
  rcases searchBegin_cases start s with ⟨-, he⟩ | ⟨-, -, he⟩ | ⟨-, -, he⟩ <;> rw [he]
  · exact searchRanges_searchReset h.clear.init rfl
  · exact h
  · exact searchRanges_searchReset h.init rfl

theorem searchRanges_searchCmd {s : State} (h : SearchRanges s.srch) (hphase : s.srch.phase = .sCmd) :
    SearchRanges (searchCmd s).1.srch := by
  have hcmd : s.srch.cmdI < 8 := h.cmdI_beforeBits (.inr hphase)
  have hbyte : s.srch.byteIdx < 8 := h.byteIdx_inPass (by simp [hphase, SearchPhase.inPass])
  rw [searchCmd_eq]
  refine { h with cmdI := hcmd, byteIdx_inPass := fun _ => hbyte, cmdI_beforeBits := ?_ }
  dsimp only
  split
  · simp [SearchPhase.beforeBits]
  · omega

theorem searchRanges_searchReadCmp {s : State} (h : SearchRanges s.srch) (hc : CursorMask s.srch)
    (hp : s.srch.phase.inPass) : SearchRanges (searchReadCmp s).1.srch := by
  have hwrite : ¬SearchPhase.sWriteDir.beforeBits := by simp [SearchPhase.beforeBits]
  rw [searchReadCmp_eq]
  dsimp only
  split
  · exact h.idle
  · split
    · exact h.after_command hp hwrite _ _
    · have hphase : (choose s.srch).phase.inPass := by rw [choose_eq]; exact hp
      exact (h.choose hc hp).after_command hphase hwrite _ _

theorem searchRanges_searchWriteDir {s : State} (h : SearchRanges s.srch) (hc : CursorMask s.srch)
    (hp : s.srch.phase.inPass) : SearchRanges (searchWriteDir s).1.srch := by
  obtain ⟨hidle, hnext⟩ := SearchRanges.nextCursor (x := { s.srch with
    rom := setCursorBit s.srch.rom s.srch.byteIdx s.srch.mask s.srch.dir }) { h with } hc hp
  rw [searchWriteDir_eq]
  dsimp only
  split
  · next hlt => exact hnext hlt
  · rcases searchComplete_cases _ with ⟨-, he⟩ | ⟨-, he⟩ <;> rw [he] <;>
      exact { hidle with ld := hidle.lastZero }

/-- Every phase keeps the search state in its ranges. -/
theorem searchRanges_searchStep (start : Bool) {s : State} (h : SearchRanges s.srch)
    (hc : CursorMask s.srch) : SearchRanges (searchStep start s).1.srch := by
  have hp : s.srch.phase ≠ .sIdle → s.srch.phase.inPass := id
  unfold searchStep
  split <;> rename_i hphase
  · exact searchRanges_searchBegin start h
  · exact searchRanges_searchReset h hphase
  · exact searchRanges_searchCmd h hphase
  · rw [searchReadId_eq]
    exact h.after_command (hp (by simp [hphase])) (by simp [SearchPhase.beforeBits]) _ _
  · exact searchRanges_searchReadCmp h hc (hp (by simp [hphase]))
  · exact searchRanges_searchWriteDir h hc (hp (by simp [hphase]))

/-! ### The ranges over a step -/

@[simp] theorem retired_pin (k : Kind) (r : State × Bool) : (retired k r).pin = r.1.pin := by
  unfold retired
  split <;> rfl

theorem Ranges.retired {r : State × Bool} (h : Ranges r.1) (k : Kind) : Ranges (retired k r) :=
  h.congr (by simp) (by simp) (by simp) (by simp)

/-- While a search is in flight, a reset under way is the pass's own (R54 (f)). -/
theorem Inv.searchSound {s : State} (h : Inv s) (hi : s.d.instr.isSearch) : SearchSound s :=
  ⟨fun hc => (h.reset_in_flight hc).2.elim (fun he => by simp [he, InFlight.isSearch] at hi) And.right,
    h.cursor_mask⟩

theorem Ranges.searchStep (start : Bool) {s : State} (h : Inv s) (hr : Ranges s)
    (hi : s.d.instr.isSearch) : Ranges (searchStep start s).1 :=
  have hsound := h.searchSound hi
  ranges_iff.mpr ⟨(ranges_iff.mp hr).1.searchStep start hsound,
    searchRanges_searchStep start (ranges_iff.mp hr).2 hsound.cursor⟩

/-- An instruction outside a reset that leaves the timing registers and the search state alone. -/
theorem Ranges.of_phase0 {s t : State} (h : Ranges s) (hcfg : t.cfg = s.cfg) (hp : t.p = s.p)
    (hs : t.srch = s.srch) (h0 : s.p.rstPhase = .phase0) : Ranges t :=
  ranges_iff.mpr ⟨(ranges_iff.mp h).1.of_phase0 hcfg hp h0, hs ▸ (ranges_iff.mp h).2⟩

/-- Each instruction keeps every field in its range. -/
theorem Ranges.exec {i : Instr} {s t : State} (hr : Ranges s) (h : Inv s) (hi : s.d.instr = .instr i)
    (hb : s.m.begun = true) (hx : s.q.st = .executing) (ht : exec i s = .next t) : Ranges t := by
  have h0 : i ≠ .reset ∧ ¬(InFlight.instr i).isSearch → s.p.rstPhase = .phase0 := fun ⟨hr, hs⟩ =>
    (h.quiet hi hr hs).1
  cases i
  case callback =>
    obtain ⟨u, hu, hc⟩ := andThen_eq_next.mp ht
    obtain rfl := Host.Outcome.next.inj hc
    rcases callbackStep_next hb hx hu with ⟨-, rfl⟩ | ha
    · exact hr.congr rfl rfl rfl rfl
    · refine hr.congr ?_ ?_ ?_ ?_ <;> rw [complete, ha.block] <;> rfl
  all_goals obtain rfl := Host.Outcome.next.inj ht
  case reset =>
    exact Ranges.retired (ranges_iff.mpr ⟨(ranges_iff.mp hr).1.resetStep,
      (resetStep_srch s).symm ▸ (ranges_iff.mp hr).2⟩) .reset
  case wait dur =>
    have hsrch : (waitStep dur s).1.srch = s.srch := by
      rcases waitStep_cases dur s with ⟨-, he⟩ | ⟨-, -, he⟩ | ⟨-, -, he⟩ <;> rw [he]
    exact Ranges.retired (ranges_iff.mpr ⟨(ranges_iff.mp hr).1.waitStep dur,
      hsrch.symm ▸ (ranges_iff.mp hr).2⟩) .wait
  case srchf =>
    exact Ranges.retired (r := (retagSearch (Machine.searchStep true s).1, (Machine.searchStep true s).2))
      ((Ranges.searchStep true h hr (.inl hi)).congr rfl rfl rfl rfl) .searchNext
  case srchn => exact (Ranges.searchStep false h hr (.inr hi)).retired .searchNext
  case w0 | w1 | pw0 | pw1 =>
    refine hr.of_phase0 ?_ ?_ ?_ (h0 (by simp [InFlight.isSearch])) <;> simp [writeSlot_eq]
  case read =>
    refine hr.of_phase0 ?_ ?_ ?_ (h0 (by simp [InFlight.isSearch])) <;> simp [readSlot_eq]
  case power | unpower => exact hr.of_phase0 rfl rfl rfl (h0 (by simp [InFlight.isSearch]))

theorem Ranges.stepSlot {s t : State} (hr : Ranges s) (h : Inv s) (hb : s.m.begun = true)
    (hx : s.q.st = .executing) (ht : stepSlot s = .next t) : Ranges t := by
  cases hi : s.d.instr with
  | instr i => exact hr.exec h hi hb hx (stepSlot_of_instr hi ▸ ht)
  | nop =>
    rw [stepSlot_of_nop hi] at ht
    obtain rfl := Host.Outcome.next.inj ht
    exact hr.congr rfl rfl rfl rfl

theorem searchRanges_reset : SearchRanges Search.reset := by
  constructor <;> simp [Search.reset, SearchPhase.inPass, SearchPhase.beforeBits]

theorem ranges_blockReset (s : State) : Ranges (release s.blockReset) :=
  have hpow : 0 < 2 ^ s.cfg.clockBits := Nat.pow_pos (by decide)
  ranges_iff.mpr ⟨⟨hpow, hpow, hpow, nofun, nofun⟩, searchRanges_reset⟩

theorem HostEffect.ranges {op : HostOp} {s u : State} (he : HostEffect s op u) (h : Ranges s) :
    Ranges u := by
  cases he with
  | begun => exact ranges_blockReset s
  | unchanged => exact h
  | drained | opened | committed | appended => exact h.congr rfl rfl rfl rfl

/-! ### Every step -/

/-- A step of the slot and the end of the call keep the invariants and the ranges. -/
theorem inv_ranges_of_stepInFlight {s t : State} (h : Inv s) (hr : Ranges s) (hbusy : s.d.busy = true)
    (hb : s.m.begun = true) (hx : s.q.st = .executing) (ht : stepInFlight s = .next t) :
    Inv t ∧ Ranges t := by
  obtain ⟨u, hu, hfin⟩ := andThen_eq_next.mp ht
  have hf := slotFrame_stepSlot hb hx hu
  have ha := (finishCall_answered (by rw [hf.m, hb]) (hf.st.trans hx) hfin).block
  constructor
  · refine (h.stepSlot hbusy hb hx hu).congr ?_ ⟨?_, ?_, ?_, ?_⟩ ?_ ?_ ?_ <;> rw [ha]
  · refine (hr.stepSlot h hb hx hu).congr ?_ ?_ ?_ ?_ <;> rw [ha]

theorem Loaded.ranges {s u : State} (hu : Loaded s u) (hr : Ranges s) : Ranges u := by
  cases hu with
  | inFlight => exact hr
  | fetched | nop => exact hr.congr rfl rfl rfl rfl

/-- Settles O56: each way a step can go keeps the invariants and the ranges. -/
theorem stepKeepsTheInvariants : Obligations.StepKeepsTheInvariants := by
  intro s t h hr ht
  have hinv : ∀ e, Inv { s with env := e } := fun e => h.congr rfl ⟨rfl, rfl, rfl, rfl⟩ rfl rfl rfl
  have hranges : ∀ e, Ranges { s with env := e } := fun e => hr.congr rfl rfl rfl rfl
  cases step_effect ht with
  | host r _ _ hu =>
    exact ⟨(hu.inv (hinv _)).congr rfl ⟨rfl, rfl, rfl, rfl⟩ rfl rfl rfl,
      (hu.ranges (hranges _)).congr rfl rfl rfl rfl⟩
  | quiet | faulted => exact ⟨h.congr rfl ⟨rfl, rfl, rfl, rfl⟩ rfl rfl rfl, hr.congr rfl rfl rfl rfl⟩
  | drained _ hbusy =>
    exact ⟨inv_of_free hbusy (h.idle_slot hbusy) h.cursor_mask h.cursors nofun, hr.congr rfl rfl rfl rfl⟩
  | stepped _ hb hx hu ht =>
    obtain ⟨hiu, hbusy⟩ := hu.inv (hinv _) hx
    obtain ⟨-, hq, hm, -⟩ := hu.keeps
    exact inv_ranges_of_stepInFlight hiu (hu.ranges (hranges _)) hbusy (by rw [hm]; exact hb)
      (by rw [hq]; exact hx) ht

/-- Settles O7: `State.reset` is a block right after `begin()`, its queue empty and its memories unwritten. -/
theorem resetMeetsTheInvariants : Obligations.ResetMeetsTheInvariants := by
  have hinv : Inv State.reset :=
    (inv_blockReset (State.constructed Params.default)).congr rfl ⟨rfl, rfl, rfl, rfl⟩ rfl rfl rfl
  have hranges : Ranges State.reset :=
    (ranges_blockReset (State.constructed Params.default)).congr rfl rfl rfl rfl
  have hmem : MemoryInv State.reset := ⟨.nil, nofun, .nil, nofun⟩
  exact ⟨hinv, hranges, built_of_free rfl hinv hmem (queueWhole_of_drained (Nat.le_refl _)) rfl⟩

end Sys2Proof.Machine
end

section
/-! PROOFS. What every step keeps: the memories, the queue bytes, the order of the transaction states, and the accumulator but for
its two writers (10_state.md, 20_memory.md, 40_builder.md R131 to R134), and the statements O42, O57, O59 and O60. -/

namespace Sys2Proof.Machine

/-! ### The memories -/

theorem MemoryInv.blockReset {s : State} (h : MemoryInv s) : MemoryInv (release s.blockReset) :=
  ⟨.nil, nofun, h.dest_wf, h.dest_inside⟩

/-- An append with room stays below the queue's end (R114). -/
theorem MemoryInv.appended {s : State} {bytes : List Byte} (h : MemoryInv s)
    (hroom : s.q.wr + bytes.length ≤ s.q.qend) : MemoryInv (appended bytes s) where
  buf_wf := memWriteBytes_wf h.buf_wf _ _
  buf_inside c hc := (mem_of_mem_memWriteBytes hc).elim (fun hin => Nat.lt_of_lt_of_le hin.2 hroom) (h.buf_inside c)
  dest_wf := h.dest_wf
  dest_inside := h.dest_inside

theorem HostEffect.memoryInv {op : HostOp} {s u : State} (he : HostEffect s op u) (h : MemoryInv s) :
    MemoryInv u := by
  cases he with
  | unchanged => exact h
  | begun => exact h.blockReset
  | appended is _ _ _ hroom => exact h.appended hroom
  | drained | opened | committed => exact h.congr rfl rfl rfl rfl

theorem Loaded.memoryInv {s u : State} (hu : Loaded s u) (h : MemoryInv s) : MemoryInv u := by
  cases hu with
  | inFlight => exact h
  | fetched | nop => exact h.congr rfl rfl rfl rfl

/-- Settles O57: an append writes inside the queue, and a COPY inside DEST. -/
theorem stepKeepsTheMemories : Obligations.StepKeepsTheMemories := by
  intro s t h ht
  have henv : ∀ e, MemoryInv { s with env := e } := fun e => h.congr rfl rfl rfl rfl
  cases step_effect ht with
  | host r _ _ hu => exact (hu.memoryInv (henv _)).congr rfl rfl rfl rfl
  | quiet | drained | faulted => exact h.congr rfl rfl rfl rfl
  | stepped _ hb hx hu ht => exact (hu.slotFrame hb hx ht).memoryInv (hu.memoryInv (henv _))

/-! ### The queue and the transaction state -/

/-- A step of the slot leaves all but the read cursor, the flags and the results of the queue alone (R158). -/
theorem queue_of_stepped {s u t : State} {e : Env} (hb : s.m.begun = true) (hx : s.q.st = .executing)
    (hu : Loaded { s with env := e } u) (ht : stepInFlight u = .next t) :
    t.cfg = s.cfg ∧ t.q.buf = s.q.buf ∧ t.q.qend = s.q.qend ∧ t.q.st = s.q.st := by
  have hf := hu.slotFrame hb hx ht
  obtain ⟨hcfg, hq, -⟩ := hu.keeps
  rw [hf.q, hq]
  exact ⟨hf.cfg.trans hcfg, rfl, rfl, rfl⟩

theorem HostEffect.queue {op : HostOp} {s u : State} (he : HostEffect s op u) (hb : s.m.begun = true) :
    (s.q.st ≠ .building → u.q.buf = s.q.buf) ∧
    (∀ a, a < s.q.wr → memRead u.q.buf a = memRead s.q.buf a) ∧
    u.q.qend = s.q.qend ∧ u.cfg = s.cfg := by
  cases he with
  | begun h => simp [hb] at h
  | appended is _ hc =>
    exact ⟨fun hne => absurd (cannotAppend_eq_false.mp hc).2 hne,
      fun a ha => memRead_memWriteBytes_outside _ _ _ (.inl ha), rfl, rfl⟩
  | unchanged | drained | opened | committed => exact ⟨fun _ => rfl, fun _ _ => rfl, rfl, rfl⟩

/-- Settles O59: only an append writes the queue, and it writes from the write cursor on. -/
theorem queueBytesChangeOnlyWhileBuilding : Obligations.QueueBytesChangeOnlyWhileBuilding := by
  intro s t hb ht
  cases step_effect ht with
  | host r _ _ hu => exact hu.queue hb
  | quiet | drained | faulted => exact ⟨fun _ => rfl, fun _ _ => rfl, rfl, rfl⟩
  | stepped _ _ hx hu ht =>
    obtain ⟨hcfg, hbuf, hend, -⟩ := queue_of_stepped hb hx hu ht
    exact ⟨fun _ => hbuf, fun _ _ => by rw [hbuf], hend, hcfg⟩

/-- Settles O42: `beginTransaction()` looks for Idle, `commit()` for Building, and the dispatcher ends only what executes. -/
theorem transactionStateNeverSkipsOrReverses : Obligations.TransactionStateNeverSkipsOrReverses := by
  intro s t hb ht
  cases step_effect ht with
  | host r _ hop hu =>
    cases hu with
    | begun h => simp [hb] at h
    | opened _ hst => exact .inr (.inl ⟨hst, rfl, hop⟩)
    | committed _ hst => exact .inr (.inr (.inl ⟨hst, rfl, hop⟩))
    | unchanged | drained | appended => exact .inl rfl
  | quiet | faulted => exact .inl rfl
  | drained _ _ hx => exact .inr (.inr (.inr ⟨hx, rfl⟩))
  | stepped _ _ hx hu ht => exact .inl (queue_of_stepped hb hx hu ht).2.2.2

/-! ### The accumulator -/

/-- A run of calls that answers while a transaction executes drains the accumulator exactly when a `getData()` is among them
(R131, R134). -/
theorem runNested_acc {ops : List HostOp} {s t : State} (hb : s.m.begun = true) (hx : s.q.st = .executing)
    (h : runNested ops s = .next t) : t.q.acc = if drains ops then 0 else s.q.acc := by
  induction ops generalizing s with
  | nil => exact Host.Outcome.next.inj h ▸ by simp [drains]
  | cons op ops ih =>
    obtain ⟨u, hu, ht⟩ := andThen_eq_next.mp h
    obtain ⟨v, r, hv, rfl⟩ := hostCall_effect hu
    have hv := hv.of_executing hb hx
    rw [ih (by rw [hv]; exact hb) (by rw [hv]; exact hx) ht, hv]
    by_cases hop : op = .getData
    · simp [drains, hop]
    · simp [drains, hop, Ne.symm hop]

/-- What a run of calls from inside `handle()` did: nothing to the inputs, and to the accumulator only a drain. -/
theorem runNested_drained {ops : List HostOp} {s t : State} (hb : s.m.begun = true) (hx : s.q.st = .executing)
    (h : runNested ops s = .next t) :
    t.env = s.env ∧ (t.q.acc = s.q.acc ∨ (t.q.acc = 0 ∧ drains ops = true)) := by
  obtain ⟨-, hblock, -⟩ := runNested_executing hb hx h
  refine ⟨by rw [hblock], ?_⟩
  rw [runNested_acc hb hx h]
  cases drains ops <;> simp

/-- A `getData()` ran in a handler between `s` and `t`, which emitted `o` (log 5). -/
def HandlerDrained (s t : State) (o : List Output) : Prop :=
  (∃ ops, s.env.handlers = ops :: t.env.handlers ∧ drains ops = true) ∨
  (s.env.handlers = [] ∧ (∃ h c, .hostCallback h c ∈ o) ∧
    ∃ n, t.env.free = n + 1 ∧ Config.freeHandlerDrains n = true)

/-- A `getData()` ran in a hook between `s` and `t`. -/
def HookDrained (s t : State) : Prop := ∃ ops, s.env.hooks = ops :: t.env.hooks ∧ drains ops = true

/-- The end of a call drains through a listed hook alone (R163). -/
theorem finishCall_acc {s t : State} (hb : s.m.begun = true) (hx : s.q.st = .executing)
    (h : finishCall s = .next t) :
    t.env.handlers = s.env.handlers ∧ t.env.free = s.env.free ∧
      (t.q.acc = s.q.acc ∨ (t.q.acc = 0 ∧ HookDrained s t)) := by
  unfold finishCall at h
  split at h
  · exact answer_eq_next.mp h ▸ ⟨rfl, rfl, .inl rfl⟩
  · obtain ⟨u, hu, hu'⟩ := andThen_eq_next.mp h
    obtain rfl := answer_eq_next.mp hu'
    unfold runHook at hu
    split at hu
    · next ops rest hhooks =>
      obtain ⟨henv, hacc⟩ := runNested_drained (by exact hb) (by exact hx) hu
      refine ⟨by rw [emit_env, henv], by rw [emit_env, henv], hacc.imp id fun ⟨h0, hd⟩ => ⟨h0, ops, ?_, hd⟩⟩
      rw [emit_env, henv, hhooks]
    · exact Host.Outcome.next.inj hu ▸ ⟨rfl, rfl, .inl rfl⟩

/-- A handler that ran kept the accumulator or drained it, listed or not (R134, log 5). -/
theorem runHandler_acc {s t : State} {o : List Output} {h c : Nat} (hb : s.m.begun = true)
    (hx : s.q.st = .executing) (ho : .hostCallback h c ∈ o) (ht : runHandler s = .next t) :
    t.env.hooks = s.env.hooks ∧ (t.q.acc = s.q.acc ∨ (t.q.acc = 0 ∧ HandlerDrained s t o)) := by
  unfold runHandler at ht
  split at ht
  · next ops rest hhandlers =>
    obtain ⟨henv, hacc⟩ := runNested_drained (by exact hb) (by exact hx) ht
    refine ⟨by rw [henv], hacc.imp id fun ⟨h0, hd⟩ => ⟨h0, .inl ⟨ops, ?_, hd⟩⟩⟩
    rw [henv, hhandlers]
  · next hhandlers =>
    simp only [freeHandler] at ht
    split at ht
    · next hdrains =>
      obtain rfl := answer_eq_next.mp ht
      exact ⟨rfl, .inr ⟨rfl, .inr ⟨hhandlers, ⟨h, c, ho⟩, s.env.free, rfl, hdrains⟩⟩⟩
    · exact Host.Outcome.next.inj ht ▸ ⟨rfl, .inl rfl⟩

/-- What a step of the slot does to the accumulator: a Read folds in the bit it sampled, and a handler may drain. -/
inductive AccEffect (s t : State) (o : List Output) : Prop
  | kept (hacc : t.q.acc = s.q.acc)
  | folded (b : Bool) (hsample : .bus (.sample b) ∈ o) (hfin : .finished .read ∈ o)
      (hacc : t.q.acc = foldBit s.q.acc b)
  | drained (hacc : t.q.acc = 0) (hd : HandlerDrained s t o)

/-- A bus primitive or a search step keeps the accumulator and the script of hooks (R236). -/
theorem BusFrame.acc {s t : State} (h : BusFrame s t) : t.q.acc = s.q.acc ∧ t.env.hooks = s.env.hooks := by
  rw [h.q, h.env]
  exact ⟨rfl, rfl⟩

theorem acc_retired {s : State} {r : State × Bool} (k : Kind)
    (h : r.1.q.acc = s.q.acc ∧ r.1.env.hooks = s.env.hooks) :
    (retired k r).q.acc = s.q.acc ∧ (retired k r).env.hooks = s.env.hooks := by
  rwa [retired_q, retired_env]

/-- Every instruction but Read and Callback keeps the accumulator. -/
theorem exec_acc {i : Instr} {s t : State} (hr : i ≠ .read) (hc : ∀ h c, i ≠ .callback h c)
    (ht : exec i s = .next t) : t.q.acc = s.q.acc ∧ t.env.hooks = s.env.hooks := by
  cases i
  case read => exact absurd rfl hr
  case callback h c => exact absurd rfl (hc h c)
  all_goals obtain rfl := Host.Outcome.next.inj ht
  case reset => exact acc_retired .reset (busFrame_resetStep s).acc
  case w0 | w1 | pw0 | pw1 => exact acc_retired (r := (_, true)) _ (busFrame_writeSlot _ _ s).acc
  case srchf =>
    exact acc_retired (r := (retagSearch (searchStep true s).1, (searchStep true s).2)) .searchNext
      (busFrame_searchStep true s).acc
  case srchn => exact acc_retired .searchNext (busFrame_searchStep false s).acc
  case power | unpower => exact ⟨rfl, rfl⟩
  case wait dur =>
    have h : (waitStep dur s).1.q.acc = s.q.acc ∧ (waitStep dur s).1.env.hooks = s.env.hooks := by
      rcases waitStep_cases dur s with ⟨-, he⟩ | ⟨-, -, he⟩ | ⟨-, -, he⟩ <;> rw [he] <;> exact ⟨rfl, rfl⟩
    exact acc_retired .wait h

theorem execCallback_acc {h c : Nat} {s t : State} (hb : s.m.begun = true) (hx : s.q.st = .executing)
    (ht : execCallback h c s = .next t) :
    t.env.hooks = s.env.hooks ∧ ∃ o, t.out = s.out ++ o ∧ AccEffect s t o := by
  obtain ⟨u, hu, hc⟩ := andThen_eq_next.mp ht
  obtain rfl := Host.Outcome.next.inj hc
  unfold callbackStep at hu
  split at hu
  · obtain ⟨-, rfl⟩ := copy_next hu
    exact ⟨rfl, _, rfl, .kept rfl⟩
  · obtain ⟨-, rs, hrs⟩ := runHandler_answered (by exact hb) (by exact hx) hu
    let o := .hostCallback h c :: rs.map Output.returned ++ [.finished .callback]
    have ho : .hostCallback h c ∈ o := List.mem_cons_self
    obtain ⟨hhooks, hacc⟩ := runHandler_acc (by exact hb) (by exact hx) ho hu
    refine ⟨hhooks, o, by simp [o, hrs], ?_⟩
    rcases hacc with hacc | ⟨hacc, hd⟩
    · exact .kept hacc
    · exact .drained hacc hd

theorem stepSlot_acc {s t : State} (hb : s.m.begun = true) (hx : s.q.st = .executing)
    (ht : stepSlot s = .next t) :
    t.env.hooks = s.env.hooks ∧ ∃ o, t.out = s.out ++ o ∧ AccEffect s t o := by
  obtain ⟨-, ⟨o, ho, -⟩, -⟩ := (slotFrame_stepSlot hb hx ht).out
  cases hi : s.d.instr with
  | nop =>
    rw [stepSlot_of_nop hi] at ht
    obtain rfl := Host.Outcome.next.inj ht
    exact ⟨rfl, o, ho, .kept rfl⟩
  | instr i =>
    rw [stepSlot_of_instr hi] at ht
    cases i
    case callback h c => exact execCallback_acc hb hx ht
    case read =>
      obtain rfl := Host.Outcome.next.inj ((exec_read s).symm.trans ht)
      exact ⟨drawLevel_hooks s.env, _, List.append_assoc .., .folded (drawLevel s.env).1
        (by simp [readOutput]) (by simp) rfl⟩
    all_goals
      obtain ⟨hacc, hhooks⟩ := exec_acc (by simp) (by simp) ht
      exact ⟨hhooks, o, ho, .kept hacc⟩

/-- A step of the slot folds or drains, and after it only the hook can drain. -/
theorem stepInFlight_acc {s t : State} (hb : s.m.begun = true) (hx : s.q.st = .executing)
    (ht : stepInFlight s = .next t) :
    ∃ o, t.out = s.out ++ o ∧ (AccEffect s t o ∨ (t.q.acc = 0 ∧ HookDrained s t)) := by
  obtain ⟨u, hu, hfin⟩ := andThen_eq_next.mp ht
  have hf := slotFrame_stepSlot hb hx hu
  have hbu : u.m.begun = true := by rw [hf.m, hb]
  obtain ⟨-, rs, hrs⟩ := finishCall_answered hbu (hf.st.trans hx) hfin
  obtain ⟨hhandlers, hfree, hacc⟩ := finishCall_acc hbu (hf.st.trans hx) hfin
  obtain ⟨hhooks, o, ho, heff⟩ := stepSlot_acc hb hx hu
  refine ⟨o ++ rs.map Output.returned, by rw [hrs, ho, List.append_assoc], ?_⟩
  rcases hacc with hacc | ⟨h0, ops, hops, hd⟩
  · left
    cases heff with
    | kept h => exact .kept (hacc.trans h)
    | folded b hsample hfin h =>
      exact .folded b (List.mem_append_left _ hsample) (List.mem_append_left _ hfin) (hacc.trans h)
    | drained h hd =>
      refine .drained (hacc.trans h) ?_
      rw [HandlerDrained, hhandlers, hfree]
      exact hd.imp_right fun ⟨h0, ⟨i, c, hc⟩, hn⟩ => ⟨h0, ⟨i, c, List.mem_append_left _ hc⟩, hn⟩
  · exact .inr ⟨h0, ops, hhooks ▸ hops, hd⟩

theorem Loaded.env {s u : State} (hu : Loaded s u) : u.env = s.env := by cases hu <;> rfl

/-- Settles O60: the accumulator changes in a host call of `getData()`, or as a step of the slot changes it. -/
theorem accumulatorHasTwoWriters : Obligations.AccumulatorHasTwoWriters := by
  intro s t hb ht
  cases step_effect ht with
  | host r _ hop hu =>
    cases hu with
    | begun h => simp [hb] at h
    | drained => exact ⟨_, rfl, .inr (.inr ⟨rfl, .inl hop⟩)⟩
    | unchanged | opened | committed | appended => exact ⟨_, rfl, .inl rfl⟩
  | quiet | faulted | drained => exact ⟨_, rfl, .inl rfl⟩
  | @stepped e u _ he _ hx hu ht =>
    obtain ⟨hhandlers, hhooks⟩ : SameScripts s.env u.env := hu.env ▸ he
    obtain ⟨-, hq, hm, hout⟩ := hu.keeps
    have hacc : u.q.acc = s.q.acc := by rw [hq]
    obtain ⟨o, ho, heff⟩ := stepInFlight_acc (by rw [hm]; exact hb) (by rw [hq]; exact hx) ht
    refine ⟨o, by rw [ho, hout], ?_⟩
    rcases heff with heff | ⟨h0, ops, hops, hd⟩
    · cases heff with
      | kept h => exact .inl (h.trans hacc)
      | folded b hsample hfin h => exact .inr (.inl ⟨b, hsample, hfin, hacc ▸ h⟩)
      | drained h0 hd =>
        rw [HandlerDrained, hhandlers] at hd
        exact .inr (.inr ⟨h0, .inr (hd.imp id .inr)⟩)
    · exact .inr (.inr ⟨h0, .inr (.inr (.inl ⟨ops, hhooks ▸ hops, hd⟩))⟩)

end Sys2Proof.Machine
end

section
/-! PROOFS. The bus primitives run as instructions (42_bus_primitives.md R172 to R189), and the statements O9, O11, O13 to O17. -/

namespace Sys2Proof.Machine

/-! ### Power writes and the read slot -/

/-- Settles O9: each power write is its slot with the strong pull-up, retired in the call that runs it. -/
theorem powerWritesEndDrivenHigh : Obligations.PowerWritesEndDrivenHigh :=
  fun s => ⟨retireIf_writeSlot .powerWrite0 false true s, retireIf_writeSlot .powerWrite1 true true s⟩

/-- Settles O13: a Read emits its read slot and the completion event. -/
theorem readSlotWaveform : Obligations.ReadSlotWaveform :=
  fun s => ⟨_, exec_read s, List.append_assoc s.out (readOutput s.cfg _) [_]⟩

/-! ### Reads in a row (R189) -/

/-- `n` bits folded into the accumulator, one after the other. -/
def foldBits (acc : Byte) (bits : List Bool) : Byte := bits.foldl foldBit acc

/-- Each fold moves the bits down by one and puts the new one at the top (R180). -/
theorem getLsbD_foldBit (acc : Byte) (b : Bool) {i : Nat} (hi : i < 8) :
    (foldBit acc b).getLsbD i = if i = 7 then b else acc.getLsbD (i + 1) := by
  have htop : ∀ i < 8, (if b then 0x80 else 0x00 : Byte).getLsbD i = (decide (i = 7) && b) := by
    cases b <;> decide
  rw [foldBit, BitVec.getLsbD_or, BitVec.getLsbD_ushiftRight, htop i hi]
  by_cases h7 : i = 7
  · simp [h7]
  · simp [h7, Nat.add_comm]

/-- After the folds the bits at the top of the accumulator are the bits folded in, the last one topmost. -/
theorem getElem?_eq_getLsbD_foldBits (bits : List Bool) (acc : Byte) {i : Nat} (hi : i < 8)
    (h : 8 ≤ i + bits.length) :
    bits[i + bits.length - 8]? = some ((foldBits acc bits).getLsbD i) := by
  induction bits using List.reverseRecOn generalizing i with
  | nil => simp at h; omega
  | append_singleton bits b ih =>
    simp only [List.length_append, List.length_singleton] at h ⊢
    rw [show foldBits acc (bits ++ [b]) = foldBit (foldBits acc bits) b by simp [foldBits], getLsbD_foldBit _ _ hi]
    by_cases h7 : i = 7
    · rw [if_pos h7, List.getElem?_append_right (by omega), show i + (bits.length + 1) - 8 - bits.length = 0 by omega]
      rfl
    · rw [if_neg h7, List.getElem?_append_left (by omega), ← ih (by omega) (by omega),
        show i + (bits.length + 1) - 8 = i + 1 + bits.length - 8 by omega]

/-- Reads in a row consume the listed answers and fold them in (R180). -/
theorem execTimes_read {s : State} {bits rest : List Bool} (h : s.env.bus = .script (bits ++ rest)) :
    ∃ t, execTimes .read bits.length s = .next t ∧ t.env.bus = .script rest ∧
      t.q.acc = foldBits s.q.acc bits := by
  induction bits generalizing s with
  | nil => exact ⟨s, rfl, h, rfl⟩
  | cons b bits ih =>
    have hdraw : drawLevel s.env = (b, { s.env with bus := .script (bits ++ rest) }) := by
      simp [drawLevel, h]
    have hread := exec_read s
    rw [hdraw] at hread
    obtain ⟨t, ht, hbus, hacc⟩ := ih (s := { s with
      q.acc := foldBit s.q.acc b
      pin := .released, d.busy := false, env := { s.env with bus := .script (bits ++ rest) }
      out := s.out ++ readOutput s.cfg b ++ [.finished .read] }) rfl
    exact ⟨t, by rw [List.length_cons, execTimes, hread]; exact ht, hbus, hacc⟩

/-- Settles O14: eight folds leave nothing of the old accumulator. -/
theorem eightReadsAssembleAByte : Obligations.EightReadsAssembleAByte := by
  intro s bits rest hlen hbus
  obtain ⟨t, ht, hrest, hacc⟩ := execTimes_read hbus
  refine ⟨t, hlen ▸ ht, hrest, fun i hi => ?_⟩
  have hbit := getElem?_eq_getLsbD_foldBits bits s.q.acc (i := i) (by omega) (by omega)
  rw [hlen, Nat.add_sub_cancel, List.getElem?_eq_getElem hi] at hbit
  rw [hacc]
  exact (Option.some.inj hbit).symm

/-! ### Reset (R172, R173) -/

theorem exec_reset (s : State) : exec .reset s = .next (retired .reset (resetStep s)) := rfl

section
variable {s : State}

theorem resetStep_of_phase1 (h : s.p.rstPhase = .phase1) :
    resetStep s = if s.cfg.tRstLow ≤ elapsed s.cfg (now s) s.p.rstT0 then (resetRelease s, false) else (s, false) := by
  rw [resetStep, h]

theorem resetStep_of_phase2 (h : s.p.rstPhase = .phase2) :
    resetStep s = if s.cfg.tRstRec ≤ elapsed s.cfg (now s) s.p.rstT1 then ({ s with p.rstPhase := .phase0 }, true)
      else (s, false) := by
  rw [resetStep, h]

end

/-- Settles O15: phase by phase, and on each side of the phase's duration. -/
theorem resetRunsItsThreePhases : Obligations.ResetRunsItsThreePhases := by
  intro s
  rw [exec_reset]
  refine ⟨fun h => ?_, fun h hlt => ?_, fun h hle => ?_, fun h hlt => ?_, fun h hle => ?_⟩
  · rw [resetStep, h]; rfl
  · rw [resetStep_of_phase1 h, if_neg (Nat.not_le.mpr hlt)]; rfl
  · rw [resetStep_of_phase1 h, if_pos hle, resetRelease_eq]; rfl
  · rw [resetStep_of_phase2 h, if_neg (Nat.not_le.mpr hlt)]; rfl
  · rw [resetStep_of_phase2 h, if_pos hle]; rfl

/-! ### Wait (R183) -/

theorem exec_wait (dur : Nat) (s : State) : exec (.wait dur) s = .next (retired .wait (waitStep dur s)) := rfl

section
variable {s : State} {dur : Nat}

theorem waitStep_of_started (h : s.p.waitStarted = true) :
    waitStep dur s = if dur ≤ elapsed s.cfg (now s) s.p.waitT0 then ({ s with p.waitStarted := false }, true)
      else (s, false) := by
  rw [waitStep, if_pos h]

/-- A started Wait whose duration has not elapsed does nothing. -/
theorem exec_wait_of_lt (h : s.p.waitStarted = true) (hlt : elapsed s.cfg (now s) s.p.waitT0 < dur) :
    exec (.wait dur) s = .next s := by
  rw [exec_wait, waitStep_of_started h, if_neg (Nat.not_le.mpr hlt)]
  rfl

end

/-- Settles O17: elapsed time stays below the clock's range, so a Wait as long as that never ends. -/
theorem waitRecordsThenTests : Obligations.WaitRecordsThenTests := by
  refine fun s dur => ⟨fun h => ?_, exec_wait_of_lt, fun h hle => ?_, fun h hlong time => ?_⟩
  · rw [exec_wait, waitStep, if_neg (by simp [h])]; rfl
  · rw [exec_wait, waitStep_of_started h, if_pos hle]; rfl
  · exact exec_wait_of_lt (s := { s with env.time := time }) h (Nat.lt_of_lt_of_le (elapsed_lt ..) hlong)

/-! ### True time (R295, R302) -/

/-- The clock never shows more time than has passed: a wrap loses time (R171). -/
theorem elapsed_le_true_time {s : State} {start t0 : Nat} (h : start ≤ s.env.time)
    (ht0 : t0 = start % 2 ^ s.cfg.clockBits) : elapsed s.cfg (now s) t0 ≤ s.env.time - start := by
  rw [ht0, now, elapsed_eq s.cfg h]
  exact Nat.mod_le _ _

/-- Settles O16: a phase or a Wait ends only when the clock shows its duration. -/
theorem durationsAreNeverCutShort : Obligations.DurationsAreNeverCutShort := by
  refine fun s t start hstart => ⟨fun h ht0 ht hend => ?_, fun h ht1 ht hend => ?_, fun dur h ht0 ht hend => ?_⟩
  · have hle := elapsed_le_true_time hstart ht0
    obtain rfl := Host.Outcome.next.inj ((exec_reset s).symm.trans ht)
    rw [retired_p, resetStep_of_phase1 h] at hend
    split at hend
    · omega
    · simp [h] at hend
  · have hle := elapsed_le_true_time hstart ht1
    obtain rfl := Host.Outcome.next.inj ((exec_reset s).symm.trans ht)
    rw [retired_p, resetStep_of_phase2 h] at hend
    split at hend
    · omega
    · simp [h] at hend
  · have hle := elapsed_le_true_time hstart ht0
    obtain rfl := Host.Outcome.next.inj ((exec_wait dur s).symm.trans ht)
    rw [retired_p, waitStep_of_started h] at hend
    split at hend
    · omega
    · simp [h] at hend

/-! ### The line after completion (R187) -/

/-- A reset that is done leaves the line released, as phase 2 holds it (R172). -/
theorem resetStep_done_pin {s : State} (h : s.p.rstPhase = .phase2 → s.pin = .released)
    (hdone : (resetStep s).2 = true) : (resetStep s).1.pin = .released := by
  rcases resetStep_cases s with ⟨-, he⟩ | ⟨-, -, he⟩ | ⟨-, -, he⟩ | ⟨-, -, he⟩ | ⟨hphase, -, he⟩ <;>
    rw [he] at hdone ⊢
  case inr.inr.inr.inr => exact h hphase
  all_goals cases hdone

theorem searchReset_done_pin {s : State} (h : s.p.rstPhase = .phase2 → s.pin = .released)
    (hdone : (searchReset s).2 = true) : (searchReset s).1.pin = .released := by
  rcases searchReset_cases s with ⟨-, he⟩ | ⟨-, -, he⟩ | ⟨hr, -, he⟩ <;> rw [he] at hdone ⊢
  · cases hdone
  · cases hdone
  · exact resetStep_done_pin h hr

/-- Where no reset is under way, the first step of a search is its last only if the scan is exhausted. -/
theorem searchBegin_done_pin {start : Bool} {s : State} (h : s.p.rstPhase = .phase0)
    (hdone : (searchBegin start s).2 = true) : (searchBegin start s).1.pin = s.pin := by
  rcases searchBegin_cases start s with ⟨-, he⟩ | ⟨-, -, he⟩ | ⟨-, -, he⟩ <;> rw [he] at hdone ⊢
  · rw [searchReset_of_phase0 (s := searchInit (searchClear s)) h] at hdone
    cases hdone
  · rw [searchReset_of_phase0 (s := searchInit s) h] at hdone
    cases hdone

/-- The line when a search completes. -/
theorem searchStep_done_pin {start : Bool} {s : State} (hr : s.p.rstPhase = .phase2 → s.pin = .released)
    (h0 : s.srch.phase = .sIdle → s.p.rstPhase = .phase0) (hdone : (searchStep start s).2 = true) :
    (searchStep start s).1.pin = if s.srch.phase = .sIdle then s.pin else .released := by
  unfold searchStep at hdone ⊢
  split at hdone <;> rename_i hphase <;> simp only [hphase, reduceCtorEq, if_true, if_false]
  · exact searchBegin_done_pin (h0 hphase) hdone
  · exact searchReset_done_pin hr hdone
  · rw [searchCmd_eq]
  · rw [searchReadId_eq]
  · rw [searchReadCmp_eq]
    dsimp only
    split
    · rfl
    · split <;> rfl
  · rw [searchWriteDir_eq]
    dsimp only
    split
    · rfl
    · rcases searchComplete_cases _ with ⟨-, he⟩ | ⟨-, he⟩ <;> rw [he]

/-- An instruction in flight that its step retires was done. -/
theorem done_of_retired {k : Kind} {r : State × Bool} (hbusy : r.1.d.busy = true)
    (h : (retired k r).d.busy = false) : r.2 = true := by simpa [hbusy] using h

/-- Settles O11: the write slots, Read, Power and Unpower say where they leave the line; a reset and a pass end released. -/
theorem lineAfterCompletion : Obligations.LineAfterCompletion := by
  intro i s t h hr hb hbusy hi ht hdone
  have hx := h.busy_executing hbusy
  have h0 : s.d.instr.isSearch → s.srch.phase = .sIdle → s.p.rstPhase = .phase0 := fun hs hp =>
    Classical.byContradiction fun hc => by simpa [hp] using (h.searchSound hs).reset hc
  have hsearch : ∀ start, (searchStep start s).1.d.busy = true := fun start => by
    rw [(busFrame_searchStep start s).d, hbusy]
  cases i
  case callback =>
    obtain ⟨u, hu, hc⟩ := andThen_eq_next.mp ht
    obtain rfl := Host.Outcome.next.inj hc
    rcases callbackStep_next hb hx hu with ⟨-, rfl⟩ | ha
    · rfl
    · dsimp only
      rw [complete_pin, ha.block]
      rfl
  all_goals obtain rfl := Host.Outcome.next.inj ht
  case reset =>
    have hd : (resetStep s).2 = true := done_of_retired (by rw [(busFrame_resetStep s).d, hbusy]) hdone
    exact (retired_pin .reset _).trans (resetStep_done_pin hr.pin_phase2 hd)
  case wait dur =>
    refine (retired_pin .wait _).trans ?_
    rcases waitStep_cases dur s with ⟨-, he⟩ | ⟨-, -, he⟩ | ⟨-, -, he⟩ <;> rw [he]
  case srchf =>
    have hd := done_of_retired (r := (retagSearch (searchStep true s).1, (searchStep true s).2)) (hsearch true) hdone
    exact (retired_pin .searchNext _).trans (searchStep_done_pin hr.pin_phase2 (h0 (.inl hi)) hd)
  case srchn =>
    exact (retired_pin .searchNext _).trans
      (searchStep_done_pin hr.pin_phase2 (h0 (.inr hi)) (done_of_retired (hsearch false) hdone))
  case w0 | w1 | pw0 | pw1 => simp [writeSlot_eq]
  case read => simp [readSlot_eq]
  case power | unpower => rfl

end Sys2Proof.Machine
end

section
/-! PROOFS. What a Callback answers (42_bus_primitives.md R184, R185; 40_builder.md R134), and the statements O18 to O21. -/

namespace Sys2Proof.Machine

theorem exec_callback (h c : Nat) (s : State) :
    exec (.callback h c) s = andThen (callbackStep h c s) (fun t => .next (complete .callback t)) := rfl

/-! ### COPY (R185) -/

theorem callbackStep_zero (c : Nat) (s : State) : callbackStep 0 c s = copy c s := if_pos rfl

/-- Settles O18: the three tests of COPY, and a write of one byte. -/
theorem copyStoresTheAccumulator : Obligations.CopyStoresTheAccumulator := by
  intro s c
  rw [exec_callback, callbackStep_zero, copy]
  refine ⟨fun hlt hprov => ⟨?_, memRead_memWrite_same _ _ _, fun a ha => memRead_memWrite_other _ _ ha⟩,
    fun hlt hprov => ?_, fun hle => ?_⟩
  · rw [if_neg (Nat.not_le.mpr hlt), if_neg (by simpa using hprov)]; rfl
  · rw [if_neg (Nat.not_le.mpr hlt), if_pos (by simpa using hprov)]; rfl
  · rw [if_pos hle]; rfl

/-! ### The host's handler (R184) -/

theorem callbackStep_of_ne {h c : Nat} {s : State} (hh : h ≠ 0) :
    callbackStep h c s = runHandler (emit (.hostCallback h c) s) := if_neg hh

theorem runHandler_of_listed {s : State} {ops : List HostOp} {rest : List (List HostOp)}
    (h : s.env.handlers = ops :: rest) : runHandler s = runNested ops { s with env.handlers := rest } := by
  rw [runHandler, h]

/-- Settles O19: the event, the calls of the handler, and the completion. -/
theorem callbackRunsTheHostsHandler : Obligations.CallbackRunsTheHostsHandler := by
  intro s h c ops rest hh hb hx hhandlers hok
  obtain ⟨rs, hlen, hrs⟩ := runNested_allowed_eq
    (s := { emit (.hostCallback h c) s with env.handlers := rest }) hb hx hok
  refine ⟨_, rs, ?_, hlen, rfl⟩
  rw [exec_callback, callbackStep_of_ne hh, runHandler_of_listed (s := emit (.hostCallback h c) s) hhandlers, hrs]
  rfl

/-- Settles O20: an unlisted handler does nothing, or makes one `getData()`. -/
theorem callbackWithUnlistedHandlerCompletes : Obligations.CallbackWithUnlistedHandlerCompletes := by
  intro s h c hh hhandlers
  have hrun : runHandler (emit (.hostCallback h c) s) = freeHandler (emit (.hostCallback h c) s) := by
    rw [runHandler, emit_env, hhandlers]
  rw [exec_callback, callbackStep_of_ne hh, hrun, freeHandler]
  dsimp only
  split
  · exact ⟨_, [.returned (.byte s.q.acc)], rfl, .inr rfl, rfl⟩
  · exact ⟨_, [], rfl, .inl rfl, by simp [complete, emit]⟩

/-! ### A re-entrant `handle()` (R134, R296) -/

theorem runNested_append (ops ops' : List HostOp) (s : State) :
    runNested (ops ++ ops') s = andThen (runNested ops s) (runNested ops') := by
  induction ops generalizing s with
  | nil => rfl
  | cons op ops ih =>
    rw [List.cons_append, runNested, runNested, andThen_assoc]
    exact congrArg (andThen (hostCall op s)) (funext ih)

/-- After allowed calls a `handle()` from inside `handle()` is refused. -/
theorem runNested_reentrant {pre post : List HostOp} {time : Nat} {s : State} (hb : s.m.begun = true)
    (hx : s.q.st = .executing) (hok : ∀ op ∈ pre, allowedNested s.cfg op = true) :
    runNested (pre ++ .handle time :: post) s = .refused .reentrantHandle := by
  obtain ⟨rs, -, hrs⟩ := runNested_allowed_eq hb hx hok
  rw [runNested_append, hrs, andThen_next, runNested, hostCall_of_begun _ (by exact hb)]
  rfl

/-- Settles O21: the handler and the hook run their calls in the same way. -/
theorem reentrantHandleIsRefused : Obligations.ReentrantHandleIsRefused := by
  refine fun s pre post time rest hb hx hok => ⟨fun h c hh hhandlers => ?_, fun hbusy hhooks => ?_⟩
  · rw [exec_callback, callbackStep_of_ne hh, runHandler_of_listed (s := emit (.hostCallback h c) s) hhandlers,
      runNested_reentrant (by exact hb) (by exact hx) (by exact hok)]
    rfl
  · have hhook : runHook s = runNested (pre ++ .handle time :: post) { s with env.hooks := rest } := by
      rw [runHook, hhooks]
    rw [finishCall, hbusy, hhook, runNested_reentrant (by exact hb) (by exact hx) (by exact hok)]
    rfl

end Sys2Proof.Machine
end

section
/-! PROOFS. The search engine, phase by phase (43_search.md R225 to R232), and the statements O24 to O29 and O31. -/

namespace Sys2Proof.Machine

/-! ### The command and the first read -/

/-- Settles O24: a command step is a plain write slot and a move of the command cursor. -/
theorem searchSendsItsCommand : Obligations.SearchSendsItsCommand := by
  rintro s b hphase rfl
  have hstep : searchStep false s = searchCmd s := by rw [searchStep, hphase]
  rw [exec_srchn, hstep, searchCmd_eq, hphase]
  rfl

/-- Settles O25: the first read is a read slot whose bit the search keeps. -/
theorem searchReadsTheIdBit : Obligations.SearchReadsTheIdBit := by
  intro s hphase
  have hstep : searchStep false s = searchReadId s := by rw [searchStep, hphase]
  rw [exec_srchn, hstep, searchReadId_eq]
  rfl

/-! ### The pair -/

theorem exec_srchn_of_readCmp {s : State} (h : s.srch.phase = .sReadCmp) :
    exec .srchn s = .next (retired .searchNext (searchReadCmp s)) := by
  rw [exec_srchn, searchStep, h]

/-- The only bit of a mask. -/
theorem and_mask_ne_zero : ∀ k < 8, ∀ b : Byte, (b &&& (1 <<< k : Byte) != 0) = b.getLsbD k := by decide

/-- The bit under the cursors is the bit at the current position (R54 (h), R66). -/
theorem cursorBit_eq_romBit {x : Search} (h : CursorMask x) :
    cursorBit x.rom x.byteIdx x.mask = romBit x.rom x.bitPos := by
  obtain ⟨k, hk, hm, hpos⟩ := h
  rw [cursorBit, hm, and_mask_ne_zero k hk, romBit, hpos, show (8 * x.byteIdx + k + 1 - 1) / 8 = x.byteIdx by omega,
    show (8 * x.byteIdx + k + 1 - 1) % 8 = k by omega]

/-- Settles O26: the three kinds of pair are the three branches of the step; the mask selects the bit at the position. -/
theorem searchClassifiesThePair : Obligations.SearchClassifiesThePair := by
  rintro s b hphase rfl
  rw [exec_srchn_of_readCmp hphase, searchReadCmp_eq]
  refine ⟨fun hid hb => ?_, fun hne => ?_, fun hid hb h hr d hd => ?_⟩
  · rw [hid, hb]; rfl
  · cases hid : s.srch.idBit <;> cases hb : (drawLevel s.env).1 <;> simp [hid, hb] at hne <;> rfl
  · have hdir : chooseDir s.srch = d := by
      rw [hd, chooseDir, cursorBit_eq_romBit h.cursor_mask]
      rfl
    rw [hid, hb, choose_eq, hdir]
    rfl

/-! ### The direction write -/

theorem exec_srchn_of_writeDir {s : State} (h : s.srch.phase = .sWriteDir) :
    exec .srchn s = .next (retired .searchNext (searchWriteDir s)) := by
  rw [exec_srchn, searchStep, h]

/-- The ROM code with the direction stored at the current position (R230). -/
def romWritten (x : Search) : Rom := setCursorBit x.rom x.byteIdx x.mask x.dir

/-- The direction is stored at the current position and nowhere else (R66, R230). -/
theorem romBit_romWritten {x : Search} (h : CursorMask x) {n : Nat} (h1 : 1 ≤ n) (h2 : n ≤ 64) :
    romBit (romWritten x) n = if n = x.bitPos then x.dir else romBit x.rom n := by
  obtain ⟨k, hk, hm, hpos⟩ := h
  rw [romWritten, romBit_setCursorBit _ _ hk hm h1 h2, hpos]

/-- The cursors after a direction write are those of the next position (R54 (h), R230). -/
theorem nextCursor_eq_of_mask {x : Search} (h : CursorMask x) :
    nextCursor x =
      { x with bitPos := x.bitPos + 1, byteIdx := x.bitPos / 8, mask := 1 <<< (x.bitPos % 8) } := by
  obtain ⟨k, hk, hm, hpos⟩ := h
  rw [nextCursor_eq hk hm]
  by_cases h7 : k = 7
  · rw [if_pos h7, if_pos h7, show x.bitPos / 8 = x.byteIdx + 1 by omega, show x.bitPos % 8 = 0 by omega]
    rfl
  · rw [if_neg h7, if_neg h7, show x.bitPos / 8 = x.byteIdx by omega, show x.bitPos % 8 = k + 1 by omega]

/-- Everything a direction write has done before the pass goes on or ends (R230). -/
theorem dirWritten_eq {s : State} (h : CursorMask s.srch) :
    dirWritten s = { s with
      pin := .released
      env := busWritten s.cfg s.srch.dir s.env
      out := s.out ++ slotOutput s.cfg s.srch.dir false
      srch := { s.srch with
        rom := romWritten s.srch, bitPos := s.srch.bitPos + 1
        byteIdx := s.srch.bitPos / 8, mask := 1 <<< (s.srch.bitPos % 8) } } := by
  have hnext := nextCursor_eq_of_mask (x := { s.srch with rom := romWritten s.srch }) h
  exact congrArg (fun x => { dirWritten s with srch := x }) hnext

/-- Settles O27: before position 64 the next byte index is below 8, so the pass goes on. -/
theorem directionWriteStoresOneBit : Obligations.DirectionWriteStoresOneBit := by
  intro s h hphase hlt
  have hpos : 1 ≤ s.srch.bitPos := by
    obtain ⟨k, -, -, hpos⟩ := h.cursor_mask
    omega
  refine ⟨romWritten s.srch, ?_, fun n h1 h2 hn => ?_, ?_⟩
  · rw [romBit_romWritten h.cursor_mask hpos (by omega), if_pos rfl]
  · rw [romBit_romWritten h.cursor_mask h1 h2, if_neg hn]
  · rw [exec_srchn_of_writeDir hphase, searchWriteDir_eq_dirWritten, dirWritten_eq h.cursor_mask,
      if_pos (by dsimp only; omega)]
    rfl

/-- The family byte is bits 1 to 8 (R12, R66). -/
theorem romByte_zero_romWritten {x : Search} (h : CursorMask x) (hpos : 8 < x.bitPos) :
    romByte (romWritten x) 0 = romByte x.rom 0 := by
  refine BitVec.eq_of_getLsbD_eq fun j hj => ?_
  have hbit := romBit_romWritten h (n := j + 1) (by omega) (by omega)
  rwa [if_neg (by omega), romBit, romBit, Nat.add_sub_cancel, Nat.div_eq_of_lt hj, Nat.mod_eq_of_lt hj] at hbit

/-- Settles O28: after bit 64 the byte index is 8 and the pass is complete; its family byte was written long before. -/
theorem passEndsAfterBitSixtyFour : Obligations.PassEndsAfterBitSixtyFour := by
  intro s h hphase hpos
  have hge : ¬(dirWritten s).srch.byteIdx < 8 := by
    rw [dirWritten_eq h.cursor_mask, hpos]
    exact Nat.lt_irrefl 8
  have hfamily : romByte (dirWritten s).srch.rom 0 = romByte s.srch.rom 0 := by
    rw [dirWritten_eq h.cursor_mask]
    exact romByte_zero_romWritten h.cursor_mask (by omega)
  refine ⟨romWritten s.srch, ?_, fun n h1 h2 => ?_, ?_⟩
  · rw [romBit_romWritten h.cursor_mask (by decide) le_rfl, if_pos hpos.symm]
  · rw [romBit_romWritten h.cursor_mask h1 (by omega), if_neg (by omega)]
  · rw [exec_srchn_of_writeDir hphase, searchWriteDir_eq_dirWritten, if_neg hge]
    rcases searchComplete_cases (dirWritten s) with ⟨h0, he⟩ | ⟨h0, he⟩ <;>
      rw [hfamily] at h0 <;> rw [he, dirWritten_eq h.cursor_mask, hpos]
    · rw [if_pos h0, if_pos h0]
      rfl
    · rw [if_neg h0, if_neg h0]
      rfl

/-! ### Aborts -/

/-- A reset step publishes nothing. -/
theorem resetStep_resAddr (s : State) : (resetStep s).1.q.resAddr = s.q.resAddr := by
  rcases resetStep_cases s with ⟨-, h⟩ | ⟨-, -, h⟩ | ⟨-, -, h⟩ | ⟨-, -, h⟩ | ⟨-, -, h⟩ <;> rw [h]
  · rfl
  · rw [resetRelease_eq]

/-- Settles O29: of the ways out of the two phases only the aborts lead to SIdle, and they touch the phase and the status. -/
theorem abortsKeepTheDiscrepancyState : Obligations.AbortsKeepTheDiscrepancyState := by
  rintro s t (hphase | hphase) ht hidle
  · obtain rfl := Host.Outcome.next.inj ((exec_srchn s).symm.trans ht)
    rw [retired_srch, searchStep, hphase] at hidle
    rw [retired_srch, retired_q, searchStep, hphase]
    dsimp only at hidle ⊢
    have hsrch := resetStep_srch s
    rcases searchReset_cases s with ⟨-, h⟩ | ⟨-, -, h⟩ | ⟨-, -, h⟩ <;> rw [h] at hidle ⊢
    · simp [hsrch, hphase] at hidle
    · cases hidle
    · exact ⟨by rw [searchEnd_srch, hsrch], resetStep_resAddr s, .inl rfl⟩
  · obtain rfl := Host.Outcome.next.inj ((exec_srchn_of_readCmp hphase).symm.trans ht)
    rw [retired_srch, searchReadCmp_eq] at hidle
    rw [retired_srch, retired_q, searchReadCmp_eq]
    dsimp only at hidle ⊢
    split at hidle
    · next hpair =>
      rw [if_pos hpair]
      exact ⟨rfl, rfl, .inr rfl⟩
    · split at hidle <;> cases hidle

/-! ### The pair on the device bus -/

section
variable {e : Env} {b : DeviceBus} {n : Nat} (hbus : e.bus = .devices b)
include hbus

/-- At the first read each active device leaves its bit (R234). -/
theorem drawLevel_devices_idBit (hphase : b.phase = .search n .idBit) :
    drawLevel e = (b.active.all fun d => romBit d.rom n,
      { e with bus := .devices { b with phase := .search n .cmpBit } }) := by
  simp [drawLevel, hbus, devicesSample, hphase]

/-- At the second it leaves the complement (R234). -/
theorem drawLevel_devices_cmpBit (hphase : b.phase = .search n .cmpBit) :
    drawLevel e = (b.active.all fun d => !romBit d.rom n,
      { e with bus := .devices { b with phase := .search n .dirBit } }) := by
  simp [drawLevel, hbus, devicesSample, hphase]

end

section
variable {ds : List Device} {n : Nat}

/-- Devices that agree on a bit leave it and its complement on the line (R13). -/
theorem reads_of_agreeing {x : Bool} (hne : ds ≠ []) (h : ∀ d ∈ ds, romBit d.rom n = x) :
    (ds.all fun d => romBit d.rom n) = x ∧ (ds.all fun d => !romBit d.rom n) = !x := by
  obtain ⟨d, hd⟩ := List.exists_mem_of_ne_nil ds hne
  cases x
  · exact ⟨List.all_eq_false.mpr ⟨d, hd, by simp [h d hd]⟩, List.all_eq_true.mpr fun d hd => by simp [h d hd]⟩
  · exact ⟨List.all_eq_true.mpr fun d hd => h d hd, List.all_eq_false.mpr ⟨d, hd, by simp [h d hd]⟩⟩

/-- Devices that differ on a bit pull both reads low (R13). -/
theorem reads_of_differing (h0 : ∃ d ∈ ds, romBit d.rom n = false) (h1 : ∃ d ∈ ds, romBit d.rom n = true) :
    (ds.all fun d => romBit d.rom n) = false ∧ (ds.all fun d => !romBit d.rom n) = false := by
  obtain ⟨d, hd, hd0⟩ := h0
  obtain ⟨e, he, he1⟩ := h1
  exact ⟨List.all_eq_false.mpr ⟨d, hd, by simp [hd0]⟩, List.all_eq_false.mpr ⟨e, he, by simp [he1]⟩⟩

end

/-- The state after the first read, with the bit read and the inputs after it (R226). -/
def idBitRead (id : Bool) (e : Env) (s : State) : State :=
  { s with
    pin := .released, env := e, out := s.out ++ readOutput s.cfg id
    srch.idBit := id, srch.phase := .sReadCmp }

/-- The two read steps on the device bus: two draws, and what the second step makes of the pair (R226, R227). -/
theorem execTimes_pair {s : State} {b : DeviceBus} {n : Nat} (hphase : s.srch.phase = .sReadId)
    (hbus : s.env.bus = .devices b) (hslot : b.phase = .search n .idBit) :
    ∃ e : Env, e.bus = .devices { b with phase := .search n .cmpBit } ∧
      execTimes .srchn 2 s = .next (retired .searchNext
        (searchReadCmp (idBitRead (b.active.all fun d => romBit d.rom n) e s))) := by
  have hread := searchReadsTheIdBit s hphase
  rw [drawLevel_devices_idBit hbus hslot] at hread
  refine ⟨{ s.env with bus := .devices { b with phase := .search n .cmpBit } }, rfl, ?_⟩
  rw [execTimes, hread, andThen_next, execTimes, exec_srchn_of_readCmp rfl]
  rfl

section
variable {s : State}

/-- A (1,1) pair ends the pass (R227). -/
theorem searchReadCmp_of_ones (hid : s.srch.idBit = true) (hcmp : (drawLevel s.env).1 = true) :
    (searchReadCmp s).1.q.resStatus = .notFound ∧ (searchReadCmp s).1.srch.phase = .sIdle := by
  rw [searchReadCmp_eq, hid, hcmp]
  exact ⟨rfl, rfl⟩

/-- An unequal pair gives the direction (R227). -/
theorem searchReadCmp_of_unequal {x : Bool} (hid : s.srch.idBit = x) (hcmp : (drawLevel s.env).1 = !x) :
    (searchReadCmp s).1.srch = { s.srch with dir := x, phase := .sWriteDir } := by
  rw [searchReadCmp_eq, hid, hcmp]
  cases x <;> rfl

/-- A (0,0) pair is a discrepancy (R227, R228). -/
theorem searchReadCmp_of_zeros (hid : s.srch.idBit = false) (hcmp : (drawLevel s.env).1 = false) :
    (searchReadCmp s).1.srch = { choose s.srch with phase := .sWriteDir } := by
  rw [searchReadCmp_eq, hid, hcmp]
  rfl

end

/-- Settles O31: devices that agree give an unequal pair, devices that differ give (0,0), and no device gives (1,1). -/
theorem busPairTellsWhetherDevicesAgree : Obligations.BusPairTellsWhetherDevicesAgree := by
  intro s b n hphase hbus hslot
  obtain ⟨e, he, hexec⟩ := execTimes_pair hphase hbus hslot
  have hdraw : (drawLevel e).1 = b.active.all fun d => !romBit d.rom n := by
    rw [drawLevel_devices_cmpBit he rfl]
  refine ⟨_, hexec, fun hnone => ?_, fun x hne hagree => ?_, fun h0 h1 => ?_⟩ <;> rw [retired_srch]
  · rw [hnone] at hdraw ⊢
    rw [retired_q]
    exact searchReadCmp_of_ones rfl hdraw
  · obtain ⟨hid, hcmp⟩ := reads_of_agreeing hne hagree
    rw [searchReadCmp_of_unequal hid (hdraw.trans hcmp)]
    exact ⟨rfl, rfl, rfl⟩
  · obtain ⟨hid, hcmp⟩ := reads_of_differing h0 h1
    rw [searchReadCmp_of_zeros hid (hdraw.trans hcmp), choose_eq]
    exact ⟨rfl, rfl, fun hdir => if_neg fun hd => Bool.false_ne_true (hdir.symm.trans hd)⟩

end Sys2Proof.Machine
end

section
/-! PROOFS. What the appenders without room, the bracket, the queries and `crc8` answer (40_builder.md, 60_exceptions.md
R286), and the statements O5, O6, O45, O48, O49, O50, O52, O54 and O55. -/

namespace Sys2Proof.Machine

/-! ### `begin()` and the calls before it (R111, R112) -/

/-- Settles O5: `begin()` resets the block, releases the pin and returns. -/
theorem beginGivesResetValues : Obligations.BeginGivesResetValues := by
  intro s hb
  have hcall : topCall .begin s = answer (.code .ok) (release s.blockReset) := by
    simp [topCall, hostCall, needsBegun, hostOpEffect, opBegin, hb]
  exact ⟨_, hcall, ⟨rfl, rfl, rfl, rfl, rfl, rfl, rfl, rfl⟩, rfl, rfl, rfl, rfl, rfl, rfl,
    List.append_assoc s.out [_] [_], rfl, rfl, rfl⟩

/-- Only `begin()` and `crc8` are defined before `begin()` (R112). -/
theorem needsBegun_of_ne {op : HostOp} (hbegin : op ≠ .begin) (hcrc : ∀ bs n, op ≠ .crc8 bs n) :
    needsBegun op = true := by
  cases op
  case begin => exact absurd rfl hbegin
  case crc8 bs n => exact absurd rfl (hcrc bs n)
  all_goals rfl

/-- Settles O6: `handle()` looks at the mark itself, every other call when it is made. -/
theorem hostDutyOfBeginIsRefused : Obligations.HostDutyOfBeginIsRefused := by
  refine ⟨fun op s hb hbegin hcrc => ?_, fun s hb => ?_⟩
  · rcases topCall_cases op s with ⟨time, -, h⟩ | ⟨-, h⟩ <;> rw [h]
    · simp [handleCall, hb]
    · simp [hostCall, needsBegun_of_ne hbegin hcrc, hb]
  · simp [topCall, hostCall, hostOpEffect, opBegin, hb]

/-! ### The bracket and the queries -/

theorem topCall_beginTransaction {s : State} (hb : s.m.begun = true) (hf : s.m.fault = none) :
    topCall .beginTransaction s =
      if s.q.st = .idle then answer (.code .ok)
        { s with q.wr := 0, q.rd := 0, q.presence := false, q.st := .building, d.busy := false }
      else answer (.code .wrongState) s := by
  rw [topCall_of_begun (op := .beginTransaction) hb nofun, hostOpEffect, opBeginTransaction]
  by_cases hst : s.q.st = .idle <;> simp [hf, hst]

/-- Settles O52: the one call that opens a transaction looks for Idle. -/
theorem beginTransactionOpensTheQueue : Obligations.BeginTransactionOpensTheQueue :=
  fun _ hb hf => topCall_beginTransaction hb hf

/-- The host's buffer is written only when the status is Found (R132). -/
theorem searchResultOut_eq (q : Queue) (out : Rom) :
    searchResultOut q out = if q.resStatus = .found then q.resAddr else out := by
  unfold searchResultOut
  split <;> simp [*]

/-- Settles O54: both queries answer from the state and leave it. -/
theorem queriesChangeNothing : Obligations.QueriesChangeNothing := by
  intro s out hb
  have hidle : (s.q.st != .idle) = decide (s.q.st ≠ .idle) := by cases s.q.st <;> rfl
  rw [← searchResultOut_eq, ← hidle]
  exact ⟨topCall_of_begun (op := .inProgress) hb nofun, topCall_of_begun (op := .getLastSearchResult out) hb nofun⟩

/-! ### `wait` and `registerCallback` -/

/-- Settles O45: the operands are looked at first, and the append is of the whole encoding. -/
theorem operandAppenders : Obligations.OperandAppenders := by
  intro s i op bytes hb hf hop
  have heff : topCall op s =
      if i.wellFormed s.cfg then answerCode (appendInstr i s) else .refused .operandTooWide := by
    rcases hop with ⟨dur, rfl, rfl, -⟩ | ⟨h, c, rfl, rfl, -⟩ <;> exact topCall_of_begun hb nofun
  have hbytes : encode s.cfg i = bytes := by
    rcases hop with ⟨dur, rfl, -, rfl⟩ | ⟨h, c, rfl, -, rfl⟩ <;> rfl
  rw [heff]
  cases hwf : i.wellFormed s.cfg
  · rfl
  · rw [if_pos rfl, if_neg (by decide), appendInstr, hbytes, answerCode_appendBytes bytes hf]
    rfl

/-! ### A multi-append without room (R69, R126, D21) -/

theorem appendInstr_of_full {i : Instr} {s : State} (hs : cannotAppend s = false)
    (hfull : s.q.qend < s.q.wr + (encode s.cfg i).length) : appendInstr i s = (s, .bufferFull) := by
  rcases appendBytes_cases (encode s.cfg i) s with ⟨h, -⟩ | ⟨-, -, h⟩ | ⟨-, h, -⟩
  · simp [hs] at h
  · exact h
  · omega

/-- A multi-append appends the instructions that fit, and stops at the first that does not. -/
theorem appendSeq_of_full {is : List Instr} {i : Instr} (js : List Instr) {s : State} (hs : cannotAppend s = false)
    (hroom : s.q.wr + (encodeSeq s.cfg is).length ≤ s.q.qend)
    (hfull : s.q.qend < s.q.wr + (encodeSeq s.cfg is).length + (encode s.cfg i).length) :
    appendSeq (is ++ i :: js) s = (appended (encodeSeq s.cfg is) s, .bufferFull) := by
  induction is generalizing s with
  | nil =>
    rw [List.nil_append, appendSeq, appendInstr_of_full hs (by simpa using hfull)]
    simp [appended, memWriteBytes]
  | cons x is ih =>
    simp only [encodeSeq_cons, List.length_append] at hroom hfull
    rw [List.cons_append, appendSeq, appendInstr_of_room x hs (by omega), encodeSeq_cons, appended_append]
    exact ih (s := appended (encode s.cfg x) s) hs (by simp only [appended]; omega) (by simp only [appended]; omega)

/-- The same, by the number of instructions that fit. -/
theorem appendSeq_of_full_at {is : List Instr} {n : Nat} {s : State} (hs : cannotAppend s = false) (hn : n < is.length)
    (hroom : s.q.wr + (encodeSeq s.cfg (is.take n)).length ≤ s.q.qend)
    (hfull : s.q.qend < s.q.wr + (encodeSeq s.cfg (is.take n)).length + (encode s.cfg is[n]).length) :
    appendSeq is s = (appended (encodeSeq s.cfg (is.take n)) s, .bufferFull) := by
  have h := appendSeq_of_full (is.drop (n + 1)) hs hroom hfull
  rwa [← List.drop_eq_getElem_cons hn, List.take_append_drop] at h

/-! ### `writeBytes` without room -/

/-- `writeBytes` without room for all bits (R126): as many as fit, and BufferFull. -/
theorem topCall_writeBytes_of_full {s : State} {data : List Byte} (power : Bool) {n : Nat} (hb : s.m.begun = true)
    (hs : cannotAppend s = false) (hn : n < 8 * data.length) (hend : s.q.qend = s.q.wr + n) :
    (encodeSeq s.cfg ((writeBytesInstrs power data).take n)).length = n ∧
    topCall (.writeBytes data power) s = .next { s with
      q.buf := memWriteBytes s.q.buf s.q.wr (encodeSeq s.cfg ((writeBytesInstrs power data).take n))
      q.wr := s.q.qend
      out := s.out ++ [.returned (.code .bufferFull)] } := by
  have hlt : n < (writeBytesInstrs power data).length := by rwa [writeBytesInstrs_length]
  have hone := encode_writeBytesInstrs_length s.cfg power data
  have hlen : (encodeSeq s.cfg ((writeBytesInstrs power data).take n)).length = n := by
    rw [encodeSeq_length_of_one fun i hi => hone i (List.mem_of_mem_take hi), List.length_take_of_le hlt.le]
  have hnext := hone _ (List.getElem_mem hlt)
  refine ⟨hlen, ?_⟩
  rw [topCall_of_begun (op := .writeBytes data power) hb nofun, hostOpEffect, opWriteBytes,
    appendSeq_of_full_at hs hlt (by omega) (by omega), appended, hlen, ← hend]
  rfl

/-- Settles O48: every bit write is one byte long, so the queue is filled to its end; the power variant would be the last. -/
theorem writeBytesStopsWhenFull : Obligations.WriteBytesStopsWhenFull := by
  intro s data power hb hf hst hle hfull
  obtain ⟨n, hend⟩ := Nat.exists_eq_add_of_le hle
  obtain ⟨hlen, hcall⟩ := topCall_writeBytes_of_full power hb (cannotAppend_eq_false.mpr ⟨hf, hst⟩)
    (by omega : n < 8 * data.length) hend
  have hone : ∀ i ∈ (writeBytesInstrs power data).take n, (encode s.cfg i).length = 1 := fun i hi =>
    encode_writeBytesInstrs_length s.cfg power data i (List.mem_of_mem_take hi)
  refine ⟨_, hcall, fun j i hj hi hin => ?_, fun a ha => memRead_memWriteBytes_outside _ _ _ (by omega)⟩
  have hbit : ((writeBytesInstrs power data).take n)[8 * j + i]? = some (bitWrite false (data[j].getLsbD i)) := by
    have hlast : (j + 1 == data.length && i == 7) = false := by simp; omega
    rw [List.getElem?_take_of_lt (by omega), writeBytesInstrs_getElem? power data hj hi, hlast, Bool.and_false]
  have hbyte := encodeSeq_getElem?_of_one hone hbit
  rw [Nat.add_assoc, memRead_memWriteBytes_inside _ _ _ (by omega), ← List.getElem?_eq_getElem]
  cases hx : data[j].getLsbD i <;> rw [hx] at hbyte <;> simpa [bitWrite, encode] using hbyte

/-! ### `readBytes` -/

/-- The bytes of the reads of `count` bytes to `dest` on: eight Reads and a COPY for each (R90). -/
def readBytesCode (p : Params) (count dest : Nat) : List Byte :=
  (List.range count).flatMap fun j => List.replicate 8 0x05 ++ encode p (.callback 0 (dest + j))

theorem encodeSeq_append (p : Params) (is js : List Instr) :
    encodeSeq p (is ++ js) = encodeSeq p is ++ encodeSeq p js := by simp [encodeSeq]

theorem encodeSeq_reads (p : Params) (n : Nat) : encodeSeq p (List.replicate n .read) = List.replicate n 0x05 := by
  induction n with
  | zero => rfl
  | succ n ih => rw [List.replicate_succ, encodeSeq_cons, ih]; rfl

theorem encodeSeq_readBytesInstrs (p : Params) (count dest : Nat) :
    encodeSeq p (readBytesInstrs count dest) = readBytesCode p count dest := by
  induction count generalizing dest with
  | zero => rfl
  | succ n ih =>
    have hshift : ∀ j, dest + 1 + j = dest + (j + 1) := fun j => by omega
    rw [readBytesInstrs, encodeSeq_append, encodeSeq_reads, encodeSeq_cons, ih, readBytesCode, readBytesCode,
      List.range_succ_eq_map, List.flatMap_cons, List.flatMap_map, List.append_assoc]
    simp only [hshift, Nat.add_zero, Nat.succ_eq_add_one]

/-- Each byte takes a group of nine instructions. -/
theorem readBytesCode_length (p : Params) (count dest : Nat) :
    (readBytesCode p count dest).length = count * (9 + p.handlerBytes + p.contextBytes) := by
  simp [readBytesCode, List.length_flatMap, encode_length, encodedLength]
  exact .inl (by omega)

/-- The reads of `m + n` bytes are those of `m` bytes and then of `n` more. -/
theorem readBytesInstrs_add (m n dest : Nat) :
    readBytesInstrs (m + n) dest = readBytesInstrs m dest ++ readBytesInstrs n (dest + m) := by
  induction m generalizing dest with
  | zero => simp [readBytesInstrs]
  | succ m ih =>
    rw [Nat.succ_add, readBytesInstrs, ih, readBytesInstrs, List.append_assoc, List.cons_append,
      show dest + 1 + m = dest + (m + 1) by omega]

theorem topCall_readBytes {s : State} (count dest : Nat) (hb : s.m.begun = true) :
    topCall (.readBytes count dest) s =
      if readBytesFits s.cfg count dest then answerCode (appendSeq (readBytesInstrs count dest) s)
      else .refused .operandTooWide :=
  topCall_of_begun (op := .readBytes count dest) hb nofun

/-- Settles O49: the destinations are looked at first; with room the whole expansion is appended. -/
theorem readBytesQueuesReadsAndCopies : Obligations.ReadBytesQueuesReadsAndCopies := by
  intro s count dest hb
  rw [topCall_readBytes count dest hb]
  refine ⟨fun hpos hwide => ?_, fun hf hst hfits hroom => ?_⟩
  · rw [if_neg (by simp [readBytesFits]; omega)]
  · have hlen := readBytesCode_length s.cfg count dest
    rw [← encodeSeq_readBytesInstrs] at hlen
    rw [if_pos (by simpa [readBytesFits] using hfits),
      appendSeq_of_room _ (cannotAppend_eq_false.mpr ⟨hf, hst⟩) (by omega), appended, hlen, encodeSeq_readBytesInstrs]
    rfl

/-- Room that ends inside a group takes its first Reads, eight at most, and not the instruction after them. -/
theorem group_split (p : Params) (d : Nat) (rest : List Instr) {r : Nat}
    (hr : r < 9 + p.handlerBytes + p.contextBytes) :
    ∃ i js, List.replicate 8 .read ++ .callback 0 d :: rest = List.replicate (min 8 r) .read ++ i :: js ∧
      r < min 8 r + (encode p i).length := by
  by_cases h8 : r < 8
  · refine ⟨.read, List.replicate (7 - r) .read ++ .callback 0 d :: rest, ?_, ?_⟩
    · rw [Nat.min_eq_right h8.le, ← List.cons_append, ← List.replicate_succ, ← List.append_assoc,
        List.replicate_append_replicate, show r + (7 - r + 1) = 8 by omega]
    · rw [Nat.min_eq_right h8.le]
      exact Nat.lt_succ_self r
  · refine ⟨.callback 0 d, rest, ?_, ?_⟩ <;> rw [Nat.min_eq_left (Nat.le_of_not_lt h8)]
    rw [encode_length, encodedLength]
    omega

/-- The instructions of a `readBytes` with room for `q` whole groups and `r` bytes of the next: those that fit, and the first
that does not. -/
theorem readBytesInstrs_split (p : Params) {count q r : Nat} (dest : Nat) (hq : q < count)
    (hr : r < 9 + p.handlerBytes + p.contextBytes) :
    ∃ i js, readBytesInstrs count dest =
        (readBytesInstrs q dest ++ List.replicate (min 8 r) .read) ++ i :: js ∧
      r < min 8 r + (encode p i).length := by
  obtain ⟨m, rfl⟩ := Nat.exists_eq_add_of_lt hq
  obtain ⟨i, js, hsplit, hnext⟩ := group_split p (dest + q) (readBytesInstrs m (dest + q + 1)) hr
  refine ⟨i, js, ?_, hnext⟩
  rw [Nat.add_assoc, readBytesInstrs_add, readBytesInstrs, hsplit, List.append_assoc]

/-- Settles O50: the first instruction that does not fit is a Read or the COPY of the group in which the room ends. -/
theorem readBytesStopsWhenFull : Obligations.ReadBytesStopsWhenFull := by
  intro s count dest group room bytes hb hf hst hfits hgroup hend hfull hbytes
  have hq : room / group < count := Nat.div_lt_of_lt_mul (by rwa [Nat.mul_comm])
  have hr : room % group < 9 + s.cfg.handlerBytes + s.cfg.contextBytes := hgroup ▸ Nat.mod_lt room (by omega)
  have hroom := Nat.div_add_mod' room group
  obtain ⟨i, js, hinstrs, hnext⟩ := readBytesInstrs_split s.cfg dest hq hr
  have hcode : encodeSeq s.cfg
      (readBytesInstrs (room / group) dest ++ List.replicate (min 8 (room % group)) .read) = bytes := by
    rw [encodeSeq_append, encodeSeq_reads, encodeSeq_readBytesInstrs, hbytes, readBytesCode]
  have hlen : bytes.length = room / group * group + min 8 (room % group) := by
    have hgroups := readBytesCode_length s.cfg (room / group) dest
    rw [← hgroup] at hgroups
    rw [hbytes, List.length_append, List.length_replicate]
    exact congrArg (· + _) hgroups
  have hfit : readBytesFits s.cfg count dest = true := by simp [readBytesFits, hfits]
  rw [topCall_readBytes count dest hb, if_pos hfit, hinstrs,
    appendSeq_of_full js (cannotAppend_eq_false.mpr ⟨hf, hst⟩) (by rw [hcode]; omega) (by rw [hcode]; omega), hcode]
  rfl

/-! ### `crc8` (R286) -/

/-- A byte shifted into a CRC equal to it leaves only zeros (D36). -/
theorem crcBits_self (n : Nat) (c : Byte) : crcBits n c c = c >>> n := by
  induction n generalizing c with
  | zero => rfl
  | succ n ih =>
    have hbit : crcBit c c = c >>> 1 := by simp [crcBit]
    rw [crcBits, hbit, ih, ← BitVec.shiftRight_add, Nat.add_comm]

theorem crc8_append_singleton (bytes : List Byte) (b : Byte) :
    crc8 (bytes ++ [b]) = crcBits 8 (crc8 bytes) b := by
  simp [crc8]

theorem crc8_append_crc8 (bytes : List Byte) : crc8 (bytes ++ [crc8 bytes]) = 0 := by
  rw [crc8_append_singleton, crcBits_self]
  exact BitVec.ushiftRight_eq_zero le_rfl

theorem topCall_crc8 {bytes : List Byte} {n : Nat} (s : State) (h : n ≤ bytes.length) :
    topCall (.crc8 bytes n) s = answer (.byte (crc8 (bytes.take n))) s := by
  simp [topCall, hostCall, needsBegun, hostOpEffect, opCrc8, Nat.not_lt.mpr h]

/-- Settles O55: the CRC of a string cancels itself bit by bit. -/
theorem crcOfAValidAddressIsZero : Obligations.CrcOfAValidAddressIsZero :=
  ⟨crc8_append_crc8, by decide +kernel, fun s _ _ h => topCall_crc8 s h⟩

end Sys2Proof.Machine
end

section
/-! PROOFS. One device on the bus, from the fetch of a SearchFirst to the end of the scan (43_search.md R238), and the statement
O33. -/

namespace Sys2Proof.Machine

/-! ### The completions of a polled search -/

/-- A polled block whose queue ends with a search: the search is in flight and nothing has completed, or it is over and it alone
has. -/
inductive OneSearch (queue : List Byte) (rd n : Nat) (s : State) : Prop
  | inFlight (h : Searching queue rd n s) (hout : finishedOf s.out = [])
  | ended (hb : s.m.begun = true) (hbusy : s.d.busy = false) (hend : s.q.wr ≤ s.q.rd)
      (hcalls : s.env.calls = pollsFrom (s.env.time + 480) n) (hout : finishedOf s.out = [.searchNext])

/-- A search step completes nothing before it is done. -/
theorem finishedOf_searchStep (start : Bool) (s : State) :
    finishedOf (searchStep start s).1.out = finishedOf s.out := by
  obtain ⟨o, ho, hfin, -⟩ := (busFrame_searchStep start s).out
  rw [ho, finishedOf_append, hfin, List.append_nil]

theorem finishedOf_emit_returned (r : HostResult) (s : State) :
    finishedOf (emit (.returned r) s).out = finishedOf s.out := by
  simp [finishedOf_append, finishedOf]

/-- A `handle()` with a free slot and an exhausted queue completes nothing (R151, R153). -/
theorem dispatch_exhausted {s : State} (hbusy : s.d.busy = false) (hend : s.q.wr ≤ s.q.rd) :
    ∃ st, dispatch s = answer .hIdle { s with q.st := st } := by
  rcases dispatch_outcome s with h | ⟨-, -, -, h⟩ | ⟨-, hlt, -⟩ | ⟨-, -, u, hu, -⟩
  · exact ⟨s.q.st, h⟩
  · exact ⟨.idle, h⟩
  · omega
  · cases hu with
    | inFlight hc => simp [hbusy] at hc
    | fetched i rest _ hlt | nop _ hlt => omega

namespace OneSearch

variable {queue : List Byte} {rd n : Nat} {s : State}

theorem step (hlast : queue.length ≤ rd) (h : OneSearch queue rd (n + 1) s) : Leads 1 s (OneSearch queue rd n) := by
  cases h with
  | inFlight h hout =>
    have hfin := (finishedOf_searchStep false (atPoll 480 n s)).trans hout
    generalize hu : searchStep false (atPoll 480 n s) = r at hfin
    obtain ⟨u, done⟩ := r
    cases done
    · exact (h.leads_of_busy hu (P := fun v => finishedOf v.out = [])
        ((finishedOf_emit_returned .hBusy u).trans hfin)).mono fun v ⟨hv, hout⟩ => .inFlight hv hout
    · have hdone : finishedOf (complete .searchNext u).out = [.searchNext] := by
        rw [complete_out, finishedOf_append, hfin]
        rfl
      refine (h.leads_of_done hu (P := fun v => v.d.busy = false ∧ finishedOf v.out = [.searchNext])
        ⟨rfl, (finishedOf_emit_returned ..).trans hdone⟩).mono fun v ⟨hv, hbusy, hout⟩ => ?_
      exact .ended hv.begun hbusy (by rw [hv.wr, hv.rd]; exact hlast) hv.calls hout
  | ended hb hbusy hend hcalls hout =>
    rw [pollsFrom_succ] at hcalls
    have hstep := step_handle hb hcalls (Nat.le_add_right _ _)
    obtain ⟨st, hd⟩ := dispatch_exhausted (s := atPoll 480 n s) hbusy hend
    exact .of_step (hstep.trans hd) (.ended hb hbusy hend rfl ((finishedOf_emit_returned ..).trans hout))

theorem run (hlast : queue.length ≤ rd) (h : OneSearch queue rd n s) : Leads n s (OneSearch queue rd 0) := by
  induction n generalizing s with
  | zero => exact ⟨s, rfl, h⟩
  | succ n ih =>
    rw [Nat.add_comm]
    exact (h.step hlast).trans fun _ => ih

end OneSearch

/-- The call that fetches a SearchFirst begins the one search of its queue. -/
theorem oneSearch_of_bench (ds : List Device) (n : Nat) :
    Leads 1 (bench ds [0x06] (n + 1)) (OneSearch [0x06] 1 n) := by
  have hready := ready_bench ds [0x06] (n + 1)
  obtain ⟨hfetched, hstep⟩ := (polled_bench ds [0x06] (n + 1)).fetch (i := .srchf) hready.free rfl (fun _ => rfl) rfl
  obtain ⟨hexec, -⟩ := searchStartsAPass (fetched .srchf (atPoll 0 n (bench ds [0x06] (n + 1)))) hready.idle hready.rst
  exact (hfetched.leads_of_exec (.inl rfl) hstep hexec
    (P := fun v => v.d = { busy := true, instr := .instr .srchn } ∧ finishedOf v.out = []) ⟨rfl, rfl⟩).mono
    fun v ⟨hv, hslot, hout⟩ => .inFlight ⟨hv, hslot⟩ hout

/-! ### One device -/

/-- A pass on a bus of one device finds it, and meets no discrepancy. -/
theorem Route.valid_of_one {a : Rom} (hfamily : romByte a 0 ≠ 0) :
    Route.Valid { devices := [⟨a, false⟩], target := a, resume := 0, split := 0 } where
  target_mem := ⟨⟨a, false⟩, List.mem_singleton.mpr rfl, rfl⟩
  family := hfamily
  agree k _ _ d hd := by rw [List.mem_singleton.mp (mem_taking.mp hd).1]
  differ k hk := absurd hk (Nat.succ_ne_zero k)
  resume_eq := (ite_self 0).symm

/-- Settles O33: the pass takes the one device's course, and the one completion is that of the search. -/
theorem oneDeviceIsFoundInOnePass : Obligations.OneDeviceIsFoundInOnePass := by
  intro a hfamily
  obtain ⟨t, ht, -, hfound⟩ := Route.leads_searchFirst (Route.valid_of_one hfamily) (n := 0)
    (ready_bench [⟨a, false⟩] [0x06] 203) (polled_bench [⟨a, false⟩] _ 203) rfl rfl
  obtain ⟨t', ht', hone⟩ := (oneSearch_of_bench [⟨a, false⟩] 202).trans fun _ h => h.run (Nat.le_refl 1)
  obtain rfl : t = t' := Host.Outcome.next.inj (ht.symm.trans ht')
  have hfree := hfound.ready.free
  refine ⟨t, ht, hfound.status, hfound.addr, hfree, ?_, ?_, ?_⟩
  · rw [hfound.ready.ld]
    exact ite_self 0
  · rw [hfound.ready.lastDevice]
    exact beq_iff_eq.mpr (ite_self 0)
  · cases hone with
    | inFlight h => simp [h.slot] at hfree
    | ended _ _ _ _ hout => exact hout

end Sys2Proof.Machine
end
